-- ==== Sys2Proof/Word.lean ====
section
/-! DEFINITION. The widths of the block's data (spec/00_scope.md R9, R10). -/

namespace Sys2Proof

/-- A byte: a function code, a unit id, a character, a checksum byte (R9). -/
abbrev Byte := BitVec 8

/-- A 16-bit field of a PDU or frame header (R9). -/
abbrev Half := BitVec 16

/-- A host-bus word: the only access width of the block (20_memory.md R92). -/
abbrev Word := BitVec 32

end Sys2Proof
end

