-- ==== Sys2Proof/Config.lean ====
section
/-! DEFINITION. The block's parameters (spec/00_scope.md R8) and its one open value, RAM_INIT. -/

namespace Sys2Proof.Config

/-- RAM_INIT (R8, R50-R52; 92_eei_decisions.md D33): the content of a RAM byte that nothing has
written since power-on. `draw` counts the power-ons (hardware resets), `address` is the byte's bus
offset. A free value: nothing constrains it (log 3). -/
opaque ramInit (draw address : Nat) : Byte

/-- PDU_MAX (R8): bytes in a PDU, function code included. -/
def pduMax : Nat := 253

/-- The payload limit that goes with PDU_MAX (R8, R160). -/
def payloadMax : Nat := 252

/-- RTU_MAX (R8): bytes in an RTU frame. -/
def rtuMax : Nat := 256

/-- ASCII_MAX (R8): decoded bytes in an ASCII frame. -/
def asciiMax : Nat := 255

/-- LEN_MAX (R8): the largest STREAM length field. -/
def lenMax : Nat := 254

/-- BUF_N (R8): entries of TXBUF and of RXBUF. -/
def bufN : Nat := 256

/-- MSG_N (R8): words of MSG. -/
def msgN : Nat := 2048

/-- E0 (R8): index of the first element word of MSG. -/
def e0 : Nat := 8

/-- How many element words MSG has: EL[0] to EL[2039] (30_encoding.md R140). -/
def elements : Nat := 2040

/-- The size of the host aperture in bytes (10_state.md R31). -/
def aperture : Nat := 0x8000

/-- The constant of the ID register (10_state.md R32). -/
def idValue : Word := 0x4D420001

/-- CHARBITS after reset (R8, 10_state.md R33). -/
def charBitsReset : BitVec 4 := 11

/-- BAUD after reset (R8, 10_state.md R39). -/
def baudReset : Word := 9600

/-- TXDLY after reset, in microseconds (R8, 10_state.md R40). -/
def txDlyReset : Word := 2000

/-- The CRC16 seed (41_checksum.md R241, 10_state.md R35). -/
def crcSeed : Half := 0xFFFF

/-- The CRC16 polynomial in the right-shifting register (41_checksum.md R241). -/
def crcPoly : Half := 0xA001

end Sys2Proof.Config
end

