-- ==== Sys2Proof/Syntax.lean ====
section
/-! DEFINITION. The instructions: one constructor per row of spec/opcode_table.json. -/

namespace Sys2Proof

/-- DIR (30_encoding.md R120, 00_scope.md R16): 0 a request, 1 a response. -/
inductive Dir where
  | request
  | response
deriving DecidableEq, Repr

/-- The codec's two operations on a PDU variant (40_codec.md R160, R161): ENCODE packs the
descriptor into bytes, DECODE unpacks bytes into the descriptor. -/
inductive CodecOp where
  | pack
  | unpack
deriving DecidableEq, Repr

/-- One sub-request of Read File Record (40_codec.md R180). -/
structure FileRef where
  refType : Byte
  file : Half
  record : Half
  length : Half
deriving DecidableEq, Repr

/-- One sub-response of Read File Record (40_codec.md R181). -/
structure FileData where
  refType : Byte
  values : List Half
deriving DecidableEq, Repr

/-- One sub-request of Write File Record (40_codec.md R182). The record length is the number of
values. -/
structure FileWrite where
  refType : Byte
  file : Half
  record : Half
  values : List Half
deriving DecidableEq, Repr

/-- The payload layouts of the PDU variants (30_encoding.md R131, 40_codec.md R170-R187). -/
inductive Layout where
  | pair          -- R170, R172, R174, R175, R177, R179
  | coils         -- R171
  | registers     -- R173
  | writeCoils    -- R176
  | writeRegs     -- R178
  | fileRefs      -- R180
  | fileData      -- R181
  | fileWrites    -- R182
  | maskWrite     -- R183
  | readWrite     -- R184
  | fifoPointer   -- R185
  | fifoValues    -- R186
  | exception     -- R187
deriving DecidableEq, Repr

/-- A payload: the fields of one layout. Byte counts are not stored, because a payload's byte count
always equals the bytes that follow it (30_encoding.md R134). Coil lists are whole bytes of bits, padding
included (92_eei_decisions.md D27). -/
inductive Payload where
  | pair (f1 f2 : Half)
  | coils (bits : List Bool)
  | registers (values : List Half)
  | writeCoils (start quantity : Half) (bits : List Bool)
  | writeRegs (start quantity : Half) (values : List Half)
  | fileRefs (subs : List FileRef)
  | fileData (subs : List FileData)
  | fileWrites (subs : List FileWrite)
  | maskWrite (address andMask orMask : Half)
  | readWrite (readStart readQuantity writeStart writeQuantity : Half) (values : List Half)
  | fifoPointer (address : Half)
  | fifoValues (values : List Half)
  | exception (code : Byte)
deriving DecidableEq, Repr

/-- A message: a function-code byte and a payload (30_encoding.md R130). -/
structure Message where
  fc : Byte
  body : Payload
deriving DecidableEq, Repr

/-- Every row of spec/opcode_table.json. The first fourteen are the command words written to CMD
(30_encoding.md R121). The others are the PDU variants (30_encoding.md R131), which the codec runs inside
ENCODE (`op = pack`) or DECODE (`op = unpack`); they carry the fields of their message (log 7). -/
inductive Instr where
  /-- R340. -/
  | nop
  /-- R250. -/
  | crcInit
  /-- R251; DATA = b. -/
  | crcFeed (b : Byte)
  /-- R252. -/
  | lrcInit
  /-- R253; DATA = b. -/
  | lrcFeed (b : Byte)
  /-- R162, DIR = 0. -/
  | encodeReq
  /-- R162, DIR = 1. -/
  | encodeRsp
  /-- R163, DIR = 0. -/
  | decodeReq
  /-- R163, DIR = 1. -/
  | decodeRsp
  /-- R299. -/
  | txSend
  /-- R341. -/
  | rxEnable
  /-- R343. -/
  | rxDisable
  /-- R342. -/
  | rxRelease
  /-- R344. -/
  | resetSoft
  /-- Read Coils, request: R170. -/
  | pduReq01 (op : CodecOp) (start quantity : Half)
  /-- Read Coils, response: R171. -/
  | pduRsp01 (op : CodecOp) (bits : List Bool)
  /-- Read Discrete Inputs, request: R170. -/
  | pduReq02 (op : CodecOp) (start quantity : Half)
  /-- Read Discrete Inputs, response: R171. -/
  | pduRsp02 (op : CodecOp) (bits : List Bool)
  /-- Read Holding Registers, request: R172. -/
  | pduReq03 (op : CodecOp) (start quantity : Half)
  /-- Read Holding Registers, response: R173. -/
  | pduRsp03 (op : CodecOp) (values : List Half)
  /-- Read Input Registers, request: R172. -/
  | pduReq04 (op : CodecOp) (start quantity : Half)
  /-- Read Input Registers, response: R173. -/
  | pduRsp04 (op : CodecOp) (values : List Half)
  /-- Write Single Coil, request: R174. -/
  | pduReq05 (op : CodecOp) (address value : Half)
  /-- Write Single Coil, response: R174. -/
  | pduRsp05 (op : CodecOp) (address value : Half)
  /-- Write Single Register, request: R175. -/
  | pduReq06 (op : CodecOp) (address value : Half)
  /-- Write Single Register, response: R175. -/
  | pduRsp06 (op : CodecOp) (address value : Half)
  /-- Write Multiple Coils, request: R176. -/
  | pduReq0F (op : CodecOp) (start quantity : Half) (bits : List Bool)
  /-- Write Multiple Coils, response: R177. -/
  | pduRsp0F (op : CodecOp) (start quantity : Half)
  /-- Write Multiple Registers, request: R178. -/
  | pduReq10 (op : CodecOp) (start quantity : Half) (values : List Half)
  /-- Write Multiple Registers, response: R179. -/
  | pduRsp10 (op : CodecOp) (start quantity : Half)
  /-- Read File Record, request: R180. -/
  | pduReq14 (op : CodecOp) (subs : List FileRef)
  /-- Read File Record, response: R181. -/
  | pduRsp14 (op : CodecOp) (subs : List FileData)
  /-- Write File Record, request: R182. -/
  | pduReq15 (op : CodecOp) (subs : List FileWrite)
  /-- Write File Record, response: R182. -/
  | pduRsp15 (op : CodecOp) (subs : List FileWrite)
  /-- Mask Write Register, request: R183. -/
  | pduReq16 (op : CodecOp) (address andMask orMask : Half)
  /-- Mask Write Register, response: R183. -/
  | pduRsp16 (op : CodecOp) (address andMask orMask : Half)
  /-- Read/Write Multiple Registers, request: R184. -/
  | pduReq17 (op : CodecOp) (readStart readQuantity writeStart writeQuantity : Half)
      (values : List Half)
  /-- Read/Write Multiple Registers, response: R173. -/
  | pduRsp17 (op : CodecOp) (values : List Half)
  /-- Read FIFO Queue, request: R185. -/
  | pduReq18 (op : CodecOp) (address : Half)
  /-- Read FIFO Queue, response: R186. -/
  | pduRsp18 (op : CodecOp) (values : List Half)
  /-- Exception response of the request code `fc7` (function-code byte `0x80 | fc7`): R187. -/
  | pduRspExc (op : CodecOp) (fc7 : BitVec 7) (code : Byte)
deriving DecidableEq, Repr

end Sys2Proof
end

