-- ==== Sys2Proof/WellFormed.lean ====
section
/-! DEFINITION. Which terms of `Instr` an encoding can carry: the payload limit of 252 bytes
(spec/00_scope.md R8, spec/40_codec.md R160) under each variant's layout, and coil lists in whole bytes
(40_codec.md R171, R176; log 13). Every command is well formed: its operand's width is its type's. -/

namespace Sys2Proof

/-- A coil list fills whole bytes (30_encoding.md R133: unpacking bc bytes gives 8*bc bits). -/
def wholeBytes (bits : List Bool) : Bool := bits.length % 8 == 0

/-- The bytes of the sub-responses of R181: a length byte, the reference type, the values. -/
def fileDataSize : List FileData → Nat
  | [] => 0
  | d :: ds => 2 + 2 * d.values.length + fileDataSize ds

/-- The bytes of the sub-requests of R182: seven header bytes and the values. -/
def fileWriteSize : List FileWrite → Nat
  | [] => 0
  | d :: ds => 7 + 2 * d.values.length + fileWriteSize ds

/-- Coil responses (R171): whole bytes, at most 251 of them. -/
def coilsOk (bits : List Bool) : Bool :=
  wholeBytes bits && decide (1 + bits.length / 8 ≤ Config.payloadMax)

/-- Register responses (R173): at most 125 values. -/
def registersOk (values : List Half) : Bool :=
  decide (1 + 2 * values.length ≤ Config.payloadMax)

/-- File writes (R182): the data length and its bytes fit the payload. -/
def fileWritesOk (subs : List FileWrite) : Bool :=
  decide (1 + fileWriteSize subs ≤ Config.payloadMax)

/-- The well-formed instructions, one line per row of the opcode table. -/
def WellFormed : Instr → Bool
  | .nop => true
  | .crcInit => true
  | .crcFeed _ => true
  | .lrcInit => true
  | .lrcFeed _ => true
  | .encodeReq => true
  | .encodeRsp => true
  | .decodeReq => true
  | .decodeRsp => true
  | .txSend => true
  | .rxEnable => true
  | .rxDisable => true
  | .rxRelease => true
  | .resetSoft => true
  | .pduReq01 _ _ _ => true
  | .pduRsp01 _ bits => coilsOk bits
  | .pduReq02 _ _ _ => true
  | .pduRsp02 _ bits => coilsOk bits
  | .pduReq03 _ _ _ => true
  | .pduRsp03 _ values => registersOk values
  | .pduReq04 _ _ _ => true
  | .pduRsp04 _ values => registersOk values
  | .pduReq05 _ _ _ => true
  | .pduRsp05 _ _ _ => true
  | .pduReq06 _ _ _ => true
  | .pduRsp06 _ _ _ => true
  | .pduReq0F _ _ _ bits => wholeBytes bits && decide (5 + bits.length / 8 ≤ Config.payloadMax)
  | .pduRsp0F _ _ _ => true
  | .pduReq10 _ _ _ values => decide (5 + 2 * values.length ≤ Config.payloadMax)
  | .pduRsp10 _ _ _ => true
  | .pduReq14 _ subs => decide (1 + 7 * subs.length ≤ Config.payloadMax)
  | .pduRsp14 _ subs => decide (1 + fileDataSize subs ≤ Config.payloadMax)
  | .pduReq15 _ subs => fileWritesOk subs
  | .pduRsp15 _ subs => fileWritesOk subs
  | .pduReq16 _ _ _ _ => true
  | .pduRsp16 _ _ _ _ => true
  | .pduReq17 _ _ _ _ _ values => decide (9 + 2 * values.length ≤ Config.payloadMax)
  | .pduRsp17 _ values => registersOk values
  | .pduReq18 _ _ => true
  | .pduRsp18 _ values => decide (4 + 2 * values.length ≤ Config.payloadMax)
  | .pduRspExc _ _ _ => true

end Sys2Proof
end

