-- ==== Sys2Proof/Decode.lean ====
section
/-! DEFINITION. The block's two encodings (spec/30_encoding.md): the 32-bit command word and the PDU
bytes. The decoder is total and rejects by name; the encoder is written from the same tables. -/

namespace Sys2Proof

/-! ## Byte order and bit packing -/

/-- The 16-bit value of two bytes, high byte first: `rd16` (00_scope.md R11, 30_encoding.md R132). -/
def half (hi lo : Byte) : Half := hi ++ lo

/-- The high byte of a 16-bit value. -/
def hiByte (v : Half) : Byte := v.extractLsb' 8 8

/-- The low byte of a 16-bit value. -/
def loByte (v : Half) : Byte := v.extractLsb' 0 8

/-- `be16` (00_scope.md R11): high byte first. -/
def be16 (v : Half) : List Byte := [hiByte v, loByte v]

/-- `le16` (00_scope.md R11): low byte first; the order of the RTU CRC (20_memory.md R94). -/
def le16 (v : Half) : List Byte := [loByte v, hiByte v]

/-- A count written into a one-byte field. Every caller's count is bounded by its layout's limit. -/
def countByte (n : Nat) : Byte := BitVec.ofNat 8 n

/-- A count written into a two-byte field. -/
def countHalf (n : Nat) : Half := BitVec.ofNat 16 n

/-- `rd16(xs, p)` (00_scope.md R11); a byte past the end counts as 0 (no rule reads one). -/
def rd16 (xs : List Byte) (p : Nat) : Half := half (xs.getD p 0) (xs.getD (p + 1) 0)

/-- The 16-bit values of a list of bytes, two by two, high byte first (R132). -/
def halves : List Byte → List Half
  | hi :: lo :: rest => half hi lo :: halves rest
  | _ => []

/-- The bytes of a list of 16-bit values (R132). -/
def halfBytes (vs : List Half) : List Byte := vs.flatMap be16

/-- A byte from its eight bits, bit 0 first (R133). -/
def byteOfBits (f : Nat → Bool) : Byte :=
  BitVec.ofNat 8 ((f 0).toNat + 2 * (f 1).toNat + 4 * (f 2).toNat + 8 * (f 3).toNat
    + 16 * (f 4).toNat + 32 * (f 5).toNat + 64 * (f 6).toNat + 128 * (f 7).toNat)

/-- `pack_bits` (R133): bit i of the list is bit `i mod 8` of byte `i div 8`; missing bits are 0. -/
def packBits (xs : List Bool) : List Byte :=
  (List.range ((xs.length + 7) / 8)).map fun j => byteOfBits fun k => xs.getD (8 * j + k) false

/-- `unpack_bits` (R133). -/
def unpackBits (bs : List Byte) : List Bool :=
  (List.range (8 * bs.length)).map fun i => (bs.getD (i / 8) 0).getLsbD (i % 8)

/-! ## Reasons for rejecting -/

/-- Why a word or a PDU has no meaning. The first four are the illegal command words of R123, the
others the failures of `unpack` (40_codec.md R161). -/
inductive DecodeError where
  /-- Bits 31:17 of a command word are not all 0 (R123). -/
  | reservedBits
  /-- OP is not in the opcode map (R121). -/
  | reservedOp
  /-- DATA is not 0 for a command that takes none (R123). -/
  | strayData
  /-- DIR is not 0 for a command that takes none (R123). -/
  | strayDir
  /-- A PDU of no bytes (40_codec.md R161). -/
  | emptyPdu
  /-- The function code is reserved in this direction (R135). -/
  | unsupportedCode
  /-- The payload's length is not the layout's (R134). -/
  | wrongLength
  /-- A register byte count is odd (40_codec.md R173, R178, R184). -/
  | oddByteCount
  /-- A byte count is not a multiple of 7 (40_codec.md R180). -/
  | raggedGroup
  /-- A sub-structure's length is illegal or runs past the end (40_codec.md R181, R182). -/
  | badSubLength
  /-- The FIFO count disagrees with its byte count (40_codec.md R186). -/
  | countMismatch
deriving DecidableEq, Repr

/-! ## The command word -/

/-- OP: bits 7:0 (R120). -/
def opField (v : Word) : Byte := v.extractLsb' 0 8

/-- DATA: bits 15:8 (R120, R122). -/
def dataField (v : Word) : Byte := v.extractLsb' 8 8

/-- DIR: bit 16 (R120, R122). -/
def dirField (v : Word) : Bool := v.getLsbD 16

/-- The reserved bits 31:17 (R120). -/
def reservedField (v : Word) : BitVec 15 := v.extractLsb' 17 15

/-- A command without operands: DATA and DIR must be 0 (R123). -/
def plainCommand (v : Word) (i : Instr) : Except DecodeError Instr :=
  if dataField v ≠ 0 then .error .strayData
  else if dirField v then .error .strayDir
  else .ok i

/-- A command that takes DATA: DIR must be 0 (R123). -/
def dataCommand (v : Word) (f : Byte → Instr) : Except DecodeError Instr :=
  if dirField v then .error .strayDir else .ok (f (dataField v))

/-- A command that takes DIR: DATA must be 0 (R123). -/
def dirCommand (v : Word) (request response : Instr) : Except DecodeError Instr :=
  if dataField v ≠ 0 then .error .strayData
  else if dirField v then .ok response
  else .ok request

/-- `decode_cmd` (R124), total on every 32-bit value. -/
def decodeCommand (v : Word) : Except DecodeError Instr :=
  if reservedField v ≠ 0 then .error .reservedBits
  else
    match (opField v).toNat with
    | 0x00 => plainCommand v .nop
    | 0x01 => plainCommand v .crcInit
    | 0x02 => dataCommand v .crcFeed
    | 0x03 => plainCommand v .lrcInit
    | 0x04 => dataCommand v .lrcFeed
    | 0x10 => dirCommand v .encodeReq .encodeRsp
    | 0x11 => dirCommand v .decodeReq .decodeRsp
    | 0x20 => plainCommand v .txSend
    | 0x30 => plainCommand v .rxEnable
    | 0x31 => plainCommand v .rxDisable
    | 0x32 => plainCommand v .rxRelease
    | 0xFF => plainCommand v .resetSoft
    | _ => .error .reservedOp

/-! ## PDUs -/

/-- The layout of a function code in a direction (R131, R135), `none` for the reserved codes. -/
def layoutOf (dir : Dir) (fc : Byte) : Option Layout :=
  match dir with
  | .request =>
    match fc.toNat with
    | 0x01 => some .pair
    | 0x02 => some .pair
    | 0x03 => some .pair
    | 0x04 => some .pair
    | 0x05 => some .pair
    | 0x06 => some .pair
    | 0x0F => some .writeCoils
    | 0x10 => some .writeRegs
    | 0x14 => some .fileRefs
    | 0x15 => some .fileWrites
    | 0x16 => some .maskWrite
    | 0x17 => some .readWrite
    | 0x18 => some .fifoPointer
    | _ => none
  | .response =>
    if fc.getLsbD 7 then some .exception
    else
      match fc.toNat with
      | 0x01 => some .coils
      | 0x02 => some .coils
      | 0x03 => some .registers
      | 0x04 => some .registers
      | 0x05 => some .pair
      | 0x06 => some .pair
      | 0x0F => some .pair
      | 0x10 => some .pair
      | 0x14 => some .fileData
      | 0x15 => some .fileWrites
      | 0x16 => some .maskWrite
      | 0x17 => some .registers
      | 0x18 => some .fifoValues
      | _ => none

/-- The payload length a layout's own length field calls for (the table of R134). A length byte
that is not there counts as 0. -/
def payloadLength (l : Layout) (p : List Byte) : Nat :=
  match l with
  | .pair => 4
  | .maskWrite => 6
  | .fifoPointer => 2
  | .coils => 1 + (p.getD 0 0).toNat
  | .registers => 1 + (p.getD 0 0).toNat
  | .writeCoils => 5 + (p.getD 4 0).toNat
  | .writeRegs => 5 + (p.getD 4 0).toNat
  | .readWrite => 9 + (p.getD 8 0).toNat
  | .fileRefs => 1 + (p.getD 0 0).toNat
  | .fileData => 1 + (p.getD 0 0).toNat
  | .fileWrites => 1 + (p.getD 0 0).toNat
  | .fifoValues => 2 + (rd16 p 0).toNat
  | .exception => 1

/-- The file references of R180, seven bytes each. -/
def unpackFileRefs : List Byte → List FileRef
  | ref :: f1 :: f0 :: r1 :: r0 :: n1 :: n0 :: rest =>
    ⟨ref, half f1 f0, half r1 r0, half n1 n0⟩ :: unpackFileRefs rest
  | _ => []

/-- The sub-responses of R181. `fuel` bounds the number of sub-responses; the number of bytes is
always enough. -/
def unpackFileData : (fuel : Nat) → List Byte → Except DecodeError (List FileData)
  | _, [] => .ok []
  | 0, _ :: _ => .error .badSubLength
  | fuel + 1, len :: rest =>
    if len.toNat % 2 = 0 ∨ rest.length < len.toNat then .error .badSubLength
    else
      match unpackFileData fuel (rest.drop len.toNat) with
      | .error e => .error e
      | .ok more => .ok (⟨rest.getD 0 0, halves ((rest.take len.toNat).drop 1)⟩ :: more)

/-- The sub-requests of R182; `fuel` as in `unpackFileData`. -/
def unpackFileWrites : (fuel : Nat) → List Byte → Except DecodeError (List FileWrite)
  | _, [] => .ok []
  | 0, _ :: _ => .error .badSubLength
  | fuel + 1, ref :: f1 :: f0 :: r1 :: r0 :: n1 :: n0 :: rest =>
    let size := 2 * (half n1 n0).toNat
    if rest.length < size then .error .badSubLength
    else
      match unpackFileWrites fuel (rest.drop size) with
      | .error e => .error e
      | .ok more => .ok (⟨ref, half f1 f0, half r1 r0, halves (rest.take size)⟩ :: more)
  | _ + 1, _ => .error .badSubLength

/-- A register list behind a byte count (R173, R178, R184): the count equals the bytes that follow
and is even. -/
def unpackRegisters (count : Byte) (rest : List Byte) : Except DecodeError (List Half) :=
  if rest.length ≠ count.toNat then .error .wrongLength
  else if count.toNat % 2 ≠ 0 then .error .oddByteCount
  else .ok (halves rest)

/-- A coil list behind a byte count (R171, R176). -/
def unpackCoils (count : Byte) (rest : List Byte) : Except DecodeError (List Bool) :=
  if rest.length ≠ count.toNat then .error .wrongLength else .ok (unpackBits rest)

/-- `unpack_fc` and `unpack_exc` (40_codec.md R161): a variant's Unpack, by layout. -/
def unpackPayload (l : Layout) (p : List Byte) : Except DecodeError Payload :=
  match l with
  | .pair =>
    match p with
    | [a1, a0, b1, b0] => .ok (.pair (half a1 a0) (half b1 b0))
    | _ => .error .wrongLength
  | .coils =>
    match p with
    | count :: rest => (unpackCoils count rest).map .coils
    | [] => .error .wrongLength
  | .registers =>
    match p with
    | count :: rest => (unpackRegisters count rest).map .registers
    | [] => .error .wrongLength
  | .writeCoils =>
    match p with
    | a1 :: a0 :: q1 :: q0 :: count :: rest =>
      (unpackCoils count rest).map (.writeCoils (half a1 a0) (half q1 q0))
    | _ => .error .wrongLength
  | .writeRegs =>
    match p with
    | a1 :: a0 :: q1 :: q0 :: count :: rest =>
      (unpackRegisters count rest).map (.writeRegs (half a1 a0) (half q1 q0))
    | _ => .error .wrongLength
  | .fileRefs =>
    match p with
    | count :: rest =>
      if rest.length ≠ count.toNat then .error .wrongLength
      else if count.toNat % 7 ≠ 0 then .error .raggedGroup
      else .ok (.fileRefs (unpackFileRefs rest))
    | [] => .error .wrongLength
  | .fileData =>
    match p with
    | count :: rest =>
      if rest.length ≠ count.toNat then .error .wrongLength
      else (unpackFileData rest.length rest).map .fileData
    | [] => .error .wrongLength
  | .fileWrites =>
    match p with
    | count :: rest =>
      if rest.length ≠ count.toNat then .error .wrongLength
      else (unpackFileWrites rest.length rest).map .fileWrites
    | [] => .error .wrongLength
  | .maskWrite =>
    match p with
    | [a1, a0, n1, n0, o1, o0] => .ok (.maskWrite (half a1 a0) (half n1 n0) (half o1 o0))
    | _ => .error .wrongLength
  | .readWrite =>
    match p with
    | r1 :: r0 :: m1 :: m0 :: w1 :: w0 :: q1 :: q0 :: count :: rest =>
      (unpackRegisters count rest).map
        (.readWrite (half r1 r0) (half m1 m0) (half w1 w0) (half q1 q0))
    | _ => .error .wrongLength
  | .fifoPointer =>
    match p with
    | [a1, a0] => .ok (.fifoPointer (half a1 a0))
    | _ => .error .wrongLength
  | .fifoValues =>
    match p with
    | b1 :: b0 :: c1 :: c0 :: rest =>
      if rest.length + 2 ≠ (half b1 b0).toNat then .error .wrongLength
      else if (half b1 b0).toNat ≠ 2 + 2 * (half c1 c0).toNat then .error .countMismatch
      else .ok (.fifoValues (halves rest))
    | _ => .error .wrongLength
  | .exception =>
    match p with
    | [code] => .ok (.exception code)
    | _ => .error .wrongLength

/-- `unpack` (40_codec.md R161) up to the descriptor words: the message of a PDU. -/
def unpackPdu (dir : Dir) (pdu : List Byte) : Except DecodeError Message :=
  match pdu with
  | [] => .error .emptyPdu
  | fc :: p =>
    match layoutOf dir fc with
    | none => .error .unsupportedCode
    | some l => (unpackPayload l p).map (Message.mk fc)

/-- The opcode-table row of a request (R131). -/
def requestRow (op : CodecOp) (m : Message) : Except DecodeError Instr :=
  match m.fc.toNat, m.body with
  | 0x01, .pair a b => .ok (.pduReq01 op a b)
  | 0x02, .pair a b => .ok (.pduReq02 op a b)
  | 0x03, .pair a b => .ok (.pduReq03 op a b)
  | 0x04, .pair a b => .ok (.pduReq04 op a b)
  | 0x05, .pair a b => .ok (.pduReq05 op a b)
  | 0x06, .pair a b => .ok (.pduReq06 op a b)
  | 0x0F, .writeCoils a q bits => .ok (.pduReq0F op a q bits)
  | 0x10, .writeRegs a q values => .ok (.pduReq10 op a q values)
  | 0x14, .fileRefs subs => .ok (.pduReq14 op subs)
  | 0x15, .fileWrites subs => .ok (.pduReq15 op subs)
  | 0x16, .maskWrite a n o => .ok (.pduReq16 op a n o)
  | 0x17, .readWrite r m w q values => .ok (.pduReq17 op r m w q values)
  | 0x18, .fifoPointer a => .ok (.pduReq18 op a)
  | _, _ => .error .unsupportedCode

/-- The opcode-table row of a response (R131). -/
def responseRow (op : CodecOp) (m : Message) : Except DecodeError Instr :=
  match m.fc.toNat, m.body with
  | 0x01, .coils bits => .ok (.pduRsp01 op bits)
  | 0x02, .coils bits => .ok (.pduRsp02 op bits)
  | 0x03, .registers values => .ok (.pduRsp03 op values)
  | 0x04, .registers values => .ok (.pduRsp04 op values)
  | 0x05, .pair a b => .ok (.pduRsp05 op a b)
  | 0x06, .pair a b => .ok (.pduRsp06 op a b)
  | 0x0F, .pair a b => .ok (.pduRsp0F op a b)
  | 0x10, .pair a b => .ok (.pduRsp10 op a b)
  | 0x14, .fileData subs => .ok (.pduRsp14 op subs)
  | 0x15, .fileWrites subs => .ok (.pduRsp15 op subs)
  | 0x16, .maskWrite a n o => .ok (.pduRsp16 op a n o)
  | 0x17, .registers values => .ok (.pduRsp17 op values)
  | 0x18, .fifoValues values => .ok (.pduRsp18 op values)
  | _, .exception code => .ok (.pduRspExc op (m.fc.extractLsb' 0 7) code)
  | _, _ => .error .unsupportedCode

/-- The opcode-table row of a message in a direction. -/
def rowOf (op : CodecOp) (dir : Dir) (m : Message) : Except DecodeError Instr :=
  match dir with
  | .request => requestRow op m
  | .response => responseRow op m

/-- The PDU decoder: bytes, with the codec operation and the direction that the command gives
(a PDU's bytes hold neither), to the row's instruction. -/
def decodePdu (op : CodecOp) (dir : Dir) (pdu : List Byte) : Except DecodeError Instr :=
  match unpackPdu dir pdu with
  | .error e => .error e
  | .ok m => rowOf op dir m

/-! ## The decoder -/

/-- Something a decoder of the block reads (30_encoding.md, introduction): a command word, or the
bytes of a PDU together with the DIR and the operation of the command that hands them to the codec. -/
inductive Code where
  | command (v : Word)
  | pdu (op : CodecOp) (dir : Dir) (bytes : List Byte)
deriving DecidableEq, Repr

/-- The decoder, total, rejecting by name. -/
def decode : Code → Except DecodeError Instr
  | .command v => decodeCommand v
  | .pdu op dir bytes => decodePdu op dir bytes

/-! ## The encoder -/

/-- The bytes of one file reference (R180). -/
def fileRefBytes (r : FileRef) : List Byte :=
  r.refType :: be16 r.file ++ be16 r.record ++ be16 r.length

/-- The bytes of one sub-response (R181). -/
def fileDataBytes (d : FileData) : List Byte :=
  countByte (1 + 2 * d.values.length) :: d.refType :: halfBytes d.values

/-- The bytes of one sub-request (R182). -/
def fileWriteBytes (d : FileWrite) : List Byte :=
  d.refType :: be16 d.file ++ be16 d.record ++ be16 (countHalf d.values.length)
    ++ halfBytes d.values

/-- A list of bytes behind its byte count. -/
def counted (bs : List Byte) : List Byte := countByte bs.length :: bs

/-- The bytes of a payload: the last step of a variant's Pack (40_codec.md R170-R187). -/
def packPayload : Payload → List Byte
  | .pair a b => be16 a ++ be16 b
  | .coils bits => counted (packBits bits)
  | .registers values => counted (halfBytes values)
  | .writeCoils a q bits => be16 a ++ be16 q ++ counted (packBits bits)
  | .writeRegs a q values => be16 a ++ be16 q ++ counted (halfBytes values)
  | .fileRefs subs => counted (subs.flatMap fileRefBytes)
  | .fileData subs => counted (subs.flatMap fileDataBytes)
  | .fileWrites subs => counted (subs.flatMap fileWriteBytes)
  | .maskWrite a n o => be16 a ++ be16 n ++ be16 o
  | .readWrite r m w q values =>
    be16 r ++ be16 m ++ be16 w ++ be16 q ++ counted (halfBytes values)
  | .fifoPointer a => be16 a
  | .fifoValues values =>
    be16 (countHalf (2 + 2 * values.length)) ++ be16 (countHalf values.length) ++ halfBytes values
  | .exception code => [code]

/-- The bytes of a message: function code, then payload (30_encoding.md R130). -/
def packMessage (m : Message) : List Byte := m.fc :: packPayload m.body

/-- The function-code byte of an exception response: bit 7 set (40_codec.md R187). -/
def exceptionCode (fc7 : BitVec 7) : Byte := 1#1 ++ fc7

/-- The code of a PDU row. -/
def pduCode (op : CodecOp) (dir : Dir) (fc : Byte) (body : Payload) : Code :=
  .pdu op dir (packMessage ⟨fc, body⟩)

/-- The encoder: the full words of R121, and the PDU bytes of each variant. -/
def encode : Instr → Code
  | .nop => .command 0x00000000
  | .crcInit => .command 0x00000001
  | .crcFeed b => .command (0x00000002 ||| (b.setWidth 32 <<< 8))
  | .lrcInit => .command 0x00000003
  | .lrcFeed b => .command (0x00000004 ||| (b.setWidth 32 <<< 8))
  | .encodeReq => .command 0x00000010
  | .encodeRsp => .command 0x00010010
  | .decodeReq => .command 0x00000011
  | .decodeRsp => .command 0x00010011
  | .txSend => .command 0x00000020
  | .rxEnable => .command 0x00000030
  | .rxDisable => .command 0x00000031
  | .rxRelease => .command 0x00000032
  | .resetSoft => .command 0x000000FF
  | .pduReq01 op a b => pduCode op .request 0x01 (.pair a b)
  | .pduRsp01 op bits => pduCode op .response 0x01 (.coils bits)
  | .pduReq02 op a b => pduCode op .request 0x02 (.pair a b)
  | .pduRsp02 op bits => pduCode op .response 0x02 (.coils bits)
  | .pduReq03 op a b => pduCode op .request 0x03 (.pair a b)
  | .pduRsp03 op values => pduCode op .response 0x03 (.registers values)
  | .pduReq04 op a b => pduCode op .request 0x04 (.pair a b)
  | .pduRsp04 op values => pduCode op .response 0x04 (.registers values)
  | .pduReq05 op a b => pduCode op .request 0x05 (.pair a b)
  | .pduRsp05 op a b => pduCode op .response 0x05 (.pair a b)
  | .pduReq06 op a b => pduCode op .request 0x06 (.pair a b)
  | .pduRsp06 op a b => pduCode op .response 0x06 (.pair a b)
  | .pduReq0F op a q bits => pduCode op .request 0x0F (.writeCoils a q bits)
  | .pduRsp0F op a b => pduCode op .response 0x0F (.pair a b)
  | .pduReq10 op a q values => pduCode op .request 0x10 (.writeRegs a q values)
  | .pduRsp10 op a b => pduCode op .response 0x10 (.pair a b)
  | .pduReq14 op subs => pduCode op .request 0x14 (.fileRefs subs)
  | .pduRsp14 op subs => pduCode op .response 0x14 (.fileData subs)
  | .pduReq15 op subs => pduCode op .request 0x15 (.fileWrites subs)
  | .pduRsp15 op subs => pduCode op .response 0x15 (.fileWrites subs)
  | .pduReq16 op a n o => pduCode op .request 0x16 (.maskWrite a n o)
  | .pduRsp16 op a n o => pduCode op .response 0x16 (.maskWrite a n o)
  | .pduReq17 op r m w q values => pduCode op .request 0x17 (.readWrite r m w q values)
  | .pduRsp17 op values => pduCode op .response 0x17 (.registers values)
  | .pduReq18 op a => pduCode op .request 0x18 (.fifoPointer a)
  | .pduRsp18 op values => pduCode op .response 0x18 (.fifoValues values)
  | .pduRspExc op fc7 code => pduCode op .response (exceptionCode fc7) (.exception code)

/-! ## The opcode table's numbering -/

/-- The PDU that begins with the bytes of `w`, byte 0 the least significant, followed by zero bytes,
cut at the length its layout calls for (R134). -/
def tablePdu (dir : Dir) (w : Nat) : List Byte :=
  let bytes := (List.range Config.pduMax).map fun k => BitVec.ofNat 8 (w >>> (8 * k))
  let fc := bytes.getD 0 0
  match layoutOf dir fc with
  | none => [fc]
  | some l => bytes.take (1 + payloadLength l (bytes.drop 1))

/-- The direction in which a table word is read as a PDU: a response if bit 7 of the function code
is set, else a request. A PDU's bytes do not hold their direction, so a function code that serves
both is read as the request (log 7). -/
def tableDir (w : Nat) : Dir := if w.testBit 7 then .response else .request

/-- What the decoder reads from an opcode-table word: 32 bits are a command word, any other number of
bits the first bytes of a PDU handed to DECODE. -/
def decodeTableWord (nbits w : Nat) : Option Instr :=
  let v := w % 2 ^ nbits
  if nbits = 32 then (decode (.command (BitVec.ofNat 32 v))).toOption
  else (decode (.pdu .unpack (tableDir v) (tablePdu (tableDir v) v))).toOption

end Sys2Proof
end

