-- ==== Sys2Proof/Machine/State.lean ====
section
/-! DEFINITION. The block's whole state (spec/10_state.md R64), the events that reach it
(spec/00_scope.md R17), the reasons a step can stop, and the state after a hardware reset
(spec/70_reset_and_hazards.md R410). -/

namespace Sys2Proof.Machine

/-- CFG.MODE (10_state.md R33): 0 RTU, 1 ASCII, 2 STREAM; the value 3 is never stored. -/
inductive Mode where
  | rtu
  | ascii
  | stream
deriving DecidableEq, Repr

/-- STATUS.ERR (60_exceptions.md R371): codes 0 to 7 in this order; 8 to 15 are never read. -/
inductive ErrCode where
  | ok
  | illegalCmd
  | busy
  | malformed
  | range
  | unsupportedFc
  | noFrame
  | locked
deriving DecidableEq, Repr

/-- The receiver state `rxs` (10_state.md R55). -/
inductive RxState where
  | disabled
  | idle
  | receiving
  | gotCr
  | error
deriving DecidableEq, Repr

/-- The transmitter state `txs` (10_state.md R60). -/
inductive TxState where
  /-- TX_IDLE. -/
  | idle
  /-- TX_WAIT(frame, t_cmd). -/
  | wait (frame : List Byte) (tCmd : Nat)
  /-- TX_SEND(frame, ts). -/
  | send (frame : List Byte) (ts : Nat)
deriving DecidableEq, Repr

/-- The causes for which a frame being received is discarded (42_framing.md R276,
60_exceptions.md R375). -/
inductive DiscardCause where
  /-- F1: RTU inter-character gap. -/
  | gap
  /-- F2: RTU overflow, a 257th byte. -/
  | overflow
  /-- F3: RTU frame of fewer than 4 bytes. -/
  | short
  /-- F4: ASCII non-hex character. -/
  | nonHex
  /-- F5: ASCII restart by ':'. -/
  | restart
  /-- F6: ASCII malformed frame. -/
  | badAscii
  /-- F7: STREAM length field out of range. -/
  | badLength
  /-- F8: CRC or LRC mismatch. -/
  | checksum
deriving DecidableEq, Repr

/-- The size of a host access (20_memory.md R92: only the 32-bit one is accepted). -/
inductive AccessSize where
  | byte
  | halfword
  | word
deriving DecidableEq, Repr

/-- What reaches the block from outside (00_scope.md R17). `off` is an offset into the aperture. -/
inductive Event where
  /-- `BusRead(off)`. -/
  | busRead (size : AccessSize) (off : Nat)
  /-- `BusWrite(off, v)`. -/
  | busWrite (size : AccessSize) (off : Nat) (v : Word)
  /-- `RxChar(b)`: a character whose end is at the current instant. -/
  | rxChar (b : Byte)
  /-- `RxEos`: the end of a byte stream. -/
  | rxEos
  /-- `Tick`: one microsecond passes. -/
  | tick
  /-- `Reset`: the hardware reset. -/
  | reset
deriving DecidableEq, Repr

/-- What the host's last access got back (00_scope.md R18, 20_memory.md R90-R92). -/
inductive HostResponse where
  /-- No access has been made yet. -/
  | none
  /-- The value of an accepted read. -/
  | data (v : Word)
  /-- An accepted write. -/
  | done
  /-- The bus-error response. -/
  | busError
  /-- The block did not respond, because the access was outside its aperture: "what the host sees is
  the platform's business" (20_memory.md R92; log 6). -/
  | noResponse
deriving DecidableEq, Repr

/-- The bytes of TXBUF, RXBUF and MSG that have been written since power-on, by bus offset, offsets
strictly rising. TXBUF[i] is the byte at 0x1000 + 4*i, RXBUF[i] the byte at 0x1400 + 4*i, MSG[i] the
four bytes from 0x4000 + 4*i, the least significant first (log 4). A byte that is not listed has not
been written since power-on and reads as the free value `Config.ramInit` (log 3). -/
abbrev Memory := List Host.Cell

/-- The complete state (R64), and after it the model's own four fields. -/
structure State where
  /-- CFG.MODE (R33). -/
  mode : Mode
  /-- CFG.CHARBITS (R33). -/
  charBits : BitVec 4
  /-- STATUS.RXVALID (R37). -/
  rxValid : Bool
  /-- STATUS.TXDONE (R37). -/
  txDone : Bool
  /-- STATUS.RXERR (R37). -/
  rxErr : Bool
  /-- STATUS.OVERRUN (R37). -/
  overrun : Bool
  /-- STATUS.RXTERR (R37). -/
  rxtErr : Bool
  /-- STATUS.ERR (R37, R371). -/
  err : ErrCode
  /-- IE (R38). -/
  ie : BitVec 6
  /-- BAUD (R39). -/
  baud : Word
  /-- TXDLY (R40). -/
  txDly : Word
  /-- TXUNIT (R41). -/
  txUnit : Byte
  /-- TXLEN (R42). -/
  txLen : BitVec 9
  /-- TXTID (R43). -/
  txTid : Half
  /-- RXUNIT (R44). -/
  rxUnit : Byte
  /-- RXLEN (R45). -/
  rxLen : BitVec 9
  /-- RXTID (R46). -/
  rxTid : Half
  /-- RXPID (R47). -/
  rxPid : Half
  /-- CNT_RXOK (R49). -/
  cntRxOk : Word
  /-- CNT_FRAMEERR (R49). -/
  cntFrameErr : Word
  /-- CNT_CRCERR (R49). -/
  cntCrcErr : Word
  /-- CNT_OVERRUN (R49). -/
  cntOverrun : Word
  /-- TXBUF, RXBUF and MSG (R50, R51, R52). -/
  mem : Memory
  /-- `rxs` (R55). -/
  rxs : RxState
  /-- `rx_asm` (R56). -/
  rxAsm : List Byte
  /-- `rx_nib` (R57): `none` is NONE, `some h` is HALF(h). -/
  rxNib : Option (BitVec 4)
  /-- `t_rx_last` (R58). -/
  tRxLast : Nat
  /-- `t_line` (R59). -/
  tLine : Nat
  /-- `txs` (R60). -/
  txs : TxState
  /-- `crc_acc` (R61). -/
  crcAcc : Half
  /-- `lrc_sum` (R61). -/
  lrcSum : Byte
  /-- `t` (R63). -/
  t : Nat
  /-- The model's own: which draw of RAM_INIT the RAMs hold (log 3). -/
  ramDraw : Nat
  /-- The model's own: the events to come, in the order in which they happen (log 1). -/
  inputs : List Event
  /-- The model's own: the characters emitted, each with the instant of its start, oldest first
  (R12 `emit`, R18; log 5). -/
  lineOut : List (Nat × Byte)
  /-- The model's own: the response to the last host access (log 5). -/
  hostResp : HostResponse
deriving DecidableEq, Repr

/-- Why a step stops with a fault: for no reason. The block has no traps (60_exceptions.md R370); each of
its errors leaves it going on (R371, R372, R375), and so does an access outside its aperture
(20_memory.md R92). -/
inductive Fault where
deriving DecidableEq, Repr

/-- Why a step has no meaning. -/
inductive Refusal where
  /-- Raised by exec's arm of an instruction that has no meaning yet. Safe. No arm does (NOTES.md). -/
  | notModelled (mnemonic : String)
deriving DecidableEq, Repr

/-- The state right after the hardware reset (R410): the RAMs hold RAM_INIT, nothing is scheduled. -/
def State.reset : State where
  mode := .rtu
  charBits := Config.charBitsReset
  rxValid := false
  txDone := false
  rxErr := false
  overrun := false
  rxtErr := false
  err := .ok
  ie := 0
  baud := Config.baudReset
  txDly := Config.txDlyReset
  txUnit := 0
  txLen := 0
  txTid := 0
  rxUnit := 0
  rxLen := 0
  rxTid := 0
  rxPid := 0
  cntRxOk := 0
  cntFrameErr := 0
  cntCrcErr := 0
  cntOverrun := 0
  mem := []
  rxs := .disabled
  rxAsm := []
  rxNib := none
  tRxLast := 0
  tLine := 0
  txs := .idle
  crcAcc := Config.crcSeed
  lrcSum := 0
  t := 0
  ramDraw := 0
  inputs := []
  lineOut := []
  hostResp := .none

end Sys2Proof.Machine
end

