-- ==== Sys2Proof/Machine/Ops.lean ====
section
/-! DEFINITION. The shared operations: the RAM bytes, the three RAMs' entries, the way a command or a
host access ends (the block's only "exceptions", spec/60_exceptions.md R370), character output, and the
hardware reset. -/

namespace Sys2Proof.Machine

/-- The outcome type of a meaning. -/
abbrev Result := Host.Outcome State Fault Refusal

/-! ## RAM bytes -/

/-- The byte written at an address since power-on, if there is one. -/
def Memory.lookup : Memory → Nat → Option Byte
  | [], _ => none
  | (k, v) :: rest, a => if a = k then some v else Memory.lookup rest a

/-- Write one byte, keeping the addresses strictly rising. -/
def Memory.store : Memory → Nat → Byte → Memory
  | [], a, v => [(a, v)]
  | (k, w) :: rest, a, v =>
    if a < k then (a, v) :: (k, w) :: rest
    else if a = k then (a, v) :: rest
    else (k, w) :: Memory.store rest a v

/-- Every address of the list lies above `a`. -/
def Memory.above (a : Nat) (m : Memory) : Bool := m.all fun c => decide (a < c.1)

/-- The canonical form: addresses strictly rising. (An unlisted byte has no value of its own to
compare with: it reads as the free value RAM_INIT, so every byte written stays listed; log 3.) -/
def Memory.wf : Memory → Bool
  | [] => true
  | c :: rest => Memory.above c.1 rest && Memory.wf rest

/-- What a byte that nothing has written since power-on reads as: RAM_INIT (10_state.md R50-R52). -/
def unwrittenByte (draw a : Nat) : Byte := Config.ramInit draw a

/-- Read one RAM byte. -/
def State.readByte (s : State) (a : Nat) : Byte :=
  match Memory.lookup s.mem a with
  | some v => v
  | none => unwrittenByte s.ramDraw a

/-! ## RAM entries -/

/-- The address of TXBUF[i] (10_state.md R50). -/
def txbufAddr (i : Nat) : Nat := 0x1000 + 4 * i

/-- The address of RXBUF[i] (10_state.md R51). -/
def rxbufAddr (i : Nat) : Nat := 0x1400 + 4 * i

/-- The address of the lowest byte of MSG[i] (10_state.md R52). -/
def msgAddr (i : Nat) : Nat := 0x4000 + 4 * i

/-- TXBUF[i]. -/
def State.txbuf (s : State) (i : Nat) : Byte := s.readByte (txbufAddr i)

/-- RXBUF[i]. -/
def State.rxbuf (s : State) (i : Nat) : Byte := s.readByte (rxbufAddr i)

/-- MSG[i], from its four bytes (log 4). -/
def State.msg (s : State) (i : Nat) : Word :=
  s.readByte (msgAddr i + 3) ++ s.readByte (msgAddr i + 2) ++ s.readByte (msgAddr i + 1)
    ++ s.readByte (msgAddr i)

/-- Write one byte entry of a RAM with `limit` entries. There is no entry past the last one (log 11). -/
def Memory.storeEntry (addr : Nat → Nat) (limit i : Nat) (b : Byte) (m : Memory) : Memory :=
  if i < limit then Memory.store m (addr i) b else m

/-- Write a list of bytes to the entries i, i+1, … of a RAM. -/
def Memory.fillEntries (addr : Nat → Nat) (limit i : Nat) (m : Memory) : List Byte → Memory
  | [] => m
  | b :: bs => Memory.fillEntries addr limit (i + 1) (Memory.storeEntry addr limit i b m) bs

/-- Write MSG[i], its four bytes least significant first (log 4). There is no word past the last one
(log 11). -/
def Memory.storeWord (i : Nat) (w : Word) (m : Memory) : Memory :=
  if i < Config.msgN then
    Memory.store
      (Memory.store
        (Memory.store (Memory.store m (msgAddr i) (w.extractLsb' 0 8)) (msgAddr i + 1)
          (w.extractLsb' 8 8))
        (msgAddr i + 2) (w.extractLsb' 16 8))
      (msgAddr i + 3) (w.extractLsb' 24 8)
  else m

/-- Write a list of words to MSG[i], MSG[i+1], … -/
def Memory.fillWords (i : Nat) (m : Memory) : List Word → Memory
  | [] => m
  | w :: ws => Memory.fillWords (i + 1) (Memory.storeWord i w m) ws

/-- `TXBUF[i] <- b` (10_state.md R50). -/
def State.setTxbuf (s : State) (i : Nat) (b : Byte) : State :=
  { s with mem := Memory.storeEntry txbufAddr Config.bufN i b s.mem }

/-- `MSG[i] <- w` (10_state.md R52). -/
def State.setMsg (s : State) (i : Nat) (w : Word) : State :=
  { s with mem := Memory.storeWord i w s.mem }

/-- Write a list of bytes to TXBUF[i], TXBUF[i+1], … -/
def State.fillTxbuf (s : State) (i : Nat) (bs : List Byte) : State :=
  { s with mem := Memory.fillEntries txbufAddr Config.bufN i s.mem bs }

/-- Write a list of bytes to RXBUF[i], RXBUF[i+1], … (10_state.md R51). -/
def State.fillRxbuf (s : State) (i : Nat) (bs : List Byte) : State :=
  { s with mem := Memory.fillEntries rxbufAddr Config.bufN i s.mem bs }

/-- Write a list of words to MSG[i], MSG[i+1], … -/
def State.fillMsg (s : State) (i : Nat) (ws : List Word) : State :=
  { s with mem := Memory.fillWords i s.mem ws }

/-! ## How a command or an access ends

The block has no traps: it saves nothing, changes no mode and transfers no control
(60_exceptions.md R386). These are the shared operations that take its "exceptions". -/

/-- `raise CmdError(code)` (00_scope.md R12): the command ends with `STATUS.ERR <- code` and no other
state change (43_control.md R345). -/
def raiseCmdError (code : ErrCode) (s : State) : State := { s with err := code }

/-- A command's success: `STATUS.ERR <- 0`. -/
def commandDone (s : State) : State := { s with err := .ok }

/-- `raise BusError` (00_scope.md R12): the access ends with a bus-error response and no state change
of the block (60_exceptions.md R372). -/
def raiseBusError (s : State) : State := { s with hostResp := .busError }

/-- The block does not respond to an access outside its aperture and goes on unchanged
(20_memory.md R92; log 6). -/
def noResponse (s : State) : State := { s with hostResp := .noResponse }

/-! ## Output and reset -/

/-- `emit TxChar(c)` (00_scope.md R12) for each character of a list, in order, at the current
instant. -/
def emitAll (cs : List Byte) (s : State) : State :=
  { s with lineOut := s.lineOut ++ cs.map fun c => (s.t, c) }

/-- The hardware `Reset` (70_reset_and_hazards.md R410, R411): one atomic event that gives every state
item its reset value; the RAMs hold a new draw of RAM_INIT. What lies outside the block stays: the
events to come, the characters already on the line, the host's last response (log 10). -/
def hardwareReset (s : State) : State :=
  { State.reset with
    ramDraw := s.ramDraw + 1
    inputs := s.inputs
    lineOut := s.lineOut
    hostResp := s.hostResp }

end Sys2Proof.Machine
end

