-- ==== Sys2Proof/Machine/Flags.lean ====
section
/-! DEFINITION. The STATUS flags, the interrupt level, the lock and the counters (spec/10_state.md R37,
R38, R49, R54; spec/60_exceptions.md R371, R385). -/

namespace Sys2Proof.Machine

/-- The code of CFG.MODE (10_state.md R33). -/
def Mode.code : Mode → BitVec 2
  | .rtu => 0
  | .ascii => 1
  | .stream => 2

/-- The mode a CFG.MODE field value selects; 3 is reserved (10_state.md R33). -/
def modeOfField (f : BitVec 2) : Option Mode :=
  match f.toNat with
  | 0 => some .rtu
  | 1 => some .ascii
  | 2 => some .stream
  | _ => none

/-- The code STATUS.ERR shows (60_exceptions.md R371). -/
def ErrCode.code : ErrCode → BitVec 4
  | .ok => 0
  | .illegalCmd => 1
  | .busy => 2
  | .malformed => 3
  | .range => 4
  | .unsupportedFc => 5
  | .noFrame => 6
  | .locked => 7

/-- STATUS.RXSTATE (10_state.md R55). -/
def RxState.code : RxState → BitVec 2
  | .disabled => 0
  | .idle => 1
  | .receiving => 2
  | .gotCr => 2
  | .error => 3

/-- STATUS.TXBUSY: 1 exactly when `txs != TX_IDLE` (10_state.md R60). -/
def State.txBusy (s : State) : Bool := s.txs != .idle

/-- STATUS[5:0], bit 0 least significant (10_state.md R37). -/
def State.statusLow (s : State) : BitVec 6 :=
  BitVec.ofBool s.rxtErr ++ BitVec.ofBool s.overrun ++ BitVec.ofBool s.rxErr
    ++ BitVec.ofBool s.txDone ++ BitVec.ofBool s.txBusy ++ BitVec.ofBool s.rxValid

/-- The STATUS register (10_state.md R37). -/
def State.statusWord (s : State) : Word := 0#20 ++ s.err.code ++ s.rxs.code ++ s.statusLow

/-- A host write to STATUS: each W1C bit i (2..5) with `v[i] = 1` clears, nothing else changes
(10_state.md R37). -/
def clearStatus (v : Word) (s : State) : State :=
  { s with
    txDone := s.txDone && !v.getLsbD 2
    rxErr := s.rxErr && !v.getLsbD 3
    overrun := s.overrun && !v.getLsbD 4
    rxtErr := s.rxtErr && !v.getLsbD 5 }

/-- The bits of IE that exist: 0, 2, 3, 4, 5 (10_state.md R38). -/
def ieMask : BitVec 6 := 0b111101

/-- IRQ (60_exceptions.md R385). -/
def State.irq (s : State) : Bool := (s.statusLow &&& s.ie &&& ieMask) != 0

/-- CFG, BAUD and TXDLY are locked (10_state.md R54). -/
def State.locked (s : State) : Bool := s.rxs != .disabled || s.txBusy

/-- A write to a lockable register (10_state.md R54): LOCKED and no change, else the write and
`ERR <- 0`. -/
def lockable (write : State → State) (s : State) : State :=
  if s.locked then raiseCmdError .locked s else commandDone (write s)

/-- The counter a discard cause increments (42_framing.md R277): CNT_CRCERR for F8, else
CNT_FRAMEERR; both count modulo 2^32 (10_state.md R49). -/
def countDiscard (cause : DiscardCause) (s : State) : State :=
  match cause with
  | .checksum => { s with cntCrcErr := s.cntCrcErr + 1 }
  | .gap => { s with cntFrameErr := s.cntFrameErr + 1 }
  | .overflow => { s with cntFrameErr := s.cntFrameErr + 1 }
  | .short => { s with cntFrameErr := s.cntFrameErr + 1 }
  | .nonHex => { s with cntFrameErr := s.cntFrameErr + 1 }
  | .restart => { s with cntFrameErr := s.cntFrameErr + 1 }
  | .badAscii => { s with cntFrameErr := s.cntFrameErr + 1 }
  | .badLength => { s with cntFrameErr := s.cntFrameErr + 1 }

/-- The STATUS.ERR code of a rejection (30_encoding.md R123, R135; 40_codec.md R161). -/
def decodeErrCode : DecodeError → ErrCode
  | .reservedBits => .illegalCmd
  | .reservedOp => .illegalCmd
  | .strayData => .illegalCmd
  | .strayDir => .illegalCmd
  | .unsupportedCode => .unsupportedFc
  | .emptyPdu => .malformed
  | .wrongLength => .malformed
  | .oddByteCount => .malformed
  | .raggedGroup => .malformed
  | .badSubLength => .malformed
  | .countMismatch => .malformed

end Sys2Proof.Machine
end

