-- ==== Sys2Proof/Machine/Operands.lean ====
section
/-! DEFINITION. The operand forms: what an offset of the aperture names (spec/10_state.md R31), and the
descriptor operands of ENCODE (spec/40_codec.md R160, R164, R170-R187). -/

namespace Sys2Proof.Machine

/-! ## The aperture -/

/-- The registers of the map (10_state.md R31). -/
inductive RegName where
  | id | cfg | status | ie | cmd | crc | lrc | baud | txdly | txunit | txlen | txtid
  | rxunit | rxlen | rxtid | rxpid | now | cntRxok | cntFrameerr | cntCrcerr | cntOverrun
deriving DecidableEq, Repr

/-- What an offset names (10_state.md R31). -/
inductive Target where
  | reg (r : RegName)
  | txbuf (i : Nat)
  | rxbuf (i : Nat)
  | msg (i : Nat)
  | reserved
deriving DecidableEq, Repr

/-- The register at an offset (10_state.md R31). -/
def registerAt (off : Nat) : Option RegName :=
  match off with
  | 0x000 => some .id
  | 0x004 => some .cfg
  | 0x008 => some .status
  | 0x00C => some .ie
  | 0x010 => some .cmd
  | 0x014 => some .crc
  | 0x018 => some .lrc
  | 0x01C => some .baud
  | 0x020 => some .txdly
  | 0x024 => some .txunit
  | 0x028 => some .txlen
  | 0x02C => some .txtid
  | 0x030 => some .rxunit
  | 0x034 => some .rxlen
  | 0x038 => some .rxtid
  | 0x03C => some .rxpid
  | 0x040 => some .now
  | 0x044 => some .cntRxok
  | 0x048 => some .cntFrameerr
  | 0x04C => some .cntCrcerr
  | 0x050 => some .cntOverrun
  | _ => none

/-- The offset of a register (10_state.md R31). -/
def RegName.offset : RegName → Nat
  | .id => 0x000
  | .cfg => 0x004
  | .status => 0x008
  | .ie => 0x00C
  | .cmd => 0x010
  | .crc => 0x014
  | .lrc => 0x018
  | .baud => 0x01C
  | .txdly => 0x020
  | .txunit => 0x024
  | .txlen => 0x028
  | .txtid => 0x02C
  | .rxunit => 0x030
  | .rxlen => 0x034
  | .rxtid => 0x038
  | .rxpid => 0x03C
  | .now => 0x040
  | .cntRxok => 0x044
  | .cntFrameerr => 0x048
  | .cntCrcerr => 0x04C
  | .cntOverrun => 0x050

/-- What a 4-byte aligned offset below 0x8000 names: a register, a RAM entry, or nothing
(10_state.md R31, R53). -/
def targetAt (off : Nat) : Target :=
  match registerAt off with
  | some r => .reg r
  | none =>
    if 0x1000 ≤ off ∧ off < 0x1400 then .txbuf ((off - 0x1000) / 4)
    else if 0x1400 ≤ off ∧ off < 0x1800 then .rxbuf ((off - 0x1400) / 4)
    else if 0x4000 ≤ off ∧ off < 0x6000 then .msg ((off - 0x4000) / 4)
    else .reserved

/-! ## Descriptor operands

A descriptor is read as a function of the word's index: `m k` is `MSG[k]`, `F(k)` is `m k` and `EL(i)` is
`m (8 + i)` (40_codec.md, introduction). -/

/-- `chk16` (40_codec.md R164). -/
def chk16 (w : Word) : Except ErrCode Half :=
  if w.toNat < 0x10000 then .ok (w.setWidth 16) else .error .range

/-- `chk8` (40_codec.md R164). -/
def chk8 (w : Word) : Except ErrCode Byte :=
  if w.toNat < 0x100 then .ok (w.setWidth 8) else .error .range

/-- `chk1` (40_codec.md R164). -/
def chk1 (w : Word) : Except ErrCode Bool :=
  if w.toNat < 2 then .ok (w.getLsbD 0) else .error .range

/-- `EL(i)` (30_encoding.md R140). -/
def element (m : Nat → Word) (i : Nat) : Word := m (Config.e0 + i)

/-- `chk16` on EL(i), …, EL(i+n-1). -/
def readHalves (m : Nat → Word) (i : Nat) : (n : Nat) → Except ErrCode (List Half)
  | 0 => .ok []
  | n + 1 => do
    let v ← chk16 (element m i)
    let vs ← readHalves m (i + 1) n
    return v :: vs

/-- `chk1` on EL(i), …, EL(i+n-1). -/
def readBits (m : Nat → Word) (i : Nat) : (n : Nat) → Except ErrCode (List Bool)
  | 0 => .ok []
  | n + 1 => do
    let v ← chk1 (element m i)
    let vs ← readBits m (i + 1) n
    return v :: vs

/-- `ceil(n/8)`: the bytes that n bits pack into (30_encoding.md R133). -/
def bitBytes (n : Nat) : Nat := (n + 7) / 8

/-- The padding of R133: 0 bits up to a whole byte. -/
def padBits (bits : List Bool) : List Bool :=
  bits ++ List.replicate (8 * bitBytes bits.length - bits.length) false

/-- RANGE unless a limit check holds. -/
def limit (fits : Bool) : Except ErrCode Unit := if fits then .ok () else .error .range

/-- The sub-requests of R180: EL(4j) to EL(4j+3) from element i on. -/
def readFileRefs (m : Nat → Word) (i : Nat) : (n : Nat) → Except ErrCode (List FileRef)
  | 0 => .ok []
  | n + 1 => do
    let ref ← chk8 (element m i)
    let file ← chk16 (element m (i + 1))
    let record ← chk16 (element m (i + 2))
    let length ← chk16 (element m (i + 3))
    let more ← readFileRefs m (i + 4) n
    return ⟨ref, file, record, length⟩ :: more

/-- The sub-responses of R181 from cursor c on. -/
def readFileData (m : Nat → Word) (c : Nat) : (n : Nat) → Except ErrCode (List FileData)
  | 0 => .ok []
  | n + 1 => do
    limit (decide (c + 2 ≤ Config.elements))
    let count ← chk16 (element m c)
    let ref ← chk8 (element m (c + 1))
    limit (decide (1 + 2 * count.toNat ≤ 255) && decide (c + 2 + count.toNat ≤ Config.elements))
    let values ← readHalves m (c + 2) count.toNat
    let more ← readFileData m (c + 2 + count.toNat) n
    return ⟨ref, values⟩ :: more

/-- The sub-requests of R182 from cursor c on. -/
def readFileWrites (m : Nat → Word) (c : Nat) : (n : Nat) → Except ErrCode (List FileWrite)
  | 0 => .ok []
  | n + 1 => do
    limit (decide (c + 4 ≤ Config.elements))
    let ref ← chk8 (element m c)
    let file ← chk16 (element m (c + 1))
    let record ← chk16 (element m (c + 2))
    let count ← chk16 (element m (c + 3))
    limit (decide (c + 4 + count.toNat ≤ Config.elements))
    let values ← readHalves m (c + 4) count.toNat
    let more ← readFileWrites m (c + 4 + count.toNat) n
    return ⟨ref, file, record, values⟩ :: more

/-- The checks and reads of a variant's Pack (40_codec.md R170-R187), by layout, in the order in which
its rule writes them. -/
def readPayload (m : Nat → Word) : Layout → Except ErrCode Payload
  | .pair => do
    let a ← chk16 (m 1)
    let b ← chk16 (m 2)
    return .pair a b
  | .coils => do
    let n ← chk16 (m 1)
    limit (decide (1 + bitBytes n.toNat ≤ Config.payloadMax))
    let bits ← readBits m 0 n.toNat
    return .coils (padBits bits)
  | .registers => do
    let n ← chk16 (m 1)
    limit (decide (2 * n.toNat ≤ 255) && decide (1 + 2 * n.toNat ≤ Config.payloadMax))
    let values ← readHalves m 0 n.toNat
    return .registers values
  | .writeCoils => do
    let a ← chk16 (m 1)
    let q ← chk16 (m 2)
    limit (decide (5 + bitBytes q.toNat ≤ Config.payloadMax))
    let bits ← readBits m 0 q.toNat
    return .writeCoils a q (padBits bits)
  | .writeRegs => do
    let a ← chk16 (m 1)
    let q ← chk16 (m 2)
    limit (decide (5 + 2 * q.toNat ≤ Config.payloadMax))
    let values ← readHalves m 0 q.toNat
    return .writeRegs a q values
  | .fileRefs => do
    let n ← chk16 (m 1)
    limit (decide (1 + 7 * n.toNat ≤ Config.payloadMax))
    let subs ← readFileRefs m 0 n.toNat
    return .fileRefs subs
  | .fileData => do
    let n ← chk16 (m 1)
    let subs ← readFileData m 0 n.toNat
    limit (decide (1 + fileDataSize subs ≤ Config.payloadMax))
    return .fileData subs
  | .fileWrites => do
    let n ← chk16 (m 1)
    let subs ← readFileWrites m 0 n.toNat
    limit (decide (1 + fileWriteSize subs ≤ Config.payloadMax))
    return .fileWrites subs
  | .maskWrite => do
    let a ← chk16 (m 1)
    let n ← chk16 (m 2)
    let o ← chk16 (m 3)
    return .maskWrite a n o
  | .readWrite => do
    let r ← chk16 (m 1)
    let k ← chk16 (m 2)
    let w ← chk16 (m 3)
    let q ← chk16 (m 4)
    limit (decide (9 + 2 * q.toNat ≤ Config.payloadMax))
    let values ← readHalves m 0 q.toNat
    return .readWrite r k w q values
  | .fifoPointer => do
    let a ← chk16 (m 1)
    return .fifoPointer a
  | .fifoValues => do
    let n ← chk16 (m 1)
    limit (decide (4 + 2 * n.toNat ≤ Config.payloadMax))
    let values ← readHalves m 0 n.toNat
    return .fifoValues values
  | .exception => do
    let code ← chk8 (m 1)
    return .exception code

/-- `pack` (40_codec.md R160) up to the bytes: the message a descriptor describes. The checks come in
the rule's order: header bits 31:8, the function code, the variant's own, the payload limit. -/
def readDescriptor (dir : Dir) (m : Nat → Word) : Except ErrCode Message :=
  if (m 0).toNat ≥ 0x100 then .error .range
  else
    let fc := (m 0).setWidth 8
    match layoutOf dir fc with
    | none => .error .unsupportedFc
    | some l =>
      match readPayload m l with
      | .error e => .error e
      | .ok p =>
        if (packPayload p).length > Config.payloadMax then .error .range else .ok ⟨fc, p⟩

/-- The fixed fields F1, F2, … of a message's descriptor, in order (40_codec.md R170-R187): what
Unpack writes to MSG[1], MSG[2], …, the "out" byte counts (R165) among them. -/
def payloadFields : Payload → List Word
  | .pair a b => [a.setWidth 32, b.setWidth 32]
  | .coils bits => [BitVec.ofNat 32 bits.length]
  | .registers values => [BitVec.ofNat 32 values.length]
  | .writeCoils a q bits => [a.setWidth 32, q.setWidth 32, BitVec.ofNat 32 (bits.length / 8)]
  | .writeRegs a q values => [a.setWidth 32, q.setWidth 32, BitVec.ofNat 32 (2 * values.length)]
  | .fileRefs subs => [BitVec.ofNat 32 subs.length]
  | .fileData subs => [BitVec.ofNat 32 subs.length]
  | .fileWrites subs => [BitVec.ofNat 32 subs.length]
  | .maskWrite a n o => [a.setWidth 32, n.setWidth 32, o.setWidth 32]
  | .readWrite r k w q values =>
    [r.setWidth 32, k.setWidth 32, w.setWidth 32, q.setWidth 32,
      BitVec.ofNat 32 (2 * values.length)]
  | .fifoPointer a => [a.setWidth 32]
  | .fifoValues values => [BitVec.ofNat 32 values.length]
  | .exception code => [code.setWidth 32]

/-- A 16-bit value list as element words. -/
def halfWords (values : List Half) : List Word := values.map fun v => v.setWidth 32

/-- A bit list as element words. -/
def bitWords (bits : List Bool) : List Word := bits.map fun b => (BitVec.ofBool b).setWidth 32

/-- The element words EL(0), EL(1), … of a message's descriptor (40_codec.md R170-R187). -/
def payloadElements : Payload → List Word
  | .pair _ _ => []
  | .coils bits => bitWords bits
  | .registers values => halfWords values
  | .writeCoils _ _ bits => bitWords bits
  | .writeRegs _ _ values => halfWords values
  | .fileRefs subs => subs.flatMap fun r =>
      [r.refType.setWidth 32, r.file.setWidth 32, r.record.setWidth 32, r.length.setWidth 32]
  | .fileData subs => subs.flatMap fun d =>
      BitVec.ofNat 32 d.values.length :: d.refType.setWidth 32 :: halfWords d.values
  | .fileWrites subs => subs.flatMap fun d =>
      d.refType.setWidth 32 :: d.file.setWidth 32 :: d.record.setWidth 32
        :: BitVec.ofNat 32 d.values.length :: halfWords d.values
  | .maskWrite _ _ _ => []
  | .readWrite _ _ _ _ values => halfWords values
  | .fifoPointer _ => []
  | .fifoValues values => halfWords values
  | .exception _ => []

end Sys2Proof.Machine
end

