-- ==== Sys2Proof/Machine/Checksum.lean ====
section
/-! DEFINITION. The checksum generator (spec/41_checksum.md): the CRC16 and LRC functions and the four
accumulator commands. -/

namespace Sys2Proof.Machine

/-- One shift of the CRC register (41_checksum.md R241). -/
def crcShift (c : Half) : Half :=
  if c.getLsbD 0 then (c >>> 1) ^^^ Config.crcPoly else c >>> 1

/-- n shifts of the CRC register. -/
def crcShifts : Nat → Half → Half
  | 0, c => c
  | n + 1, c => crcShifts n (crcShift c)

/-- `crc16_step` (41_checksum.md R241). -/
def crcStep (c : Half) (b : Byte) : Half := crcShifts 8 (c ^^^ b.setWidth 16)

/-- `crc16` (41_checksum.md R241). -/
def crc16 (xs : List Byte) : Half := xs.foldl crcStep Config.crcSeed

/-- The sum of a list of bytes, modulo 256 (41_checksum.md R246). -/
def byteSum (xs : List Byte) : Byte := xs.foldl (· + ·) 0

/-- The two's complement of a sum: `(256 - s) mod 256` (41_checksum.md R246). -/
def lrcOfSum (s : Byte) : Byte := 0 - s

/-- `lrc` (41_checksum.md R246). -/
def lrc (xs : List Byte) : Byte := lrcOfSum (byteSum xs)

/-- `crc_ok` (41_checksum.md R242): the last two bytes, low byte first, are the CRC of the others. -/
def crcOk (fr : List Byte) : Bool :=
  crc16 (fr.take (fr.length - 2)) == half (fr.getD (fr.length - 1) 0) (fr.getD (fr.length - 2) 0)

/-- `lrc_ok` (41_checksum.md R248): the last byte is the LRC of the others. -/
def lrcOk (fr : List Byte) : Bool :=
  lrc (fr.take (fr.length - 1)) == fr.getD (fr.length - 1) 0

/-- CRC.INIT (R250). -/
def execCrcInit (s : State) : Result := .next (commandDone { s with crcAcc := Config.crcSeed })

/-- CRC.FEED b (R251). -/
def execCrcFeed (b : Byte) (s : State) : Result :=
  .next (commandDone { s with crcAcc := crcStep s.crcAcc b })

/-- LRC.INIT (R252). -/
def execLrcInit (s : State) : Result := .next (commandDone { s with lrcSum := 0 })

/-- LRC.FEED b (R253). -/
def execLrcFeed (b : Byte) (s : State) : Result :=
  .next (commandDone { s with lrcSum := s.lrcSum + b })

end Sys2Proof.Machine
end

