-- ==== Sys2Proof/Machine/Codec.lean ====
section
/-! DEFINITION. The PDU codec (spec/40_codec.md): ENCODE, DECODE and the PDU variants they run.

A PDU row is run by one of the two codec operations. With `pack` (inside ENCODE) its effect is the
message's bytes in TXBUF and their number in TXLEN (R162); with `unpack` (inside DECODE) it is the message's
descriptor words in MSG (R163). Both end with `STATUS.ERR <- 0`. The width and length checks of a variant's
Pack stand in `readPayload`, those of its Unpack in `unpackPayload`; a row's instruction exists only when
they have passed (log 7). -/

namespace Sys2Proof.Machine

/-- The end of ENCODE (R162): the PDU into TXBUF, its length into TXLEN. -/
def storePdu (m : Message) (s : State) : State :=
  let pdu := packMessage m
  commandDone { s.fillTxbuf 0 pdu with txLen := BitVec.ofNat 9 pdu.length }

/-- The end of DECODE (R161, R163): MSG[0] takes the function code, MSG[1] on the fixed fields, MSG[8] on
the elements; no other word of MSG changes. -/
def storeDescriptor (m : Message) (s : State) : State :=
  commandDone
    (((s.setMsg 0 (m.fc.setWidth 32)).fillMsg 1 (payloadFields m.body)).fillMsg Config.e0
      (payloadElements m.body))

/-- Run a message's PDU row. -/
def runMessage (op : CodecOp) (m : Message) (s : State) : State :=
  match op with
  | .pack => storePdu m s
  | .unpack => storeDescriptor m s

/-- The PDU of the last frame delivered: RXBUF[0..RXLEN] (R163). -/
def State.rxPdu (s : State) : List Byte := (List.range s.rxLen.toNat).map s.rxbuf

/-- ENCODE (R162): all or nothing. -/
def runEncode (dir : Dir) (s : State) : State :=
  match readDescriptor dir s.msg with
  | .error code => raiseCmdError code s
  | .ok m => runMessage .pack m s

/-- DECODE (R163): all or nothing; RXVALID is checked first and not changed. -/
def runDecode (dir : Dir) (s : State) : State :=
  if s.rxValid then
    match unpackPdu dir s.rxPdu with
    | .error e => raiseCmdError (decodeErrCode e) s
    | .ok m => runMessage .unpack m s
  else raiseCmdError .noFrame s

/-- ENCODE.REQ (R162). -/
def execEncodeReq (s : State) : Result := .next (runEncode .request s)

/-- ENCODE.RSP (R162). -/
def execEncodeRsp (s : State) : Result := .next (runEncode .response s)

/-- DECODE.REQ (R163). -/
def execDecodeReq (s : State) : Result := .next (runDecode .request s)

/-- DECODE.RSP (R163). -/
def execDecodeRsp (s : State) : Result := .next (runDecode .response s)

/-- Read Coils, request (R170). -/
def execPduReq01 (op : CodecOp) (start quantity : Half) (s : State) : Result :=
  .next (runMessage op ⟨0x01, .pair start quantity⟩ s)

/-- Read Coils, response (R171). -/
def execPduRsp01 (op : CodecOp) (bits : List Bool) (s : State) : Result :=
  .next (runMessage op ⟨0x01, .coils bits⟩ s)

/-- Read Discrete Inputs, request (R170). -/
def execPduReq02 (op : CodecOp) (start quantity : Half) (s : State) : Result :=
  .next (runMessage op ⟨0x02, .pair start quantity⟩ s)

/-- Read Discrete Inputs, response (R171). -/
def execPduRsp02 (op : CodecOp) (bits : List Bool) (s : State) : Result :=
  .next (runMessage op ⟨0x02, .coils bits⟩ s)

/-- Read Holding Registers, request (R172). -/
def execPduReq03 (op : CodecOp) (start quantity : Half) (s : State) : Result :=
  .next (runMessage op ⟨0x03, .pair start quantity⟩ s)

/-- Read Holding Registers, response (R173). -/
def execPduRsp03 (op : CodecOp) (values : List Half) (s : State) : Result :=
  .next (runMessage op ⟨0x03, .registers values⟩ s)

/-- Read Input Registers, request (R172). -/
def execPduReq04 (op : CodecOp) (start quantity : Half) (s : State) : Result :=
  .next (runMessage op ⟨0x04, .pair start quantity⟩ s)

/-- Read Input Registers, response (R173). -/
def execPduRsp04 (op : CodecOp) (values : List Half) (s : State) : Result :=
  .next (runMessage op ⟨0x04, .registers values⟩ s)

/-- Write Single Coil, request (R174). -/
def execPduReq05 (op : CodecOp) (address value : Half) (s : State) : Result :=
  .next (runMessage op ⟨0x05, .pair address value⟩ s)

/-- Write Single Coil, response (R174). -/
def execPduRsp05 (op : CodecOp) (address value : Half) (s : State) : Result :=
  .next (runMessage op ⟨0x05, .pair address value⟩ s)

/-- Write Single Register, request (R175). -/
def execPduReq06 (op : CodecOp) (address value : Half) (s : State) : Result :=
  .next (runMessage op ⟨0x06, .pair address value⟩ s)

/-- Write Single Register, response (R175). -/
def execPduRsp06 (op : CodecOp) (address value : Half) (s : State) : Result :=
  .next (runMessage op ⟨0x06, .pair address value⟩ s)

/-- Write Multiple Coils, request (R176). -/
def execPduReq0F (op : CodecOp)
    (start quantity : Half) (bits : List Bool)
    (s : State) : Result :=
  .next (runMessage op ⟨0x0F, .writeCoils start quantity bits⟩ s)

/-- Write Multiple Coils, response (R177). -/
def execPduRsp0F (op : CodecOp) (start quantity : Half) (s : State) : Result :=
  .next (runMessage op ⟨0x0F, .pair start quantity⟩ s)

/-- Write Multiple Registers, request (R178). -/
def execPduReq10 (op : CodecOp)
    (start quantity : Half) (values : List Half)
    (s : State) : Result :=
  .next (runMessage op ⟨0x10, .writeRegs start quantity values⟩ s)

/-- Write Multiple Registers, response (R179). -/
def execPduRsp10 (op : CodecOp) (start quantity : Half) (s : State) : Result :=
  .next (runMessage op ⟨0x10, .pair start quantity⟩ s)

/-- Read File Record, request (R180). -/
def execPduReq14 (op : CodecOp) (subs : List FileRef) (s : State) : Result :=
  .next (runMessage op ⟨0x14, .fileRefs subs⟩ s)

/-- Read File Record, response (R181). -/
def execPduRsp14 (op : CodecOp) (subs : List FileData) (s : State) : Result :=
  .next (runMessage op ⟨0x14, .fileData subs⟩ s)

/-- Write File Record, request (R182). -/
def execPduReq15 (op : CodecOp) (subs : List FileWrite) (s : State) : Result :=
  .next (runMessage op ⟨0x15, .fileWrites subs⟩ s)

/-- Write File Record, response (R182). -/
def execPduRsp15 (op : CodecOp) (subs : List FileWrite) (s : State) : Result :=
  .next (runMessage op ⟨0x15, .fileWrites subs⟩ s)

/-- Mask Write Register, request (R183). -/
def execPduReq16 (op : CodecOp) (address andMask orMask : Half) (s : State) : Result :=
  .next (runMessage op ⟨0x16, .maskWrite address andMask orMask⟩ s)

/-- Mask Write Register, response (R183). -/
def execPduRsp16 (op : CodecOp) (address andMask orMask : Half) (s : State) : Result :=
  .next (runMessage op ⟨0x16, .maskWrite address andMask orMask⟩ s)

/-- Read/Write Multiple Registers, request (R184). -/
def execPduReq17 (op : CodecOp)
    (readStart readQuantity writeStart writeQuantity : Half) (values : List Half)
    (s : State) : Result :=
  .next (runMessage op ⟨0x17, .readWrite readStart readQuantity writeStart writeQuantity values⟩ s)

/-- Read/Write Multiple Registers, response (R173). -/
def execPduRsp17 (op : CodecOp) (values : List Half) (s : State) : Result :=
  .next (runMessage op ⟨0x17, .registers values⟩ s)

/-- Read FIFO Queue, request (R185). -/
def execPduReq18 (op : CodecOp) (address : Half) (s : State) : Result :=
  .next (runMessage op ⟨0x18, .fifoPointer address⟩ s)

/-- Read FIFO Queue, response (R186). -/
def execPduRsp18 (op : CodecOp) (values : List Half) (s : State) : Result :=
  .next (runMessage op ⟨0x18, .fifoValues values⟩ s)

/-- Exception response (R187, R188). -/
def execPduRspExc (op : CodecOp) (fc7 : BitVec 7) (code : Byte) (s : State) : Result :=
  .next (runMessage op ⟨exceptionCode fc7, .exception code⟩ s)

end Sys2Proof.Machine
end

