-- ==== Sys2Proof/Machine/Control.lean ====
section
/-! DEFINITION. The control commands (spec/43_control.md). -/

namespace Sys2Proof.Machine

/-- NOP (R340). -/
def execNop (s : State) : Result := .next (commandDone s)

/-- RX.ENABLE (R341): in RTU mode the receiver starts in ERROR and waits for silence. -/
def execRxEnable (s : State) : Result :=
  .next <| commandDone <|
    if s.rxs = .disabled then
      match s.mode with
      | .rtu => { s with rxAsm := [], rxNib := none, rxs := .error, tRxLast := s.t }
      | .ascii => { s with rxAsm := [], rxNib := none, rxs := .idle }
      | .stream => { s with rxAsm := [], rxNib := none, rxs := .idle }
    else s

/-- RX.DISABLE (R343). -/
def execRxDisable (s : State) : Result :=
  .next (commandDone { s with rxAsm := [], rxNib := none, rxs := .disabled })

/-- RX.RELEASE (R342). -/
def execRxRelease (s : State) : Result := .next (commandDone { s with rxValid := false })

/-- RESET.SOFT (R344): every register and internal item takes its reset value, but TXBUF, RXBUF, MSG and
`t` are kept, and `t_line` and `t_rx_last` take the current instant. -/
def execResetSoft (s : State) : Result :=
  .next
    { State.reset with
      mem := s.mem
      ramDraw := s.ramDraw
      t := s.t
      tLine := s.t
      tRxLast := s.t
      inputs := s.inputs
      lineOut := s.lineOut
      hostResp := s.hostResp }

end Sys2Proof.Machine
end

