-- ==== Sys2Proof/Machine/Framing.lean ====
section
/-! DEFINITION. Frames (spec/42_framing.md): character codes, frame building, line timing, and the steps
the three receivers share. -/

namespace Sys2Proof.Machine

/-! ## Characters -/

/-- ':' (30_encoding.md R136). -/
def colonChar : Byte := 0x3A

/-- CR (30_encoding.md R136). -/
def crChar : Byte := 0x0D

/-- LF (30_encoding.md R136). -/
def lfChar : Byte := 0x0A

/-- `HEX(v)` (42_framing.md R272). -/
def hexChar (v : BitVec 4) : Byte :=
  if v.toNat ≤ 9 then 0x30 + v.setWidth 8 else 0x37 + v.setWidth 8

/-- `hex2(b)` (42_framing.md R272): high nibble first. -/
def hex2 (b : Byte) : List Byte := [hexChar (b.extractLsb' 4 4), hexChar (b.extractLsb' 0 4)]

/-- `HEXVAL(c)`, `none` for a character that is not an upper-case hex digit (42_framing.md R272). -/
def hexVal (c : Byte) : Option (BitVec 4) :=
  if 0x30 ≤ c.toNat ∧ c.toNat ≤ 0x39 then some ((c - 0x30).setWidth 4)
  else if 0x41 ≤ c.toNat ∧ c.toNat ≤ 0x46 then some ((c - 0x37).setWidth 4)
  else none

/-! ## Frame building -/

/-- `body` (42_framing.md R271): the unit id and TXBUF[0..TXLEN]. -/
def State.txBody (s : State) : List Byte := s.txUnit :: (List.range s.txLen.toNat).map s.txbuf

/-- `frame_rtu` of a body (R271). -/
def rtuFrame (body : List Byte) : List Byte := body ++ le16 (crc16 body)

/-- `frame_ascii` of a body (R273). -/
def asciiFrame (body : List Byte) : List Byte :=
  colonChar :: (body.flatMap hex2 ++ hex2 (lrc body) ++ [crChar, lfChar])

/-- `frame_stream` of a body (R274): transaction id, protocol id 0, the length of the body (TXLEN + 1),
the body. -/
def streamFrame (tid : Half) (body : List Byte) : List Byte :=
  be16 tid ++ be16 0 ++ be16 (countHalf body.length) ++ body

/-- `frame()` (R275). -/
def State.frame (s : State) : List Byte :=
  match s.mode with
  | .rtu => rtuFrame s.txBody
  | .ascii => asciiFrame s.txBody
  | .stream => streamFrame s.txTid s.txBody

/-! ## Line timing -/

/-- `K = CHARBITS * 10^6` (00_scope.md R13). -/
def State.charK (s : State) : Nat := 1000000 * s.charBits.toNat

/-- `gap_ok(d)` (42_framing.md R281). -/
def State.gapOk (s : State) (d : Nat) : Bool := decide (2 * d * s.baud.toNat ≤ 5 * s.charK)

/-- `gap_eof(d)` (42_framing.md R281), also the time check's condition (R282). -/
def State.gapEof (s : State) (d : Nat) : Bool := decide (2 * d * s.baud.toNat ≥ 9 * s.charK)

/-- `gap_err(d)` (42_framing.md R281). -/
def State.gapErr (s : State) (d : Nat) : Bool :=
  decide (5 * s.charK < 2 * d * s.baud.toNat) && decide (2 * d * s.baud.toNat < 9 * s.charK)

/-- `ceil(a/b)` (00_scope.md R10); b is BAUD, never 0 (log 12). -/
def ceilDiv (a b : Nat) : Nat := (a + b - 1) / b

/-- `ceil(k*K/BAUD)`: how long after the first character's start character k starts (R300). -/
def State.charStart (s : State) (k : Nat) : Nat := ceilDiv (k * s.charK) s.baud.toNat

/-! ## Common receive steps -/

/-- Empty the assembly buffer and the nibble state (10_state.md R56, R57). -/
def dropPartial (s : State) : State := { s with rxAsm := [], rxNib := none }

/-- `discard(cause)` (42_framing.md R277). -/
def discardFrame (cause : DiscardCause) (s : State) : State :=
  { countDiscard cause (dropPartial s) with rxErr := true }

/-- `deliver(unit, pdu, tid, pid)` (42_framing.md R290): one atomic step. -/
def deliver (unit : Byte) (pdu : List Byte) (tid pid : Half) (s : State) : State :=
  if s.rxValid then dropPartial { s with overrun := true, cntOverrun := s.cntOverrun + 1 }
  else
    dropPartial
      { s.fillRxbuf 0 pdu with
        rxUnit := unit
        rxLen := BitVec.ofNat 9 pdu.length
        rxTid := tid
        rxPid := pid
        rxValid := true
        cntRxOk := s.cntRxOk + 1 }

end Sys2Proof.Machine
end

