-- ==== Sys2Proof/Machine/Transmitter.lean ====
section
/-! DEFINITION. TX.SEND and the transmitter (spec/42_framing.md R299-R302). -/

namespace Sys2Proof.Machine

/-- The start condition of a waiting transmission (R300): the turnaround delay, and in RTU mode the
3.5 character times of silence. -/
def State.mayStart (s : State) : Bool :=
  decide (s.txDly.toNat ≤ s.t - s.tLine)
    && (s.mode != .rtu || decide (7 * s.charK ≤ 2 * (s.t - s.tLine) * s.baud.toNat))

/-- The first half of `tx_step()` (R300): a waiting transmission starts. -/
def txStart (s : State) : State :=
  match s.txs with
  | .idle => s
  | .wait f _ => if s.mayStart then { s with txs := .send f s.t } else s
  | .send _ _ => s

/-- The characters of a frame, from character k on, that start at the current instant (R300). -/
def State.dueFrom (s : State) (ts : Nat) : (k : Nat) → List Byte → List Byte
  | _, [] => []
  | k, c :: cs =>
    if ts + s.charStart k = s.t then c :: s.dueFrom ts (k + 1) cs else s.dueFrom ts (k + 1) cs

/-- The second half of `tx_step()` (R300): the characters due now start, and the transmission ends one
character time after the start of its last character. -/
def txSendStep (s : State) : State :=
  match s.txs with
  | .idle => s
  | .wait _ _ => s
  | .send f ts =>
    let s1 := emitAll (s.dueFrom ts 0 f) s
    if s.t = ts + s.charStart f.length then
      { s1 with txs := .idle, txDone := true, tLine := s.t }
    else s1

/-- `tx_step()` (R300). -/
def txStep (s : State) : State := txSendStep (txStart s)

/-- TX.SEND's checks and effect (R299): BUSY, then RANGE, then the frame is latched. -/
def runSend (s : State) : State :=
  if s.txBusy then raiseCmdError .busy s
  else if s.txLen.toNat < 1 ∨ Config.pduMax < s.txLen.toNat then raiseCmdError .range s
  else
    match s.mode with
    | .stream => { emitAll s.frame (commandDone s) with txDone := true }
    | .rtu => txStep { commandDone s with txs := .wait s.frame s.t }
    | .ascii => txStep { commandDone s with txs := .wait s.frame s.t }

/-- TX.SEND (R299). -/
def execTxSend (s : State) : Result := .next (runSend s)

end Sys2Proof.Machine
end

