-- ==== Sys2Proof/Machine/Dispatch.lean ====
section
/-! DEFINITION. One arm per instruction: the opcode table (spec/30_encoding.md R121, R131). -/

namespace Sys2Proof.Machine

def exec (i : Instr) (s : State) : Host.Outcome State Fault Refusal :=
  match i with
  | .nop => Sys2Proof.Machine.execNop s
  | .crcInit => Sys2Proof.Machine.execCrcInit s
  | .crcFeed b => Sys2Proof.Machine.execCrcFeed b s
  | .lrcInit => Sys2Proof.Machine.execLrcInit s
  | .lrcFeed b => Sys2Proof.Machine.execLrcFeed b s
  | .encodeReq => Sys2Proof.Machine.execEncodeReq s
  | .encodeRsp => Sys2Proof.Machine.execEncodeRsp s
  | .decodeReq => Sys2Proof.Machine.execDecodeReq s
  | .decodeRsp => Sys2Proof.Machine.execDecodeRsp s
  | .txSend => Sys2Proof.Machine.execTxSend s
  | .rxEnable => Sys2Proof.Machine.execRxEnable s
  | .rxDisable => Sys2Proof.Machine.execRxDisable s
  | .rxRelease => Sys2Proof.Machine.execRxRelease s
  | .resetSoft => Sys2Proof.Machine.execResetSoft s
  | .pduReq01 op start quantity => Sys2Proof.Machine.execPduReq01 op start quantity s
  | .pduRsp01 op bits => Sys2Proof.Machine.execPduRsp01 op bits s
  | .pduReq02 op start quantity => Sys2Proof.Machine.execPduReq02 op start quantity s
  | .pduRsp02 op bits => Sys2Proof.Machine.execPduRsp02 op bits s
  | .pduReq03 op start quantity => Sys2Proof.Machine.execPduReq03 op start quantity s
  | .pduRsp03 op values => Sys2Proof.Machine.execPduRsp03 op values s
  | .pduReq04 op start quantity => Sys2Proof.Machine.execPduReq04 op start quantity s
  | .pduRsp04 op values => Sys2Proof.Machine.execPduRsp04 op values s
  | .pduReq05 op address value => Sys2Proof.Machine.execPduReq05 op address value s
  | .pduRsp05 op address value => Sys2Proof.Machine.execPduRsp05 op address value s
  | .pduReq06 op address value => Sys2Proof.Machine.execPduReq06 op address value s
  | .pduRsp06 op address value => Sys2Proof.Machine.execPduRsp06 op address value s
  | .pduReq0F op start quantity bits => Sys2Proof.Machine.execPduReq0F op start quantity bits s
  | .pduRsp0F op start quantity => Sys2Proof.Machine.execPduRsp0F op start quantity s
  | .pduReq10 op start quantity values => Sys2Proof.Machine.execPduReq10 op start quantity values s
  | .pduRsp10 op start quantity => Sys2Proof.Machine.execPduRsp10 op start quantity s
  | .pduReq14 op subs => Sys2Proof.Machine.execPduReq14 op subs s
  | .pduRsp14 op subs => Sys2Proof.Machine.execPduRsp14 op subs s
  | .pduReq15 op subs => Sys2Proof.Machine.execPduReq15 op subs s
  | .pduRsp15 op subs => Sys2Proof.Machine.execPduRsp15 op subs s
  | .pduReq16 op address andMask orMask => Sys2Proof.Machine.execPduReq16 op address andMask orMask s
  | .pduRsp16 op address andMask orMask => Sys2Proof.Machine.execPduRsp16 op address andMask orMask s
  | .pduReq17 op readStart readQuantity writeStart writeQuantity values => Sys2Proof.Machine.execPduReq17 op readStart readQuantity writeStart writeQuantity values s
  | .pduRsp17 op values => Sys2Proof.Machine.execPduRsp17 op values s
  | .pduReq18 op address => Sys2Proof.Machine.execPduReq18 op address s
  | .pduRsp18 op values => Sys2Proof.Machine.execPduRsp18 op values s
  | .pduRspExc op fc7 code => Sys2Proof.Machine.execPduRspExc op fc7 code s

end Sys2Proof.Machine
end

