-- ==== Sys2Proof/Machine/Receiver.lean ====
section
/-! DEFINITION. The RTU, ASCII and STREAM receivers (spec/42_framing.md R276-R296). -/

namespace Sys2Proof.Machine

/-! ## RTU -/

/-- `complete_rtu()` (R283); the caller sets the next state. -/
def completeRtu (s : State) : State :=
  let fr := s.rxAsm
  if fr.length < 4 then discardFrame .short s
  else if crcOk fr then deliver (fr.getD 0 0) ((fr.drop 1).take (fr.length - 3)) 0 0 s
  else discardFrame .checksum s

/-- RTU receive of one character (R280). -/
def rtuChar (b : Byte) (s : State) : State :=
  match s.rxs with
  | .disabled => s
  | .idle => { s with rxAsm := [b], rxs := .receiving, tRxLast := s.t }
  | .receiving =>
    let d := s.t - s.tRxLast
    if s.gapOk d then
      if s.rxAsm.length = Config.rtuMax then
        { discardFrame .overflow s with rxs := .error, tRxLast := s.t }
      else { s with rxAsm := s.rxAsm ++ [b], tRxLast := s.t }
    else if s.gapErr d then { discardFrame .gap s with rxs := .error, tRxLast := s.t }
    else { completeRtu s with rxAsm := [b], rxs := .receiving, tRxLast := s.t }
  | .error =>
    if s.gapEof (s.t - s.tRxLast) then
      { s with rxAsm := [b], rxs := .receiving, tRxLast := s.t }
    else { s with tRxLast := s.t }
  | .gotCr => s

/-- The RTU time check (R282), run by every Tick after `t` has advanced. -/
def rtuTimeCheck (s : State) : State :=
  if s.mode = .rtu ∧ s.gapEof (s.t - s.tRxLast) = true then
    match s.rxs with
    | .receiving => { completeRtu s with rxs := .idle }
    | .error => { s with rxs := .idle }
    | .disabled => s
    | .idle => s
    | .gotCr => s
  else s

/-! ## ASCII -/

/-- `complete_ascii()` (R287); the caller sets the next state. -/
def completeAscii (s : State) : State :=
  let fr := s.rxAsm
  if s.rxNib ≠ none ∨ fr.length < 3 then discardFrame .badAscii s
  else if lrcOk fr then deliver (fr.getD 0 0) ((fr.drop 1).take (fr.length - 2)) 0 0 s
  else discardFrame .checksum s

/-- A ':' starts a new frame, discarding a partial one (R285). -/
def asciiStart (s : State) : State :=
  let s1 := if s.rxs = .receiving ∨ s.rxs = .gotCr then discardFrame .restart s else s
  { dropPartial s1 with rxs := .receiving }

/-- A hex digit inside a frame (R285). -/
def asciiDigit (v : BitVec 4) (s : State) : State :=
  match s.rxNib with
  | none => { s with rxNib := some v }
  | some h =>
    if s.rxAsm.length = Config.asciiMax then { discardFrame .badAscii s with rxs := .idle }
    else { s with rxAsm := s.rxAsm ++ [h ++ v], rxNib := none }

/-- ASCII receive of one character (R285, R286). -/
def asciiChar (c : Byte) (s : State) : State :=
  match s.rxs with
  | .disabled => s
  | .idle => if c = colonChar then asciiStart s else s
  | .receiving =>
    if c = colonChar then asciiStart s
    else
      match hexVal c with
      | some v => asciiDigit v s
      | none =>
        if c = crChar then { s with rxs := .gotCr }
        else { discardFrame .nonHex s with rxs := .idle }
  | .gotCr =>
    if c = colonChar then asciiStart s
    else if c = lfChar then { completeAscii s with rxs := .idle }
    else { discardFrame .badAscii s with rxs := .idle }
  | .error => if c = colonChar then asciiStart s else s

/-! ## STREAM -/

/-- `complete_stream()` (R289); the caller sets the next state. -/
def completeStream (s : State) : State :=
  let fr := s.rxAsm
  let len := (rd16 fr 4).toNat
  deliver (fr.getD 6 0) ((fr.drop 7).take (len - 1)) (rd16 fr 0) (rd16 fr 2) s

/-- STREAM receive of one byte (R288). -/
def streamChar (b : Byte) (s : State) : State :=
  match s.rxs with
  | .disabled => s
  | .error => s
  | .idle => { s with rxAsm := [b], rxs := .receiving }
  | .receiving =>
    let fr := s.rxAsm ++ [b]
    let s1 := { s with rxAsm := fr }
    let len := (rd16 fr 4).toNat
    if fr.length = 6 ∧ (len < 2 ∨ Config.lenMax < len) then
      { discardFrame .badLength s1 with rxs := .error }
    else if 6 ≤ fr.length ∧ fr.length = 6 + len then { completeStream s1 with rxs := .idle }
    else s1
  | .gotCr => s

/-! ## Events -/

/-- Event `RxChar(b)`: `t_line` moves first in RTU and ASCII modes, whatever `rxs` is (R291), then the
mode's receiver runs. -/
def rxCharEvent (b : Byte) (s : State) : State :=
  match s.mode with
  | .rtu => rtuChar b { s with tLine := s.t }
  | .ascii => asciiChar b { s with tLine := s.t }
  | .stream => streamChar b s

/-- Event `RxEos` (R296): a transport error inside a STREAM frame, else nothing. -/
def rxEosEvent (s : State) : State :=
  if s.mode = .stream ∧ s.rxs = .receiving then
    { dropPartial s with rxtErr := true, rxs := .idle }
  else s

end Sys2Proof.Machine
end

