-- ==== Sys2Proof/Machine/Bus.lean ====
section
/-! DEFINITION. The host bus (spec/20_memory.md R90-R93) with the register rules of spec/10_state.md, and
the events that reach the block (spec/00_scope.md R17). -/

namespace Sys2Proof.Machine

/-! ## Reads -/

/-- What a register reads as (10_state.md R32-R49). -/
def readRegister (r : RegName) (s : State) : Word :=
  match r with
  | .id => Config.idValue
  | .cfg => 0#24 ++ s.charBits ++ 0#2 ++ s.mode.code
  | .status => s.statusWord
  | .ie => (s.ie &&& ieMask).setWidth 32
  | .cmd => 0
  | .crc => s.crcAcc.setWidth 32
  | .lrc => 0#16 ++ s.lrcSum ++ lrcOfSum s.lrcSum
  | .baud => s.baud
  | .txdly => s.txDly
  | .txunit => s.txUnit.setWidth 32
  | .txlen => s.txLen.setWidth 32
  | .txtid => s.txTid.setWidth 32
  | .rxunit => s.rxUnit.setWidth 32
  | .rxlen => s.rxLen.setWidth 32
  | .rxtid => s.rxTid.setWidth 32
  | .rxpid => s.rxPid.setWidth 32
  | .now => BitVec.ofNat 32 s.t
  | .cntRxok => s.cntRxOk
  | .cntFrameerr => s.cntFrameErr
  | .cntCrcerr => s.cntCrcErr
  | .cntOverrun => s.cntOverrun

/-- What an accepted read returns (20_memory.md R90; RAMs 10_state.md R50-R52; reserved offsets R53). -/
def readTarget (g : Target) (s : State) : Word :=
  match g with
  | .reg r => readRegister r s
  | .txbuf i => (s.txbuf i).setWidth 32
  | .rxbuf i => (s.rxbuf i).setWidth 32
  | .msg i => s.msg i
  | .reserved => 0

/-! ## Writes -/

/-- The write rule of CFG (10_state.md R33): each field takes its value if it is legal, judged alone. -/
def writeCfg (v : Word) (s : State) : State :=
  let bits : BitVec 4 := v.extractLsb' 4 4
  { s with
    mode := (modeOfField (v.extractLsb' 0 2)).getD s.mode
    charBits := if 7 ≤ bits.toNat ∧ bits.toNat ≤ 12 then bits else s.charBits }

/-- The write rule of BAUD (10_state.md R39): 0 is not legal and leaves it unchanged. -/
def writeBaud (v : Word) (s : State) : State := if v = 0 then s else { s with baud := v }

/-- The write rule of TXDLY (10_state.md R40). -/
def writeTxDly (v : Word) (s : State) : State := { s with txDly := v }

/-- A write to CMD (10_state.md R34): the command the word encodes runs; an illegal word does nothing
except `STATUS.ERR <- 1` (30_encoding.md R123). -/
def issueCommand (v : Word) (s : State) : Result :=
  match decode (.command v) with
  | .error e => .next (raiseCmdError (decodeErrCode e) s)
  | .ok i => exec i s

/-- A write to a register (20_memory.md R91, 10_state.md R32-R49, R54). -/
def writeRegister (r : RegName) (v : Word) (s : State) : Result :=
  match r with
  | .id => .next s
  | .cfg => .next (lockable (writeCfg v) s)
  | .status => .next (clearStatus v s)
  | .ie => .next { s with ie := v.setWidth 6 &&& ieMask }
  | .cmd => issueCommand v s
  | .crc => .next s
  | .lrc => .next s
  | .baud => .next (lockable (writeBaud v) s)
  | .txdly => .next (lockable (writeTxDly v) s)
  | .txunit => .next { s with txUnit := v.setWidth 8 }
  | .txlen => .next { s with txLen := v.setWidth 9 }
  | .txtid => .next { s with txTid := v.setWidth 16 }
  | .rxunit => .next s
  | .rxlen => .next s
  | .rxtid => .next s
  | .rxpid => .next s
  | .now => .next s
  | .cntRxok => .next { s with cntRxOk := 0 }
  | .cntFrameerr => .next { s with cntFrameErr := 0 }
  | .cntCrcerr => .next { s with cntCrcErr := 0 }
  | .cntOverrun => .next { s with cntOverrun := 0 }

/-- What an accepted write does (20_memory.md R91). -/
def writeTarget (g : Target) (v : Word) (s : State) : Result :=
  match g with
  | .reg r => writeRegister r v s
  | .txbuf i => .next (s.setTxbuf i (v.setWidth 8))
  | .rxbuf _ => .next s
  | .msg i => .next (s.setMsg i v)
  | .reserved => .next s

/-! ## Accesses -/

/-- The block accepts an access inside the aperture (20_memory.md R92): 32 bits wide, 4-byte aligned. -/
def accepted (size : AccessSize) (off : Nat) : Bool := size == .word && off % 4 == 0

/-- `BusRead(off)` (20_memory.md R90, R92). -/
def busRead (size : AccessSize) (off : Nat) (s : State) : Result :=
  if Config.aperture ≤ off then .next (noResponse s)
  else if accepted size off then
    .next { s with hostResp := .data (readTarget (targetAt off) s) }
  else .next (raiseBusError s)

/-- `BusWrite(off, v)` (20_memory.md R91, R92). -/
def busWrite (size : AccessSize) (off : Nat) (v : Word) (s : State) : Result :=
  if Config.aperture ≤ off then .next (noResponse s)
  else if accepted size off then writeTarget (targetAt off) v { s with hostResp := .done }
  else .next (raiseBusError s)

/-! ## Events -/

/-- Event `Tick` (00_scope.md R17, 60_exceptions.md R381): `t` advances, then the receiver's time check,
then the transmitter's step. -/
def tickEvent (s : State) : State := txStep (rtuTimeCheck { s with t := s.t + 1 })

/-- One event, run to completion (60_exceptions.md R381). -/
def handleEvent (e : Event) (s : State) : Result :=
  match e with
  | .busRead size off => busRead size off s
  | .busWrite size off v => busWrite size off v s
  | .rxChar b => .next (rxCharEvent b s)
  | .rxEos => .next (rxEosEvent s)
  | .tick => .next (tickEvent s)
  | .reset => .next (hardwareReset s)

/-- The next event: the first of `inputs`; with none left, time passes (log 2). -/
def nextEvent (s : State) : Event :=
  match s.inputs with
  | [] => .tick
  | e :: _ => e

/-- The state in which the next event runs: it is no longer to come. -/
def consumeEvent (s : State) : State := { s with inputs := s.inputs.drop 1 }

/-! ## Placing one instruction -/

/-- The DECODE command word of a direction (30_encoding.md R121). -/
def decodeWord (dir : Dir) : Word :=
  match dir with
  | .request => 0x00000011
  | .response => 0x00010011

/-- A host write of a command word as the next event. -/
def withCommand (v : Word) (s : State) : State :=
  { s with inputs := .busWrite .word 0x010 v :: s.inputs }

/-- A received PDU that the host asks the codec to decode next: the PDU stands in RXBUF as a delivered
frame's, and the next event is the DECODE of its direction. -/
def withReceivedPdu (dir : Dir) (pdu : List Byte) (s : State) : State :=
  withCommand (decodeWord dir)
    { s.fillRxbuf 0 pdu with rxLen := BitVec.ofNat 9 pdu.length, rxValid := true }

end Sys2Proof.Machine
end

