-- ==== Sys2Proof/Machine/Step.lean ====
section
/-! DEFINITION. One step: the next event of the block's environment (spec/00_scope.md R17, R18). -/

namespace Sys2Proof.Machine

/-- One step. -/
def step (s : State) : Host.Outcome State Fault Refusal := handleEvent (nextEvent s) (consumeEvent s)

/-- Place an opcode-table word where the next step runs it. A 32-bit word is the command the host
writes to CMD next. Any other word begins a PDU, which is placed in RXBUF and decoded next (log 8). -/
def State.withFetchWord (s : State) (nbits w : Nat) : State :=
  let v := w % 2 ^ nbits
  if nbits = 32 then withCommand (BitVec.ofNat 32 v) s
  else withReceivedPdu (tableDir v) (tablePdu (tableDir v) v) s

end Sys2Proof.Machine
end

