-- ==== Sys2Proof/Machine/Assembler.lean ====
section
/-! DEFINITION. The notation of spec/30_encoding.md R150-R153: command mnemonics, host access lines,
pseudo-instructions and line events, each as the events it stands for. Where the rules leave the text
open (separators, spaces), log 18. -/

namespace Sys2Proof.Machine

/-! ## Lines -/

/-- One line of a test program. -/
inductive AsmLine where
  /-- A command mnemonic (R150). -/
  | command (i : Instr)
  /-- `WR target, imm32` (R151). -/
  | wr (off : Nat) (v : Word)
  /-- `RD target` (R151). -/
  | rd (off : Nat)
  /-- `FILL TXBUF, b0, …` (R152). -/
  | fill (bs : List Byte)
  /-- `SETMSG i, v0, …` (R152). -/
  | setMsg (i : Nat) (vs : List Word)
  /-- `FEED.CRC b0, …` (R152). -/
  | feedCrc (bs : List Byte)
  /-- `FEED.LRC b0, …` (R152). -/
  | feedLrc (bs : List Byte)
  /-- `WAIT target, mask, value` (R152). -/
  | wait (off : Nat) (mask value : Word)
  /-- `CLEAR.STATUS mask` (R152). -/
  | clearStatus (mask : Word)
  /-- `RXCHAR b` (R153). -/
  | rxChar (b : Byte)
  /-- `RXEOS` (R153). -/
  | rxEos
  /-- `TICK n` (R153). -/
  | tick (n : Nat)
deriving DecidableEq, Repr

/-- The offset of `TXBUF[i]` (R151). -/
def txbufOffset (i : Nat) : Nat := 0x1000 + 4 * i

/-- The offset of `RXBUF[i]` (R151). -/
def rxbufOffset (i : Nat) : Nat := 0x1400 + 4 * i

/-- The offset of `MSG[i]` (R151). -/
def msgOffset (i : Nat) : Nat := 0x4000 + 4 * i

/-- The event of a host write. -/
def writeEvent (off : Nat) (v : Word) : Event := .busWrite .word off v

/-- The command word of an instruction; `none` for a PDU row, which is no command. -/
def commandWord (i : Instr) : Option Word :=
  match encode i with
  | .command v => some v
  | .pdu _ _ _ => none

/-- A command is one `BusWrite(0x010, word)` (R150). -/
def commandEvents (i : Instr) : List Event :=
  match commandWord i with
  | some v => [writeEvent RegName.cmd.offset v]
  | none => []

/-- Writes of a list of words to consecutive entries. -/
def writeList (offset : Nat → Nat) (i : Nat) : List Word → List Event
  | [] => []
  | v :: vs => writeEvent (offset i) v :: writeList offset (i + 1) vs

/-- The events of a line (R150-R153). WAIT gives one read: it is a host loop of which the block sees only
the reads, and `waitDone` is its exit test. -/
def AsmLine.events : AsmLine → List Event
  | .command i => commandEvents i
  | .wr off v => [writeEvent off v]
  | .rd off => [.busRead .word off]
  | .fill bs =>
    writeList txbufOffset 0 (bs.map fun b => b.setWidth 32)
      ++ [writeEvent RegName.txlen.offset (BitVec.ofNat 32 bs.length)]
  | .setMsg i vs => writeList msgOffset i vs
  | .feedCrc bs => bs.flatMap fun b => commandEvents (.crcFeed b)
  | .feedLrc bs => bs.flatMap fun b => commandEvents (.lrcFeed b)
  | .wait off _ _ => [.busRead .word off]
  | .clearStatus mask => [writeEvent RegName.status.offset mask]
  | .rxChar b => [.rxChar b]
  | .rxEos => [.rxEos]
  | .tick n => List.replicate n .tick

/-- The exit test of WAIT (R152): `(result & mask) = value`. -/
def waitDone (mask value result : Word) : Bool := result &&& mask == value

/-- The ticks that bring the clock from instant `now` to an `@t` mark (R153). -/
def untilInstant (now t : Nat) : List Event := List.replicate (t - now) .tick

/-! ## Text -/

/-- Cut a comment off a line: `;` starts one (R150). -/
def cutComment : List Char → List Char
  | [] => []
  | c :: cs => if c = ';' then [] else c :: cutComment cs

/-- A character that separates the words of a line. -/
def isSeparator (c : Char) : Bool := c == ' ' || c == ',' || c == '\t'

/-- Split a line into its words, upper case (mnemonics are case-insensitive, R150). `word` holds the
letters of the word being read, last first. -/
def splitWords (word : List Char) : List Char → List (List Char)
  | [] => if word.isEmpty then [] else [word.reverse]
  | c :: cs =>
    if isSeparator c then
      if word.isEmpty then splitWords [] cs else word.reverse :: splitWords [] cs
    else splitWords (c.toUpper :: word) cs

/-- The value of a decimal digit. -/
def decimalDigit (c : Char) : Option Nat :=
  if '0'.toNat ≤ c.toNat ∧ c.toNat ≤ '9'.toNat then some (c.toNat - '0'.toNat) else none

/-- The value of a hex digit. -/
def hexDigit (c : Char) : Option Nat :=
  if 'A'.toNat ≤ c.toNat ∧ c.toNat ≤ 'F'.toNat then some (c.toNat - 'A'.toNat + 10)
  else decimalDigit c

/-- The number that a list of digits spells after the value read so far. -/
def readDigits (base : Nat) (digit : Char → Option Nat) (acc : Nat) : List Char → Option Nat
  | [] => some acc
  | c :: cs =>
    match digit c with
    | some d => readDigits base digit (base * acc + d) cs
    | none => none

/-- A number: decimal, or hex after `0x` (R150). -/
def readNumber (w : List Char) : Option Nat :=
  match w with
  | [] => none
  | ['0', 'X'] => none
  | '0' :: 'X' :: digits => readDigits 16 hexDigit 0 digits
  | digits => readDigits 10 decimalDigit 0 digits

/-- An operand of 32 bits. -/
def readImm32 (w : List Char) : Option Word :=
  match readNumber w with
  | some n => if n < 2 ^ 32 then some (BitVec.ofNat 32 n) else none
  | none => none

/-- An operand of one byte. -/
def readImm8 (w : List Char) : Option Byte :=
  match readNumber w with
  | some n => if n < 256 then some (BitVec.ofNat 8 n) else none
  | none => none

/-- Every word of a list read with one reader, or nothing. -/
def readAll {α : Type} (read : List Char → Option α) : List (List Char) → Option (List α)
  | [] => some []
  | w :: ws =>
    match read w, readAll read ws with
    | some v, some vs => some (v :: vs)
    | _, _ => none

/-- The register names of a `target` (R151, 10_state.md R31). -/
def registerNames : List (String × RegName) :=
  [("ID", .id), ("CFG", .cfg), ("STATUS", .status), ("IE", .ie), ("CMD", .cmd), ("CRC", .crc),
    ("LRC", .lrc), ("BAUD", .baud), ("TXDLY", .txdly), ("TXUNIT", .txunit), ("TXLEN", .txlen),
    ("TXTID", .txtid), ("RXUNIT", .rxunit), ("RXLEN", .rxlen), ("RXTID", .rxtid),
    ("RXPID", .rxpid), ("NOW", .now), ("CNT_RXOK", .cntRxok), ("CNT_FRAMEERR", .cntFrameerr),
    ("CNT_CRCERR", .cntCrcerr), ("CNT_OVERRUN", .cntOverrun)]

/-- The index of a RAM entry: the digits before a closing bracket. -/
def readIndex (w : List Char) : Option Nat :=
  match w.reverse with
  | ']' :: digits => readNumber digits.reverse
  | _ => none

/-- The offset of a RAM entry `NAME[i]` below its limit. -/
def entryOffset (limit : Nat) (offset : Nat → Nat) (index : List Char) : Option Nat :=
  match readIndex index with
  | some i => if i < limit then some (offset i) else none
  | none => none

/-- A `target` (R151): a register name, a RAM entry, or a numeric offset. -/
def readOffset (w : List Char) : Option Nat :=
  match registerNames.find? fun p => p.1.toList == w with
  | some p => some p.2.offset
  | none =>
    match w with
    | 'T' :: 'X' :: 'B' :: 'U' :: 'F' :: '[' :: rest => entryOffset Config.bufN txbufOffset rest
    | 'R' :: 'X' :: 'B' :: 'U' :: 'F' :: '[' :: rest => entryOffset Config.bufN rxbufOffset rest
    | 'M' :: 'S' :: 'G' :: '[' :: rest => entryOffset Config.msgN msgOffset rest
    | _ => readNumber w

/-- The mnemonics that take no operand (R121, R150). -/
def plainMnemonics : List (String × Instr) :=
  [("NOP", .nop), ("CRC.INIT", .crcInit), ("LRC.INIT", .lrcInit), ("ENCODE.REQ", .encodeReq),
    ("ENCODE.RSP", .encodeRsp), ("DECODE.REQ", .decodeReq), ("DECODE.RSP", .decodeRsp),
    ("TX.SEND", .txSend), ("RX.ENABLE", .rxEnable), ("RX.DISABLE", .rxDisable),
    ("RX.RELEASE", .rxRelease), ("RESET.SOFT", .resetSoft)]

/-- The line that the words of a text line spell; `none` where they spell none. -/
def readLine (ws : List (List Char)) : Option AsmLine :=
  match ws with
  | [] => none
  | name :: args =>
    match plainMnemonics.find? fun p => p.1.toList == name, args with
    | some p, [] => some (.command p.2)
    | some _, _ :: _ => none
    | none, _ =>
      if name == "CRC.FEED".toList then
        match args with
        | [b] => (readImm8 b).map fun v => .command (.crcFeed v)
        | _ => none
      else if name == "LRC.FEED".toList then
        match args with
        | [b] => (readImm8 b).map fun v => .command (.lrcFeed v)
        | _ => none
      else if name == "WR".toList then
        match args with
        | [target, imm] =>
          match readOffset target, readImm32 imm with
          | some off, some v => some (.wr off v)
          | _, _ => none
        | _ => none
      else if name == "RD".toList then
        match args with
        | [target] => (readOffset target).map .rd
        | _ => none
      else if name == "FILL".toList then
        match args with
        | ram :: bs => if ram == "TXBUF".toList then (readAll readImm8 bs).map .fill else none
        | [] => none
      else if name == "SETMSG".toList then
        match args with
        | i :: vs =>
          match readNumber i, readAll readImm32 vs with
          | some k, some words => some (.setMsg k words)
          | _, _ => none
        | [] => none
      else if name == "FEED.CRC".toList then (readAll readImm8 args).map .feedCrc
      else if name == "FEED.LRC".toList then (readAll readImm8 args).map .feedLrc
      else if name == "WAIT".toList then
        match args with
        | [target, mask, value] =>
          match readOffset target, readImm32 mask, readImm32 value with
          | some off, some m, some v => some (.wait off m v)
          | _, _, _ => none
        | _ => none
      else if name == "CLEAR.STATUS".toList then
        match args with
        | [mask] => (readImm32 mask).map .clearStatus
        | _ => none
      else if name == "RXCHAR".toList then
        match args with
        | [b] => (readImm8 b).map .rxChar
        | _ => none
      else if name == "RXEOS".toList then
        match args with
        | [] => some .rxEos
        | _ => none
      else if name == "TICK".toList then
        match args with
        | [n] => (readNumber n).map .tick
        | _ => none
      else none

/-- A text line to a line of the program, with the instant of its `@t` mark if it has one (R153). -/
def assembleLine (text : List Char) : Option (Option Nat × AsmLine) :=
  match splitWords [] (cutComment text) with
  | ('@' :: digits) :: ws =>
    match readNumber digits, readLine ws with
    | some t, some l => some (some t, l)
    | _, _ => none
  | ws => (readLine ws).map fun l => (none, l)

end Sys2Proof.Machine
end

