-- ==== Sys2Proof/Safety.lean ====
section
/-! DEFINITION. What a well-kept state is, in the terms the claims use: the limits and relations that
the rules of spec/10_state.md give the state's fields. -/

namespace Sys2Proof.Machine

/-- Every address of the memory is a byte of TXBUF, RXBUF or MSG (10_state.md R50-R52). -/
def isRamByte (a : Nat) : Bool :=
  (decide (0x1000 ≤ a ∧ a < 0x1800) && a % 4 == 0) || decide (0x4000 ≤ a ∧ a < 0x6000)

/-- The memory is in canonical form and lists RAM bytes only. -/
abbrev MemoryInv (s : State) : Prop := Memory.wf s.mem = true ∧ s.mem.all (fun c => isRamByte c.1) = true

/-- The registers hold legal values: CHARBITS in 7..12 and BAUD not 0 (10_state.md R33, R39), IE bit 1
reads as zero (R38), RXLEN at most 253, and at least 1 while a frame is held (R45). -/
abbrev RegisterInv (s : State) : Prop :=
  (7 ≤ s.charBits.toNat ∧ s.charBits.toNat ≤ 12) ∧ s.baud ≠ 0 ∧ s.ie &&& ieMask = s.ie
    ∧ s.rxLen.toNat ≤ 253 ∧ (s.rxValid = true → 1 ≤ s.rxLen.toNat)

/-- The instants that are remembered are not in the future (10_state.md R58, R59, R60, R63). -/
abbrev TimeInv (s : State) : Prop :=
  s.tRxLast ≤ s.t ∧ s.tLine ≤ s.t
    ∧ (match s.txs with
      | .idle => True
      | .wait _ tCmd => tCmd ≤ s.t
      | .send _ ts => ts ≤ s.t)

/-- How long the assembly buffer may be in the middle of a frame (10_state.md R56): in RTU mode 1 to 256
bytes, in ASCII mode at most 255, in STREAM mode 1 to fewer than the frame has. -/
abbrev AssemblyLimit (s : State) : Prop :=
  match s.mode with
  | .rtu => 1 ≤ s.rxAsm.length ∧ s.rxAsm.length ≤ 256
  | .ascii => s.rxAsm.length ≤ 255
  | .stream =>
    1 ≤ s.rxAsm.length
      ∧ (6 ≤ s.rxAsm.length →
          2 ≤ (rd16 s.rxAsm 4).toNat ∧ (rd16 s.rxAsm 4).toNat ≤ 254
            ∧ s.rxAsm.length < 6 + (rd16 s.rxAsm 4).toNat)

/-- The receiver (10_state.md R55, R56, R57): outside a frame the assembly buffer and the nibble state
are empty, GOT_CR and a half byte occur only in ASCII mode, ERROR only in the others, and inside a frame
the buffer keeps its limit. -/
abbrev ReceiverInv (s : State) : Prop :=
  (s.rxNib ≠ none → s.mode = .ascii)
    ∧ (match s.rxs with
      | .disabled => s.rxAsm = [] ∧ s.rxNib = none
      | .idle => s.rxAsm = [] ∧ s.rxNib = none
      | .error => s.rxAsm = [] ∧ s.rxNib = none ∧ s.mode ≠ .ascii
      | .gotCr => s.mode = .ascii ∧ AssemblyLimit s
      | .receiving => AssemblyLimit s)

/-- The transmitter (10_state.md R60, 42_framing.md R271, R273, R300): a latched frame has 4 to 513
characters, only RTU and ASCII modes latch one, and a transmission is never past its end. -/
abbrev TransmitterInv (s : State) : Prop :=
  match s.txs with
  | .idle => True
  | .wait f _ => s.mode ≠ .stream ∧ 4 ≤ f.length ∧ f.length ≤ 513
  | .send f ts =>
    s.mode ≠ .stream ∧ 4 ≤ f.length ∧ f.length ≤ 513 ∧ s.t < ts + s.charStart f.length

/-- The block's invariant: every state that a run reaches meets it. -/
abbrev BlockInv (s : State) : Prop :=
  MemoryInv s ∧ RegisterInv s ∧ TimeInv s ∧ ReceiverInv s ∧ TransmitterInv s

/-! ## Words the claims use -/

/-- ENCODE in a direction. -/
def encodeInstr : Dir → Instr
  | .request => .encodeReq
  | .response => .encodeRsp

/-- DECODE in a direction. -/
def decodeInstr : Dir → Instr
  | .request => .decodeReq
  | .response => .decodeRsp

/-- FC_SET (00_scope.md R8). -/
def fcSet : List Nat :=
  [0x01, 0x02, 0x03, 0x04, 0x05, 0x06, 0x0F, 0x10, 0x14, 0x15, 0x16, 0x17, 0x18]

/-- The reserved function codes of a direction (30_encoding.md R135). -/
def reservedCode (dir : Dir) (fc : Byte) : Prop :=
  match dir with
  | .request => fc.toNat ∉ fcSet
  | .response => fc.toNat < 0x80 ∧ fc.toNat ∉ fcSet

/-- The high byte of a 16-bit value, as arithmetic. -/
def hi8 (v : Half) : Byte := BitVec.ofNat 8 (v.toNat / 256)

/-- The low byte of a 16-bit value, as arithmetic. -/
def lo8 (v : Half) : Byte := BitVec.ofNat 8 (v.toNat % 256)

/-- A value list as wire bytes, as arithmetic. -/
def wireBytes (vs : List Half) : List Byte := vs.flatMap fun v => [hi8 v, lo8 v]

/-- Element words of a descriptor with their indexes, from MSG[8] on. -/
def elementWords (ws : List Word) : List (Nat × Word) := ws.zipIdx.map fun p => (8 + p.2, p.1)

/-- All the words a message's descriptor has, with their indexes (40_codec.md R161). -/
def descriptorWords (m : Message) : List (Nat × Word) :=
  (0, m.fc.setWidth 32)
    :: ((payloadFields m.body).zipIdx.map fun p => (1 + p.2, p.1))
    ++ elementWords (payloadElements m.body)

/-- The elements EL(0), EL(1), … are the given words (30_encoding.md R140). -/
def ElementsAre (M : Nat → Word) (ws : List Word) : Prop := ∀ k w, ws[k]? = some w → M (8 + k) = w

/-- The first n elements are the given bits, and the bits after them, up to a whole byte, are 0
(30_encoding.md R133). -/
def BitsAre (M : Nat → Word) (n : Nat) (bits : List Bool) : Prop :=
  bits.length = 8 * ((n + 7) / 8)
    ∧ ∀ k b, bits[k]? = some b → if k < n then M (8 + k) = (if b then 1 else 0) else b = false

/-- The words that ENCODE reads of a descriptor are those of a message (40_codec.md R165, R170-R187); the
"out" fields are not read. -/
def Describes (M : Nat → Word) (m : Message) : Prop :=
  M 0 = m.fc.setWidth 32
    ∧ match m.body with
      | .pair a b => M 1 = a.setWidth 32 ∧ M 2 = b.setWidth 32
      | .coils bits => BitsAre M (M 1).toNat bits
      | .registers vs =>
        M 1 = BitVec.ofNat 32 vs.length ∧ ElementsAre M (vs.map fun v => v.setWidth 32)
      | .writeCoils a q bits =>
        M 1 = a.setWidth 32 ∧ M 2 = q.setWidth 32 ∧ BitsAre M q.toNat bits
      | .writeRegs a q vs =>
        M 1 = a.setWidth 32 ∧ M 2 = q.setWidth 32 ∧ q.toNat = vs.length
          ∧ ElementsAre M (vs.map fun v => v.setWidth 32)
      | .fileRefs subs =>
        M 1 = BitVec.ofNat 32 subs.length ∧ ElementsAre M (payloadElements (.fileRefs subs))
      | .fileData subs =>
        M 1 = BitVec.ofNat 32 subs.length ∧ ElementsAre M (payloadElements (.fileData subs))
      | .fileWrites subs =>
        M 1 = BitVec.ofNat 32 subs.length ∧ ElementsAre M (payloadElements (.fileWrites subs))
      | .maskWrite a n o =>
        M 1 = a.setWidth 32 ∧ M 2 = n.setWidth 32 ∧ M 3 = o.setWidth 32
      | .readWrite r k w q vs =>
        M 1 = r.setWidth 32 ∧ M 2 = k.setWidth 32 ∧ M 3 = w.setWidth 32 ∧ M 4 = q.setWidth 32
          ∧ q.toNat = vs.length ∧ ElementsAre M (vs.map fun v => v.setWidth 32)
      | .fifoPointer a => M 1 = a.setWidth 32
      | .fifoValues vs =>
        M 1 = BitVec.ofNat 32 vs.length ∧ ElementsAre M (vs.map fun v => v.setWidth 32)
      | .exception code => M 1 = code.setWidth 32

/-- A word that fails `chk16` (40_codec.md R164). -/
abbrev Wide (w : Word) : Prop := 0x10000 ≤ w.toNat

/-- The element index at which sub-structure j of a file record message starts (40_codec.md R181, R182):
each has `header` words, of which word `countAt` counts the values that follow. -/
def subCursor (header countAt : Nat) (M : Nat → Word) : Nat → Nat
  | 0 => 0
  | j + 1 =>
    subCursor header countAt M j + header + (M (8 + subCursor header countAt M j + countAt)).toNat

/-- What the Pack of a layout rejects with RANGE, in numbers (40_codec.md R164, R170-R187). -/
def PackFails (M : Nat → Word) : Layout → Prop
  | .pair => Wide (M 1) ∨ Wide (M 2)
  | .coils => 2008 < (M 1).toNat ∨ ∃ k, k < (M 1).toNat ∧ 1 < (M (8 + k)).toNat
  | .registers => 125 < (M 1).toNat ∨ ∃ k, k < (M 1).toNat ∧ Wide (M (8 + k))
  | .writeCoils =>
    Wide (M 1) ∨ 1976 < (M 2).toNat ∨ ∃ k, k < (M 2).toNat ∧ 1 < (M (8 + k)).toNat
  | .writeRegs => Wide (M 1) ∨ 123 < (M 2).toNat ∨ ∃ k, k < (M 2).toNat ∧ Wide (M (8 + k))
  | .fileRefs =>
    35 < (M 1).toNat
      ∨ ∃ j, j < (M 1).toNat
        ∧ (0xFF < (M (8 + 4 * j)).toNat ∨ Wide (M (8 + 4 * j + 1)) ∨ Wide (M (8 + 4 * j + 2))
          ∨ Wide (M (8 + 4 * j + 3)))
  | .fileData =>
    let c := subCursor 2 0 M
    let n := fun j => (M (8 + c j)).toNat
    Wide (M 1)
      ∨ (∃ j, j < (M 1).toNat
        ∧ (2040 < c j + 2 ∨ 0xFF < (M (8 + c j + 1)).toNat ∨ 255 < 1 + 2 * n j
          ∨ 2040 < c j + 2 + n j ∨ ∃ k, k < n j ∧ Wide (M (8 + c j + 2 + k))))
      ∨ 252 < 1 + (2 * c (M 1).toNat - 2 * (M 1).toNat)
  | .fileWrites =>
    let c := subCursor 4 3 M
    let n := fun j => (M (8 + c j + 3)).toNat
    Wide (M 1)
      ∨ (∃ j, j < (M 1).toNat
        ∧ (2040 < c j + 4 ∨ 0xFF < (M (8 + c j)).toNat ∨ Wide (M (8 + c j + 1))
          ∨ Wide (M (8 + c j + 2)) ∨ 2040 < c j + 4 + n j
          ∨ ∃ k, k < n j ∧ Wide (M (8 + c j + 4 + k))))
      ∨ 252 < 1 + (2 * c (M 1).toNat - (M 1).toNat)
  | .maskWrite => Wide (M 1) ∨ Wide (M 2) ∨ Wide (M 3)
  | .readWrite =>
    Wide (M 1) ∨ Wide (M 2) ∨ Wide (M 3) ∨ 121 < (M 4).toNat
      ∨ ∃ k, k < (M 4).toNat ∧ Wide (M (8 + k))
  | .fifoPointer => Wide (M 1)
  | .fifoValues => 124 < (M 1).toNat ∨ ∃ k, k < (M 1).toNat ∧ Wide (M (8 + k))
  | .exception => 0xFF < (M 1).toNat

/-- A result that stores a PDU (40_codec.md R162): its bytes in TXBUF from entry 0, its length in TXLEN,
ERR 0, every other register and every other RAM byte as before. -/
def PackedAs (s : State) (pdu : List Byte) (r : Result) : Prop :=
  ∃ t : State, r = .next t
    ∧ t = { s with mem := t.mem, txLen := BitVec.ofNat 9 pdu.length, err := .ok }
    ∧ (∀ k b, pdu[k]? = some b → t.txbuf k = b)
    ∧ ∀ a, (∀ k, k < pdu.length → a ≠ txbufAddr k) → t.readByte a = s.readByte a

/-- A result that stores a descriptor (40_codec.md R163): the given words of MSG, ERR 0, every other
register and every other RAM byte as before. -/
def UnpackedAs (s : State) (words : List (Nat × Word)) (r : Result) : Prop :=
  ∃ t : State, r = .next t
    ∧ t = { s with mem := t.mem, err := .ok }
    ∧ (∀ p ∈ words, t.msg p.1 = p.2)
    ∧ ∀ a, (∀ p ∈ words, a < msgAddr p.1 ∨ msgAddr p.1 + 4 ≤ a) → t.readByte a = s.readByte a

/-- The values that the hardware reset and RESET.SOFT have in common (70_reset_and_hazards.md R410). -/
abbrev AfterReset (t : State) : Prop :=
  readRegister .id t = 0x4D420001 ∧ readRegister .cfg t = 0x000000B0
    ∧ readRegister .status t = 0 ∧ readRegister .crc t = 0x0000FFFF ∧ readRegister .lrc t = 0
    ∧ t.mode = .rtu ∧ t.charBits = 11 ∧ t.ie = 0 ∧ t.baud = 9600 ∧ t.txDly = 2000
    ∧ t.txUnit = 0 ∧ t.txLen = 0 ∧ t.txTid = 0
    ∧ t.rxUnit = 0 ∧ t.rxLen = 0 ∧ t.rxTid = 0 ∧ t.rxPid = 0
    ∧ t.cntRxOk = 0 ∧ t.cntFrameErr = 0 ∧ t.cntCrcErr = 0 ∧ t.cntOverrun = 0
    ∧ t.rxValid = false ∧ t.txDone = false ∧ t.rxErr = false ∧ t.overrun = false
    ∧ t.rxtErr = false ∧ t.err = .ok ∧ t.rxs = .disabled ∧ t.rxAsm = [] ∧ t.rxNib = none
    ∧ t.txs = .idle ∧ t.crcAcc = 0xFFFF ∧ t.lrcSum = 0 ∧ t.irq = false

/-- `t` is `r` but for what the transmitter changes: `txs`, TXDONE, `t_line` and the characters emitted
(42_framing.md R300). -/
def UpToTransmitter (t r : State) : Prop :=
  t = { r with txs := t.txs, txDone := t.txDone, tLine := t.tLine, lineOut := t.lineOut }

/-- The next event issues RESET.SOFT. -/
def issuesSoftReset (s : State) : Prop := nextEvent s = .busWrite .word 0x010 0x000000FF

/-- The next event is a host write of a word. -/
def writesNext (s : State) (off : Nat) (v : Word) (rest : List Event) : Prop :=
  s.inputs = .busWrite .word off v :: rest

/-- A legal offset of the aperture (20_memory.md R92). -/
def legalOffset (off : Nat) : Prop := off % 4 = 0 ∧ off < 0x8000

end Sys2Proof.Machine
end

