-- ==== Sys2Proof/Certificates/Slice0/Obligations.lean ====
section
/-! DEFINITION. The statements. Each docstring names the rule of spec/ that the statement formalises. -/

open Sys2Proof Sys2Proof.Machine

/-! ## Encoding -/

/-- Decoding the code of a well-formed instruction gives it back, for every row and every operand
(30_encoding.md R120-R136, 40_codec.md R170-R187). -/
def Obligations.DecodeEncodeRoundTrip : Prop :=
  ∀ i : Instr, WellFormed i = true → decode (encode i) = .ok i

/-- A command word that decodes is the one encoding of its instruction (30_encoding.md R121, R123). -/
def Obligations.CommandWordsHaveOneEncoding : Prop :=
  ∀ (v : Word) (i : Instr), decode (.command v) = .ok i → encode i = .command v

/-- The bytes of a PDU that decodes are the one encoding of its instruction, which is well formed when
the PDU has at most 253 bytes (40_codec.md R161, 00_scope.md R8). -/
def Obligations.PdusHaveOneEncoding : Prop :=
  ∀ (op : CodecOp) (dir : Dir) (bytes : List Byte) (i : Instr),
    decode (.pdu op dir bytes) = .ok i →
      encode i = .pdu op dir bytes ∧ (bytes.length ≤ 253 → WellFormed i = true)

/-- Words and PDUs of the spec's vectors decode to the instructions they stand for
(95_test_vectors.md V-CMD, V-DEC). -/
def Obligations.SampleWordsDecode : Prop :=
  decode (.command 0x0000FF02) = .ok (.crcFeed 0xFF)
    ∧ decode (.command 0x00010011) = .ok .decodeRsp
    ∧ decode (.command 0x00010020) = .error .strayDir
    ∧ decode (.pdu .unpack .request [0x10, 0x00, 0x0A, 0x00, 0x03, 0x06, 0, 1, 0, 2, 0, 3])
        = .ok (.pduReq10 .unpack 10 3 [1, 2, 3])
    ∧ decode (.pdu .unpack .response [0x14, 0x06, 0x05, 0x06, 0x0D, 0xFE, 0x00, 0x20])
        = .ok (.pduRsp14 .unpack [⟨6, [0x0DFE, 0x0020]⟩])
    ∧ decode (.pdu .pack .response [0x83, 0x02]) = .ok (.pduRspExc .pack 0x03 0x02)

/-- Bit packing of coil values (30_encoding.md R133): bit i is bit `i mod 8` of byte `i div 8`, the other
bits of the last byte are 0, and unpacking is the same map. -/
def Obligations.CoilBitsPackByPosition : Prop :=
  (∀ (xs : List Bool),
    (packBits xs).length = (xs.length + 7) / 8
      ∧ ∀ i, i < 8 * ((xs.length + 7) / 8) →
          ((packBits xs).getD (i / 8) 0).getLsbD (i % 8) = xs.getD i false)
    ∧ ∀ (bs : List Byte),
        (unpackBits bs).length = 8 * bs.length
          ∧ ∀ i, i < 8 * bs.length →
              (unpackBits bs).getD i false = (bs.getD (i / 8) 0).getLsbD (i % 8)

/-! ## Commands and steps -/

/-- An illegal command word (30_encoding.md R123) does nothing except ERR <- 1; every other word
decodes. -/
def Obligations.IllegalWordOnlySetsErr : Prop :=
  ∀ v : Word,
    let op := v.toNat % 256
    let data := v.toNat / 256 % 256
    let dir := v.toNat / 65536 % 2
    let illegal :=
      op ∉ [0x00, 0x01, 0x02, 0x03, 0x04, 0x10, 0x11, 0x20, 0x30, 0x31, 0x32, 0xFF]
        ∨ v.toNat / 131072 ≠ 0
        ∨ (data ≠ 0 ∧ op ∉ [0x02, 0x04])
        ∨ (dir ≠ 0 ∧ op ∉ [0x10, 0x11])
    (illegal → ∀ (s : State) (rest : List Event), writesNext s 0x010 v rest →
        step s = .next { s with inputs := rest, hostResp := .done, err := .illegalCmd })
      ∧ (¬ illegal → ∃ i, decode (.command v) = .ok i)

/-- A host write to CMD runs the instruction its word decodes to (10_state.md R34): the step is exec of
it, in the state whose event is consumed and whose write is acknowledged. -/
def Obligations.StepRunsDecodedCommand : Prop :=
  ∀ (s : State) (v : Word) (rest : List Event) (i : Instr),
    writesNext s 0x010 v rest → decode (.command v) = .ok i →
      step s = exec i { s with inputs := rest, hostResp := .done }

/-- DECODE runs the instruction that the received PDU decodes to; with no frame it ends with NO_FRAME, with
a reserved function code with UNSUPPORTED_FC, with any other PDU that does not decode, an empty one and
one of the wrong length among them, with MALFORMED, and changes nothing else (40_codec.md R161, R163). -/
def Obligations.DecodeRunsDecodedPdu : Prop :=
  ∀ (dir : Dir) (s : State),
    (s.rxValid = false → exec (decodeInstr dir) s = .next { s with err := .noFrame })
      ∧ (s.rxValid = true →
          (∀ i, decode (.pdu .unpack dir s.rxPdu) = .ok i →
              exec (decodeInstr dir) s = exec i s)
            ∧ (∀ e, decode (.pdu .unpack dir s.rxPdu) = .error e →
                exec (decodeInstr dir) s = .next { s with
                  err := if e = .unsupportedCode then .unsupportedFc else .malformed })
            ∧ (s.rxPdu = [] → exec (decodeInstr dir) s = .next { s with err := .malformed })
            ∧ ∀ fc p l, s.rxPdu = fc :: p → layoutOf dir fc = some l →
                p.length ≠ payloadLength l p →
                  exec (decodeInstr dir) s = .next { s with err := .malformed })

/-- ENCODE runs the instruction whose bytes it packs; a descriptor that does not pack ends it with that
error and changes nothing else (40_codec.md R160, R162). -/
def Obligations.EncodeRunsPackedPdu : Prop :=
  ∀ (dir : Dir) (s : State),
    (∀ e, readDescriptor dir s.msg = .error e →
        exec (encodeInstr dir) s = .next { s with err := e })
      ∧ ∀ m, readDescriptor dir s.msg = .ok m →
          ∃ i, decode (.pdu .pack dir (packMessage m)) = .ok i ∧ WellFormed i = true
            ∧ exec (encodeInstr dir) s = exec i s

/-- Every event completes, whatever the state (00_scope.md R17, 20_memory.md R90-R92): a line event, a
Tick, the reset and a host access inside the aperture. (`OutsideApertureChangesNothing` states the other
accesses.) -/
def Obligations.EveryEventInsideCompletes : Prop :=
  ∀ s : State,
    (∀ size off, nextEvent s = .busRead size off → off < 0x8000) →
    (∀ size off v, nextEvent s = .busWrite size off v → off < 0x8000) →
      ∃ t, step s = .next t

/-! ## Reset -/

/-- The reset table (70_reset_and_hazards.md R410): what `State.reset` holds and what the hardware reset
and RESET.SOFT leave. After a hardware reset every RAM byte holds the open RAM_INIT; RESET.SOFT keeps
the RAMs and `t`. Both keep what lies outside the block (R411: no character is emitted; log 10). -/
def Obligations.ResetTableValues : Prop :=
  (AfterReset State.reset ∧ State.reset.t = 0 ∧ State.reset.tRxLast = 0 ∧ State.reset.tLine = 0
    ∧ ∀ a, State.reset.readByte a = Config.ramInit State.reset.ramDraw a)
  ∧ (∀ (s : State) (rest : List Event), s.inputs = .reset :: rest →
      ∃ t, step s = .next t ∧ AfterReset t ∧ t.t = 0 ∧ t.tRxLast = 0 ∧ t.tLine = 0
        ∧ (∀ a, t.readByte a = Config.ramInit t.ramDraw a)
        ∧ t.inputs = rest ∧ t.lineOut = s.lineOut ∧ t.hostResp = s.hostResp)
    ∧ ∀ s : State,
        ∃ t, exec .resetSoft s = .next t ∧ AfterReset t ∧ t.t = s.t ∧ t.tRxLast = s.t
          ∧ t.tLine = s.t ∧ (∀ a, t.readByte a = s.readByte a) ∧ t.inputs = s.inputs
          ∧ t.lineOut = s.lineOut ∧ t.hostResp = s.hostResp

/-- RESET.SOFT completes from every state (43_control.md R344, 70_reset_and_hazards.md R410): every
register and internal item takes its soft-reset value; TXBUF, RXBUF, MSG and `t` are unchanged. -/
def Obligations.SoftResetEffect : Prop :=
  ∀ s : State,
    exec .resetSoft s = .next {
      mode := .rtu, charBits := 11
      rxValid := false, txDone := false, rxErr := false, overrun := false, rxtErr := false, err := .ok
      ie := 0, baud := 9600, txDly := 2000, txUnit := 0, txLen := 0, txTid := 0
      rxUnit := 0, rxLen := 0, rxTid := 0, rxPid := 0
      cntRxOk := 0, cntFrameErr := 0, cntCrcErr := 0, cntOverrun := 0
      rxs := .disabled, rxAsm := [], rxNib := none, tRxLast := s.t, tLine := s.t, txs := .idle
      crcAcc := 0xFFFF, lrcSum := 0
      t := s.t, mem := s.mem, ramDraw := s.ramDraw
      inputs := s.inputs, lineOut := s.lineOut, hostResp := s.hostResp }

/-! ## Host bus -/

/-- A read returns what the offset reads as and changes nothing of the block (20_memory.md R90). -/
def Obligations.ReadChangesNothing : Prop :=
  ∀ (s : State) (off : Nat) (rest : List Event), legalOffset off →
    s.inputs = .busRead .word off :: rest →
      step s = .next { s with inputs := rest, hostResp := .data (readTarget (targetAt off) s) }

/-- What every register and RAM entry reads as, in numbers (10_state.md R32-R52, 60_exceptions.md R371).
(`ReservedOffsetsReadZero` states the other offsets.) -/
def Obligations.RegisterReadValues : Prop :=
  ∀ s : State,
    let value := fun off => (readTarget (targetAt off) s).toNat
    value 0x000 = 0x4D420001
      ∧ value 0x004
          = (match s.mode with | .rtu => 0 | .ascii => 1 | .stream => 2) + 16 * s.charBits.toNat
      ∧ value 0x008
          = s.rxValid.toNat + 2 * (decide (s.txs ≠ .idle)).toNat + 4 * s.txDone.toNat
            + 8 * s.rxErr.toNat + 16 * s.overrun.toNat + 32 * s.rxtErr.toNat
            + 64 * (match s.rxs with
              | .disabled => 0 | .idle => 1 | .receiving => 2 | .gotCr => 2 | .error => 3)
            + 256 * (match s.err with
              | .ok => 0 | .illegalCmd => 1 | .busy => 2 | .malformed => 3 | .range => 4
              | .unsupportedFc => 5 | .noFrame => 6 | .locked => 7)
      ∧ value 0x00C = (s.ie &&& 0b111101).toNat
      ∧ value 0x010 = 0
      ∧ value 0x014 = s.crcAcc.toNat
      ∧ value 0x018 = 256 * s.lrcSum.toNat + (256 - s.lrcSum.toNat) % 256
      ∧ value 0x01C = s.baud.toNat ∧ value 0x020 = s.txDly.toNat
      ∧ value 0x024 = s.txUnit.toNat ∧ value 0x028 = s.txLen.toNat
      ∧ value 0x02C = s.txTid.toNat ∧ value 0x030 = s.rxUnit.toNat
      ∧ value 0x034 = s.rxLen.toNat ∧ value 0x038 = s.rxTid.toNat
      ∧ value 0x03C = s.rxPid.toNat ∧ value 0x040 = s.t % 2 ^ 32
      ∧ value 0x044 = s.cntRxOk.toNat ∧ value 0x048 = s.cntFrameErr.toNat
      ∧ value 0x04C = s.cntCrcErr.toNat ∧ value 0x050 = s.cntOverrun.toNat
      ∧ (∀ i, i < 256 → value (0x1000 + 4 * i) = (s.readByte (0x1000 + 4 * i)).toNat)
      ∧ (∀ i, i < 256 → value (0x1400 + 4 * i) = (s.readByte (0x1400 + 4 * i)).toNat)
      ∧ ∀ i, i < 2048 → value (0x4000 + 4 * i) = (s.msg i).toNat

/-- A host access inside the aperture of the wrong size or alignment gets the bus-error response and
changes no state of the block; no other access inside the aperture gets a bus error
(60_exceptions.md R372). -/
def Obligations.BusErrorChangesNothing : Prop :=
  ∀ (s : State) (size : AccessSize) (off : Nat) (v : Word) (rest : List Event),
    off < 0x8000 →
    (s.inputs = .busRead size off :: rest ∨ s.inputs = .busWrite size off v :: rest) →
      ((size ≠ .word ∨ off % 4 ≠ 0) →
          step s = .next { s with inputs := rest, hostResp := .busError })
        ∧ (size = .word → off % 4 = 0 →
          ∃ t, step s = .next t ∧ t.inputs = rest
            ∧ (t.hostResp = .done ∨ ∃ w, t.hostResp = .data w))

/-- The block does not respond to a host access outside the aperture and goes on unchanged
(20_memory.md R92); what the host sees is left to the platform (log 6). -/
def Obligations.OutsideApertureChangesNothing : Prop :=
  ∀ (s : State) (size : AccessSize) (off : Nat) (v : Word) (rest : List Event),
    0x8000 ≤ off →
    (s.inputs = .busRead size off :: rest ∨ s.inputs = .busWrite size off v :: rest) →
      step s = .next { s with inputs := rest, hostResp := .noResponse }

/-- Reserved offsets read as 0 and ignore writes (10_state.md R53). -/
def Obligations.ReservedOffsetsReadZero : Prop :=
  ∀ (s : State) (off : Nat) (v : Word) (rest : List Event),
    off % 4 = 0 →
    ((0x054 ≤ off ∧ off ≤ 0x0FFC) ∨ (0x1800 ≤ off ∧ off ≤ 0x3FFC) ∨ (0x6000 ≤ off ∧ off ≤ 0x7FFC)) →
      (s.inputs = .busRead .word off :: rest →
          step s = .next { s with inputs := rest, hostResp := .data 0 })
        ∧ (writesNext s off v rest →
          step s = .next { s with inputs := rest, hostResp := .done })

/-- The lock (10_state.md R54): CFG, BAUD and TXDLY writes while the receiver is enabled or the
transmitter busy only set ERR to LOCKED; unlocked ones set ERR to 0; no other register write changes
ERR. -/
def Obligations.LockedRegisterWrites : Prop :=
  ∀ (s : State) (off : Nat) (v : Word) (rest : List Event), writesNext s off v rest →
    ((off = 0x004 ∨ off = 0x01C ∨ off = 0x020) →
        ((s.rxs ≠ .disabled ∨ s.txs ≠ .idle) →
            step s = .next { s with inputs := rest, hostResp := .done, err := .locked })
          ∧ ((s.rxs = .disabled ∧ s.txs = .idle) → ∃ t, step s = .next t ∧ t.err = .ok))
      ∧ (off ≠ 0x004 → off ≠ 0x01C → off ≠ 0x020 → off ≠ 0x010 →
          ∀ t, step s = .next t → t.err = s.err)

/-- Unlocked writes to CFG, BAUD and TXDLY (10_state.md R33, R39, R40): an illegal field value leaves its
field unchanged, each field judged alone. -/
def Obligations.ConfigurationWrites : Prop :=
  ∀ (s : State) (v : Word) (rest : List Event), s.rxs = .disabled → s.txs = .idle →
    (writesNext s 0x004 v rest →
        step s = .next { s with
          inputs := rest
          hostResp := .done
          err := .ok
          mode := if v.toNat % 4 = 0 then .rtu else if v.toNat % 4 = 1 then .ascii
            else if v.toNat % 4 = 2 then .stream else s.mode
          charBits := if 7 ≤ v.toNat / 16 % 16 ∧ v.toNat / 16 % 16 ≤ 12
            then BitVec.ofNat 4 (v.toNat / 16 % 16) else s.charBits })
      ∧ (writesNext s 0x01C v rest →
        step s = .next { s with
          inputs := rest, hostResp := .done, err := .ok, baud := if v = 0 then s.baud else v })
      ∧ (writesNext s 0x020 v rest →
        step s = .next { s with inputs := rest, hostResp := .done, err := .ok, txDly := v })

/-- A host write to STATUS clears each W1C bit i (2..5) with `v[i] = 1` and changes nothing else
(10_state.md R37). -/
def Obligations.StatusWriteClearsOnlyOnes : Prop :=
  ∀ (s : State) (v : Word) (rest : List Event), writesNext s 0x008 v rest →
    step s = .next { s with
      inputs := rest
      hostResp := .done
      txDone := s.txDone && !v.toNat.testBit 2
      rxErr := s.rxErr && !v.toNat.testBit 3
      overrun := s.overrun && !v.toNat.testBit 4
      rxtErr := s.rxtErr && !v.toNat.testBit 5 }

/-- Writes to IE, TXUNIT, TXLEN and TXTID store the bits of the field's width, a write to a counter
clears it, and writes to read-only registers change nothing (10_state.md R32, R35, R36, R38, R41-R49). -/
def Obligations.PlainRegisterWrites : Prop :=
  ∀ (s : State) (v : Word) (rest : List Event),
    let done := { s with inputs := rest, hostResp := .done }
    (writesNext s 0x00C v rest →
        step s = .next { done with ie := BitVec.ofNat 6 (v.toNat % 64) &&& 0b111101 })
      ∧ (writesNext s 0x024 v rest →
        step s = .next { done with txUnit := BitVec.ofNat 8 (v.toNat % 256) })
      ∧ (writesNext s 0x028 v rest →
        step s = .next { done with txLen := BitVec.ofNat 9 (v.toNat % 512) })
      ∧ (writesNext s 0x02C v rest →
        step s = .next { done with txTid := BitVec.ofNat 16 (v.toNat % 65536) })
      ∧ (writesNext s 0x044 v rest → step s = .next { done with cntRxOk := 0 })
      ∧ (writesNext s 0x048 v rest → step s = .next { done with cntFrameErr := 0 })
      ∧ (writesNext s 0x04C v rest → step s = .next { done with cntCrcErr := 0 })
      ∧ (writesNext s 0x050 v rest → step s = .next { done with cntOverrun := 0 })
      ∧ ∀ off ∈ [0x000, 0x014, 0x018, 0x030, 0x034, 0x038, 0x03C, 0x040],
          writesNext s off v rest → step s = .next done

/-- Host writes to the RAMs (10_state.md R50-R52): TXBUF[i] takes the low byte, MSG[i] every bit, RXBUF
ignores the write; no other RAM byte and no register changes. -/
def Obligations.RamWritesReadBack : Prop :=
  ∀ (s : State) (i : Nat) (v : Word) (rest : List Event),
    (i < 256 → writesNext s (0x1000 + 4 * i) v rest →
        ∃ t, step s = .next t
          ∧ t = { s with mem := t.mem, inputs := rest, hostResp := .done }
          ∧ t.txbuf i = BitVec.ofNat 8 (v.toNat % 256)
          ∧ ∀ a, a ≠ 0x1000 + 4 * i → t.readByte a = s.readByte a)
      ∧ (i < 256 → writesNext s (0x1400 + 4 * i) v rest →
        step s = .next { s with inputs := rest, hostResp := .done })
      ∧ (i < 2048 → writesNext s (0x4000 + 4 * i) v rest →
        ∃ t, step s = .next t
          ∧ t = { s with mem := t.mem, inputs := rest, hostResp := .done }
          ∧ t.msg i = v
          ∧ ∀ a, a < 0x4000 + 4 * i ∨ 0x4000 + 4 * i + 4 ≤ a → t.readByte a = s.readByte a)

/-- IRQ is high exactly when an enabled source's STATUS bit is set; TXBUSY is never a source
(60_exceptions.md R385). -/
def Obligations.IrqIsAnEnabledSource : Prop :=
  ∀ s : State,
    s.irq = true ↔
      (s.rxValid = true ∧ s.ie.getLsbD 0 = true) ∨ (s.txDone = true ∧ s.ie.getLsbD 2 = true)
        ∨ (s.rxErr = true ∧ s.ie.getLsbD 3 = true) ∨ (s.overrun = true ∧ s.ie.getLsbD 4 = true)
        ∨ (s.rxtErr = true ∧ s.ie.getLsbD 5 = true)

/-! ## Checksums -/

/-- The four accumulator commands (41_checksum.md R250-R253): each changes its accumulator and ERR, and
nothing else. The CRC step is eight shifts of the right-shifting register with 0xA001 (R241). -/
def Obligations.ChecksumCommandEffects : Prop :=
  ∀ (s : State) (b : Byte),
    exec .crcInit s = .next { s with crcAcc := 0xFFFF, err := .ok }
      ∧ exec (.crcFeed b) s = .next { s with
          err := .ok
          crcAcc := (fun c : Half => if c.getLsbD 0 then (c >>> 1) ^^^ 0xA001 else c >>> 1)^[8]
            (s.crcAcc ^^^ b.setWidth 16) }
      ∧ exec .lrcInit s = .next { s with lrcSum := 0, err := .ok }
      ∧ exec (.lrcFeed b) s = .next { s with
          err := .ok, lrcSum := BitVec.ofNat 8 ((s.lrcSum.toNat + b.toNat) % 256) }

/-- After CRC.INIT and CRC.FEED of xs in order, CRC equals crc16(xs); after LRC.INIT and LRC.FEED of xs,
the sum is sum(xs) mod 256 and the LRC register's low byte lrc(xs) (41_checksum.md R251, R253). -/
def Obligations.FedBytesGiveChecksums : Prop :=
  ∀ (s : State) (xs : List Byte) (rest : List Event),
    (s.inputs = .busWrite .word 0x010 0x00000001
        :: (xs.map fun b => Event.busWrite .word 0x010 (BitVec.ofNat 32 (2 + 256 * b.toNat)))
        ++ rest →
      core.run (xs.length + 1) s = .next { s with
        crcAcc := crc16 xs, err := .ok, hostResp := .done, inputs := rest })
    ∧ (s.inputs = .busWrite .word 0x010 0x00000003
        :: (xs.map fun b => Event.busWrite .word 0x010 (BitVec.ofNat 32 (4 + 256 * b.toNat)))
        ++ rest →
      ∃ t, core.run (xs.length + 1) s = .next t
        ∧ t = { s with lrcSum := t.lrcSum, err := .ok, hostResp := .done, inputs := rest }
        ∧ t.lrcSum.toNat = (xs.map BitVec.toNat).sum % 256
        ∧ (readRegister .lrc t).extractLsb' 0 8 = lrc xs)

/-- Residue property (41_checksum.md R243): a frame with its CRC appended, low byte first, has CRC 0, and
a frame of at least 2 bytes passes the check exactly when its CRC is 0. -/
def Obligations.CrcResidueIsZero : Prop :=
  (∀ xs : List Byte, crc16 (xs ++ le16 (crc16 xs)) = 0)
    ∧ ∀ fr : List Byte, 2 ≤ fr.length → (crcOk fr = true ↔ crc16 fr = 0)

/-- LRC property (41_checksum.md R246, R247), and the check of a decoded ASCII frame (R248, an inference
that the spec marks as its own). -/
def Obligations.LrcMakesTheSumZero : Prop :=
  (∀ xs : List Byte, ((xs.map BitVec.toNat).sum + (lrc xs).toNat) % 256 = 0)
    ∧ ∀ fr : List Byte, 1 ≤ fr.length →
        (lrcOk fr = true ↔ (fr.map BitVec.toNat).sum % 256 = 0)

/-- The accumulators change only by their own commands and the two resets (10_state.md R35, R36;
41_checksum.md R254). -/
def Obligations.AccumulatorsChangeOnlyByCommand : Prop :=
  ∀ s t : State, step s = .next t → nextEvent s ≠ .reset → ¬ issuesSoftReset s →
    ((∀ v, nextEvent s = .busWrite .word 0x010 v →
        decode (.command v) ≠ .ok .crcInit ∧ ∀ b, decode (.command v) ≠ .ok (.crcFeed b)) →
      t.crcAcc = s.crcAcc)
    ∧ ((∀ v, nextEvent s = .busWrite .word 0x010 v →
        decode (.command v) ≠ .ok .lrcInit ∧ ∀ b, decode (.command v) ≠ .ok (.lrcFeed b)) →
      t.lrcSum = s.lrcSum)

/-! ## Control -/

/-- NOP, RX.ENABLE, RX.RELEASE and RX.DISABLE (43_control.md R340-R343), with everything each leaves
unchanged. -/
def Obligations.ControlCommandEffects : Prop :=
  ∀ s : State,
    exec .nop s = .next { s with err := .ok }
      ∧ exec .rxRelease s = .next { s with rxValid := false, err := .ok }
      ∧ exec .rxDisable s
          = .next { s with rxAsm := [], rxNib := none, rxs := .disabled, err := .ok }
      ∧ (s.rxs ≠ .disabled → exec .rxEnable s = .next { s with err := .ok })
      ∧ (s.rxs = .disabled → s.mode = .rtu →
          exec .rxEnable s = .next { s with
            rxAsm := [], rxNib := none, rxs := .error, tRxLast := s.t, err := .ok })
      ∧ (s.rxs = .disabled → s.mode ≠ .rtu →
          exec .rxEnable s = .next { s with
            rxAsm := [], rxNib := none, rxs := .idle, err := .ok })

/-! ## Codec -/

/-- ENCODE of a descriptor that packs stores the message's PDU, 1 to 253 bytes, and nothing else
(40_codec.md R162). -/
def Obligations.EncodeStoresThePdu : Prop :=
  ∀ (dir : Dir) (s : State) (m : Message), readDescriptor dir s.msg = .ok m →
    PackedAs s (packMessage m) (exec (encodeInstr dir) s)
      ∧ 1 ≤ (packMessage m).length ∧ (packMessage m).length ≤ 253

/-- DECODE of a held PDU that unpacks stores the message's descriptor words and nothing else
(40_codec.md R163). -/
def Obligations.DecodeStoresTheDescriptor : Prop :=
  ∀ (dir : Dir) (s : State) (m : Message), s.rxValid = true →
    unpackPdu dir s.rxPdu = .ok m →
      UnpackedAs s (descriptorWords m) (exec (decodeInstr dir) s)

/-- The rows of fixed layout (40_codec.md R170, R172, R174, R175, R177, R179, R183, R185, R187): their
bytes in TXBUF when packed, their words in MSG when unpacked. -/
def Obligations.FixedLayoutRows : Prop :=
  ∀ (s : State) (a b c : Half) (fc7 : BitVec 7) (code : Byte),
    (∀ r ∈ ([(0x01, Instr.pduReq01), (0x02, .pduReq02), (0x03, .pduReq03), (0x04, .pduReq04),
          (0x05, .pduReq05), (0x06, .pduReq06), (0x05, .pduRsp05), (0x06, .pduRsp06),
          (0x0F, .pduRsp0F), (0x10, .pduRsp10)] :
          List (Byte × (CodecOp → Half → Half → Instr))),
        PackedAs s [r.1, hi8 a, lo8 a, hi8 b, lo8 b] (exec (r.2 .pack a b) s)
          ∧ UnpackedAs s [(0, r.1.setWidth 32), (1, a.setWidth 32), (2, b.setWidth 32)]
              (exec (r.2 .unpack a b) s))
      ∧ (∀ r ∈ [Instr.pduReq16, Instr.pduRsp16],
          PackedAs s [0x16, hi8 a, lo8 a, hi8 b, lo8 b, hi8 c, lo8 c] (exec (r .pack a b c) s)
            ∧ UnpackedAs s [(0, 0x16), (1, a.setWidth 32), (2, b.setWidth 32), (3, c.setWidth 32)]
                (exec (r .unpack a b c) s))
      ∧ PackedAs s [0x18, hi8 a, lo8 a] (exec (.pduReq18 .pack a) s)
      ∧ UnpackedAs s [(0, 0x18), (1, a.setWidth 32)] (exec (.pduReq18 .unpack a) s)
      ∧ PackedAs s [BitVec.ofNat 8 (128 + fc7.toNat), code] (exec (.pduRspExc .pack fc7 code) s)
      ∧ UnpackedAs s [(0, BitVec.ofNat 32 (128 + fc7.toNat)), (1, code.setWidth 32)]
          (exec (.pduRspExc .unpack fc7 code) s)

/-- The rows that carry a register list (40_codec.md R173, R178, R184, R186). -/
def Obligations.RegisterListRows : Prop :=
  ∀ (s : State) (a q w k : Half) (vs : List Half),
    let els := elementWords (vs.map fun v => v.setWidth 32)
    let n := vs.length
    (n ≤ 125 → ∀ r ∈ ([(0x03, Instr.pduRsp03), (0x04, .pduRsp04), (0x17, .pduRsp17)] :
        List (Byte × (CodecOp → List Half → Instr))),
        PackedAs s (r.1 :: BitVec.ofNat 8 (2 * n) :: wireBytes vs) (exec (r.2 .pack vs) s)
          ∧ UnpackedAs s ((0, r.1.setWidth 32) :: (1, BitVec.ofNat 32 n) :: els)
              (exec (r.2 .unpack vs) s))
      ∧ (n ≤ 123 →
          PackedAs s
              (0x10 :: hi8 a :: lo8 a :: hi8 q :: lo8 q :: BitVec.ofNat 8 (2 * n) :: wireBytes vs)
              (exec (.pduReq10 .pack a q vs) s)
            ∧ UnpackedAs s
              ((0, 0x10) :: (1, a.setWidth 32) :: (2, q.setWidth 32)
                :: (3, BitVec.ofNat 32 (2 * n)) :: els)
              (exec (.pduReq10 .unpack a q vs) s))
      ∧ (n ≤ 121 →
          PackedAs s
              (0x17 :: hi8 a :: lo8 a :: hi8 q :: lo8 q :: hi8 w :: lo8 w :: hi8 k :: lo8 k
                :: BitVec.ofNat 8 (2 * n) :: wireBytes vs)
              (exec (.pduReq17 .pack a q w k vs) s)
            ∧ UnpackedAs s
              ((0, 0x17) :: (1, a.setWidth 32) :: (2, q.setWidth 32) :: (3, w.setWidth 32)
                :: (4, k.setWidth 32) :: (5, BitVec.ofNat 32 (2 * n)) :: els)
              (exec (.pduReq17 .unpack a q w k vs) s))
      ∧ (n ≤ 124 →
          PackedAs s
              (0x18 :: hi8 (BitVec.ofNat 16 (2 + 2 * n)) :: lo8 (BitVec.ofNat 16 (2 + 2 * n))
                :: hi8 (BitVec.ofNat 16 n) :: lo8 (BitVec.ofNat 16 n) :: wireBytes vs)
              (exec (.pduRsp18 .pack vs) s)
            ∧ UnpackedAs s ((0, 0x18) :: (1, BitVec.ofNat 32 n) :: els)
                (exec (.pduRsp18 .unpack vs) s))

/-- The rows that carry coil bits (40_codec.md R171, R176), bits in whole bytes. -/
def Obligations.CoilRows : Prop :=
  ∀ (s : State) (a q : Half) (bits : List Bool), bits.length % 8 = 0 →
    let els := elementWords (bits.map fun b => if b then 1 else 0)
    let bc := bits.length / 8
    (bc ≤ 251 → ∀ r ∈ ([(0x01, Instr.pduRsp01), (0x02, .pduRsp02)] :
        List (Byte × (CodecOp → List Bool → Instr))),
        PackedAs s (r.1 :: BitVec.ofNat 8 bc :: packBits bits) (exec (r.2 .pack bits) s)
          ∧ UnpackedAs s ((0, r.1.setWidth 32) :: (1, BitVec.ofNat 32 (8 * bc)) :: els)
              (exec (r.2 .unpack bits) s))
      ∧ (bc ≤ 247 →
          PackedAs s
              (0x0F :: hi8 a :: lo8 a :: hi8 q :: lo8 q :: BitVec.ofNat 8 bc :: packBits bits)
              (exec (.pduReq0F .pack a q bits) s)
            ∧ UnpackedAs s
              ((0, 0x0F) :: (1, a.setWidth 32) :: (2, q.setWidth 32) :: (3, BitVec.ofNat 32 bc)
                :: els)
              (exec (.pduReq0F .unpack a q bits) s))

/-- The file rows (40_codec.md R180-R182). -/
def Obligations.FileRows : Prop :=
  ∀ (s : State) (refs : List FileRef) (data : List FileData) (writes : List FileWrite),
    (WellFormed (.pduReq14 .pack refs) = true →
        PackedAs s
            (0x14 :: BitVec.ofNat 8 (7 * refs.length)
              :: refs.flatMap fun r => r.refType :: wireBytes [r.file, r.record, r.length])
            (exec (.pduReq14 .pack refs) s)
          ∧ UnpackedAs s
            ((0, 0x14) :: (1, BitVec.ofNat 32 refs.length)
              :: elementWords (refs.flatMap fun r => r.refType.setWidth 32
                :: [r.file, r.record, r.length].map fun v => v.setWidth 32))
            (exec (.pduReq14 .unpack refs) s))
      ∧ (WellFormed (.pduRsp14 .pack data) = true →
        PackedAs s
            (0x14 :: BitVec.ofNat 8 (fileDataSize data)
              :: data.flatMap fun d =>
                BitVec.ofNat 8 (1 + 2 * d.values.length) :: d.refType :: wireBytes d.values)
            (exec (.pduRsp14 .pack data) s)
          ∧ UnpackedAs s
            ((0, 0x14) :: (1, BitVec.ofNat 32 data.length)
              :: elementWords (data.flatMap fun d => BitVec.ofNat 32 d.values.length
                :: d.refType.setWidth 32 :: d.values.map fun v => v.setWidth 32))
            (exec (.pduRsp14 .unpack data) s))
      ∧ (WellFormed (.pduReq15 .pack writes) = true → ∀ r ∈ [Instr.pduReq15, Instr.pduRsp15],
        PackedAs s
            (0x15 :: BitVec.ofNat 8 (fileWriteSize writes)
              :: writes.flatMap fun d => d.refType
                :: wireBytes (d.file :: d.record :: BitVec.ofNat 16 d.values.length :: d.values))
            (exec (r .pack writes) s)
          ∧ UnpackedAs s
            ((0, 0x15) :: (1, BitVec.ofNat 32 writes.length)
              :: elementWords (writes.flatMap fun d =>
                d.refType.setWidth 32 :: d.file.setWidth 32 :: d.record.setWidth 32
                  :: BitVec.ofNat 32 d.values.length :: d.values.map fun v => v.setWidth 32))
            (exec (r .unpack writes) s))

/-- Round trip (40_codec.md R166): what a descriptor packs to unpacks, in the same direction, and the
words written agree with the descriptor, but for the computed byte counts and the padding of coil
bytes. -/
def Obligations.DescriptorRoundTrip : Prop :=
  ∀ (dir : Dir) (M : Nat → Word) (m : Message), readDescriptor dir M = .ok m →
    unpackPdu dir (packMessage m) = .ok m
      ∧ ∀ p ∈ descriptorWords m,
          p.2 = (match m.body with
            | .coils _ =>
              if p.1 = 1 then BitVec.ofNat 32 (8 * (((M 1).toNat + 7) / 8))
              else if 8 + (M 1).toNat ≤ p.1 then 0 else M p.1
            | .writeCoils _ _ _ =>
              if p.1 = 3 then BitVec.ofNat 32 (((M 2).toNat + 7) / 8)
              else if 8 + (M 2).toNat ≤ p.1 then 0 else M p.1
            | .writeRegs _ _ _ =>
              if p.1 = 3 then BitVec.ofNat 32 (2 * (M 2).toNat) else M p.1
            | .readWrite _ _ _ _ _ =>
              if p.1 = 5 then BitVec.ofNat 32 (2 * (M 4).toNat) else M p.1
            | _ => M p.1)

/-- The payload length table (30_encoding.md R134): a payload unpacks only at the length its layout calls
for, and what packs has that length, at most 252. -/
def Obligations.PayloadLengthMatchesTable : Prop :=
  (∀ (l : Layout) (p : List Byte) (body : Payload), unpackPayload l p = .ok body →
      p.length = payloadLength l p)
    ∧ ∀ (dir : Dir) (M : Nat → Word) (m : Message), readDescriptor dir M = .ok m →
        ∃ l, layoutOf dir m.fc = some l
          ∧ (packPayload m.body).length = payloadLength l (packPayload m.body)
          ∧ (packPayload m.body).length ≤ 252

/-- Reserved function codes (30_encoding.md R135): ENCODE and DECODE of one end with UNSUPPORTED_FC and
change nothing else; in the response direction every code 0x80..0xFF is an exception response. -/
def Obligations.ReservedFunctionCodes : Prop :=
  (∀ (dir : Dir) (fc : Byte) (s : State), reservedCode dir fc →
      (s.msg 0 = fc.setWidth 32 →
          exec (encodeInstr dir) s = .next { s with err := .unsupportedFc })
        ∧ (s.rxValid = true → s.rxPdu.head? = some fc →
          exec (decodeInstr dir) s = .next { s with err := .unsupportedFc }))
    ∧ ∀ (op : CodecOp) (fc code : Byte), 0x80 ≤ fc.toNat →
        decode (.pdu op .response [fc, code])
          = .ok (.pduRspExc op (BitVec.ofNat 7 (fc.toNat - 0x80)) code)

/-- ENCODE rejects with RANGE exactly what does not fit (40_codec.md R160, R164, R170-R187;
60_exceptions.md R380): header bits 31:8, before the function code is looked at; then, in every layout, a
field, element, count or length beyond its limit (`PackFails`, in numbers). It changes nothing but ERR.
Every other descriptor of a supported function code packs. -/
def Obligations.EncodeRejectsWideFields : Prop :=
  ∀ (dir : Dir) (s : State),
    (0x100 ≤ (s.msg 0).toNat → exec (encodeInstr dir) s = .next { s with err := .range })
      ∧ (∀ (fc : Byte) (l : Layout), s.msg 0 = fc.setWidth 32 → layoutOf dir fc = some l →
          (PackFails s.msg l → exec (encodeInstr dir) s = .next { s with err := .range })
            ∧ (¬ PackFails s.msg l → ∃ m, readDescriptor dir s.msg = .ok m ∧ m.fc = fc
                ∧ PackedAs s (packMessage m) (exec (encodeInstr dir) s)))

/-- A descriptor that fits packs (40_codec.md R160, R162, R170-R187): for every well-formed PDU row, of every
layout, and every state whose MSG describes its message, ENCODE runs that row and stores its bytes. -/
def Obligations.FittingDescriptorPacks : Prop :=
  ∀ (dir : Dir) (s : State) (i : Instr) (pdu : List Byte) (m : Message),
    WellFormed i = true → encode i = .pdu .pack dir pdu → unpackPdu dir pdu = .ok m →
    Describes s.msg m →
      readDescriptor dir s.msg = .ok m ∧ exec (encodeInstr dir) s = exec i s
        ∧ PackedAs s pdu (exec (encodeInstr dir) s)

/-! ## Transmitter -/

/-- TX.SEND (42_framing.md R299, R300): BUSY, then RANGE, with no other change; in STREAM mode the whole
frame at once; else the frame is latched, and starts at once if the line has been silent long enough. -/
def Obligations.TxSendLatchesTheFrame : Prop :=
  ∀ s : State,
    (s.txs ≠ .idle → exec .txSend s = .next { s with err := .busy })
      ∧ (s.txs = .idle → s.txLen.toNat < 1 ∨ 253 < s.txLen.toNat →
          exec .txSend s = .next { s with err := .range })
      ∧ (s.txs = .idle → 1 ≤ s.txLen.toNat → s.txLen.toNat ≤ 253 → s.mode = .stream →
          exec .txSend s = .next { s with
            err := .ok
            txDone := true
            lineOut := s.lineOut ++ (streamFrame s.txTid s.txBody).map fun c => (s.t, c) })
      ∧ (s.txs = .idle → 1 ≤ s.txLen.toNat → s.txLen.toNat ≤ 253 → s.mode ≠ .stream →
          RegisterInv s →
          let f := if s.mode = .rtu then rtuFrame s.txBody else asciiFrame s.txBody
          let silence := s.t - s.tLine
          exec .txSend s = .next
            (if s.txDly.toNat ≤ silence
                ∧ (s.mode = .rtu →
                    7 * (1000000 * s.charBits.toNat) ≤ 2 * silence * s.baud.toNat)
              then { s with
                err := .ok
                txs := .send f s.t
                lineOut := s.lineOut ++ (f.take 1).map fun c => (s.t, c) }
              else { s with err := .ok, txs := .wait f s.t }))

/-- The three frames (42_framing.md R271, R272, R273, R274): lengths and every byte. -/
def Obligations.FrameLayouts : Prop :=
  ∀ s : State, 1 ≤ s.txLen.toNat → s.txLen.toNat ≤ 253 →
    let n := s.txLen.toNat
    let body := s.txBody
    let rtu := rtuFrame body
    let ascii := asciiFrame body
    let stream := streamFrame s.txTid body
    let digit := fun v => (BitVec.ofNat 8 (if v ≤ 9 then 0x30 + v else 0x37 + v) : Byte)
    (body.length = n + 1 ∧ body[0]? = some s.txUnit ∧ ∀ k, k < n → body[k + 1]? = some (s.txbuf k))
      ∧ (rtu.length = n + 3 ∧ rtu.take (n + 1) = body
        ∧ rtu[n + 1]? = some (lo8 (crc16 body)) ∧ rtu[n + 2]? = some (hi8 (crc16 body)))
      ∧ (ascii.length = 2 * n + 7 ∧ ascii[0]? = some 0x3A
        ∧ ascii[2 * n + 5]? = some 0x0D ∧ ascii[2 * n + 6]? = some 0x0A
        ∧ ∀ k b, (body ++ [lrc body])[k]? = some b →
            ascii[2 * k + 1]? = some (digit (b.toNat / 16))
              ∧ ascii[2 * k + 2]? = some (digit (b.toNat % 16)))
      ∧ (stream.length = n + 7
        ∧ stream.take 6 = [hi8 s.txTid, lo8 s.txTid, 0, 0, hi8 (BitVec.ofNat 16 (n + 1)),
            lo8 (BitVec.ofNat 16 (n + 1))]
        ∧ stream.drop 6 = body)

/-- A waiting transmission starts at the first Tick at which the turnaround delay, and in RTU mode 3.5
character times of silence, have passed since the last character on the line (42_framing.md R300). -/
def Obligations.TickStartsWaitingTransmission : Prop :=
  ∀ (s : State) (c : Byte) (cs : List Byte) (tCmd : Nat) (rest : List Event), RegisterInv s →
    s.txs = .wait (c :: cs) tCmd → s.inputs = .tick :: rest →
      ∃ t, step s = .next t ∧ t.t = s.t + 1 ∧ t.tLine = s.tLine ∧ t.txDone = s.txDone
        ∧ if s.txDly.toNat ≤ s.t + 1 - s.tLine
              ∧ (s.mode = .rtu →
                  7 * (1000000 * s.charBits.toNat) ≤ 2 * (s.t + 1 - s.tLine) * s.baud.toNat)
          then t.txs = .send (c :: cs) (s.t + 1) ∧ t.lineOut = s.lineOut ++ [(s.t + 1, c)]
          else t.txs = .wait (c :: cs) tCmd ∧ t.lineOut = s.lineOut

/-- A started transmission (42_framing.md R300) emits character k exactly `ceil(k*K/BAUD)` after its start
and ends `ceil(m*K/BAUD)` after it, with TXDONE set, TXBUSY 0 and `t_line` at its end. -/
def Obligations.TransmissionRunsToItsEnd : Prop :=
  ∀ (s : State) (f : List Byte) (rest : List Event), RegisterInv s → f ≠ [] →
    s.txs = .send f s.t →
    let start := fun k => (k * (1000000 * s.charBits.toNat) + s.baud.toNat - 1) / s.baud.toNat
    s.inputs = List.replicate (start f.length) .tick ++ rest →
      ∃ t, core.run (start f.length) s = .next t ∧ t.inputs = rest
        ∧ t.txs = .idle ∧ t.txDone = true ∧ t.t = s.t + start f.length
        ∧ t.tLine = s.t + start f.length
        ∧ t.lineOut = s.lineOut ++ (f.zipIdx.drop 1).map fun p => (s.t + start p.2, p.1)

/-! ## Receiver -/

/-- The three gap classes (42_framing.md R281), each by its inequality; exactly one holds for every d. -/
def Obligations.GapClassesAreExclusive : Prop :=
  ∀ (s : State) (d : Nat), 7 ≤ s.charBits.toNat →
    let k := s.charBits.toNat * 10 ^ 6
    (s.gapOk d = true ↔ 2 * d * s.baud.toNat ≤ 5 * k)
      ∧ (s.gapErr d = true ↔ 5 * k < 2 * d * s.baud.toNat ∧ 2 * d * s.baud.toNat < 9 * k)
      ∧ (s.gapEof d = true ↔ 9 * k ≤ 2 * d * s.baud.toNat)
      ∧ ((s.gapOk d = true ∧ s.gapErr d = false ∧ s.gapEof d = false)
      ∨ (s.gapOk d = false ∧ s.gapErr d = true ∧ s.gapEof d = false)
      ∨ (s.gapOk d = false ∧ s.gapErr d = false ∧ s.gapEof d = true))

/-- RTU receive of a character (42_framing.md R280, R291), state by state, with legal register values
(R33; `StepKeepsTheInvariant` says that every run keeps them). -/
def Obligations.RtuReceiveCases : Prop :=
  ∀ (s : State) (b : Byte) (rest : List Event), RegisterInv s → s.mode = .rtu → s.inputs = .rxChar b :: rest →
    let s0 := { s with inputs := rest, tLine := s.t }
    let silence := 2 * (s.t - s.tRxLast) * s.baud.toNat
    let k := 1000000 * s.charBits.toNat
    let lost := { s0 with
      rxAsm := [], rxNib := none, rxErr := true, cntFrameErr := s.cntFrameErr + 1
      rxs := .error, tRxLast := s.t }
    (s.rxs = .disabled → step s = .next s0)
      ∧ (s.rxs = .idle →
          step s = .next { s0 with rxAsm := [b], rxs := .receiving, tRxLast := s.t })
      ∧ (s.rxs = .receiving → silence ≤ 5 * k → s.rxAsm.length ≠ 256 →
          step s = .next { s0 with rxAsm := s.rxAsm ++ [b], tRxLast := s.t })
      ∧ (s.rxs = .receiving → silence ≤ 5 * k → s.rxAsm.length = 256 → step s = .next lost)
      ∧ (s.rxs = .receiving → 5 * k < silence → silence < 9 * k → step s = .next lost)
      ∧ (s.rxs = .receiving → 9 * k ≤ silence →
          step s = .next { completeRtu s0 with rxAsm := [b], rxs := .receiving, tRxLast := s.t })
      ∧ (s.rxs = .error → silence < 9 * k → step s = .next { s0 with tRxLast := s.t })
      ∧ (s.rxs = .error → 9 * k ≤ silence →
          step s = .next { s0 with rxAsm := [b], rxs := .receiving, tRxLast := s.t })

/-- The RTU time check (42_framing.md R282, R283): 4.5 character times after its last character a frame is
complete, and is delivered, dropped as an overrun, or discarded as short or for its CRC; before, a Tick
leaves the receiver as it is. Only the transmitter's items are left open here. -/
def Obligations.RtuFrameCompletesAfterSilence : Prop :=
  ∀ (s : State) (rest : List Event), s.mode = .rtu → s.rxs = .receiving →
    s.rxAsm.length ≤ 256 → s.inputs = .tick :: rest →
    let silence := 2 * (s.t + 1 - s.tRxLast) * s.baud.toNat
    let k := 1000000 * s.charBits.toNat
    let n := s.rxAsm.length
    let s0 := { s with inputs := rest, t := s.t + 1 }
    let ended := { s0 with rxs := .idle, rxAsm := [], rxNib := none }
    ∃ t, step s = .next t
      ∧ (silence < 9 * k → UpToTransmitter t s0)
      ∧ (9 * k ≤ silence →
          (n < 4 →
              UpToTransmitter t { ended with rxErr := true, cntFrameErr := s.cntFrameErr + 1 })
            ∧ (4 ≤ n → crcOk s.rxAsm = false →
                UpToTransmitter t { ended with rxErr := true, cntCrcErr := s.cntCrcErr + 1 })
            ∧ (4 ≤ n → crcOk s.rxAsm = true → s.rxValid = true →
                UpToTransmitter t { ended with overrun := true, cntOverrun := s.cntOverrun + 1 })
            ∧ (4 ≤ n → crcOk s.rxAsm = true → s.rxValid = false →
                UpToTransmitter t { ended with
                    mem := t.mem, rxUnit := s.rxAsm.getD 0 0, rxLen := BitVec.ofNat 9 (n - 3)
                    rxTid := 0, rxPid := 0, rxValid := true, cntRxOk := s.cntRxOk + 1 }
                  ∧ (∀ i, i < n - 3 → s.rxAsm[i + 1]? = some (t.rxbuf i))
                  ∧ ∀ a, (∀ i, i < n - 3 → a ≠ rxbufAddr i) → t.readByte a = s.readByte a))

/-- A Tick outside a frame (42_framing.md R282): in RTU mode ERROR ends 4.5 character times after the last
character, and not before; every other receiver state, and every state in ASCII and STREAM modes, is left
as it is. -/
def Obligations.TickOutsideAnRtuFrame : Prop :=
  ∀ (s : State) (rest : List Event), s.inputs = .tick :: rest →
    let silence := 2 * (s.t + 1 - s.tRxLast) * s.baud.toNat
    let k := 1000000 * s.charBits.toNat
    let s0 := { s with inputs := rest, t := s.t + 1 }
    ∃ t, step s = .next t
      ∧ (s.mode = .rtu → s.rxs = .error → 9 * k ≤ silence →
          UpToTransmitter t { s0 with rxs := .idle })
      ∧ (s.mode = .rtu → s.rxs = .error → silence < 9 * k → UpToTransmitter t s0)
      ∧ (s.mode ≠ .rtu ∨ (s.rxs ≠ .error ∧ s.rxs ≠ .receiving) → UpToTransmitter t s0)

/-- ASCII receive of a character (42_framing.md R285, R286, R291), state by state. -/
def Obligations.AsciiReceiveCases : Prop :=
  ∀ (s : State) (c : Byte) (rest : List Event), s.mode = .ascii → s.inputs = .rxChar c :: rest →
    let s0 := { s with inputs := rest, tLine := s.t }
    let lost := { s0 with
      rxAsm := [], rxNib := none, rxErr := true, cntFrameErr := s.cntFrameErr + 1 }
    let hex := (0x30 ≤ c.toNat ∧ c.toNat ≤ 0x39) ∨ (0x41 ≤ c.toNat ∧ c.toNat ≤ 0x46)
    let digit := BitVec.ofNat 4 (if c.toNat ≤ 0x39 then c.toNat - 0x30 else c.toNat - 0x37)
    (s.rxs = .disabled → step s = .next s0)
      ∧ (s.rxs = .idle → c ≠ 0x3A → step s = .next s0)
      ∧ (s.rxs = .idle → c = 0x3A →
          step s = .next { s0 with rxAsm := [], rxNib := none, rxs := .receiving })
      ∧ (s.rxs = .receiving ∨ s.rxs = .gotCr → c = 0x3A →
          step s = .next { lost with rxs := .receiving })
      ∧ (s.rxs = .receiving → hex → s.rxNib = none →
          step s = .next { s0 with rxNib := some digit })
      ∧ (∀ h, s.rxs = .receiving → hex → s.rxNib = some h → s.rxAsm.length ≠ 255 →
          step s = .next { s0 with
            rxAsm := s.rxAsm ++ [BitVec.ofNat 8 (16 * h.toNat + digit.toNat)], rxNib := none })
      ∧ (∀ h, s.rxs = .receiving → hex → s.rxNib = some h → s.rxAsm.length = 255 →
          step s = .next { lost with rxs := .idle })
      ∧ (s.rxs = .receiving → c = 0x0D → step s = .next { s0 with rxs := .gotCr })
      ∧ (s.rxs = .receiving → ¬ hex → c ≠ 0x0D → c ≠ 0x3A →
          step s = .next { lost with rxs := .idle })
      ∧ (s.rxs = .gotCr → c ≠ 0x0A → c ≠ 0x3A → step s = .next { lost with rxs := .idle })
      ∧ (s.rxs = .gotCr → c = 0x0A → s.rxNib ≠ none ∨ s.rxAsm.length < 3 →
          step s = .next { lost with rxs := .idle })
      ∧ (s.rxs = .gotCr → c = 0x0A → s.rxNib = none → 3 ≤ s.rxAsm.length →
          lrcOk s.rxAsm = false →
          step s = .next { s0 with
            rxAsm := [], rxErr := true, cntCrcErr := s.cntCrcErr + 1, rxs := .idle })
      ∧ (s.rxs = .gotCr → c = 0x0A → s.rxNib = none → 3 ≤ s.rxAsm.length →
          lrcOk s.rxAsm = true →
          step s = .next { deliver (s.rxAsm.getD 0 0) (s.rxAsm.tail.dropLast) 0 0 s0 with
            rxs := .idle })

/-- STREAM receive of a byte (42_framing.md R288, R289, R291), and the end of the stream in every mode and
state (R296; that it sets `rx_nib` to NONE is 10_state.md R57, log 14). -/
def Obligations.StreamReceiveCases : Prop :=
  ∀ (s : State) (b : Byte) (rest : List Event),
    let s0 := { s with inputs := rest }
    let fr := s.rxAsm ++ [b]
    let len := 256 * (fr.getD 4 0).toNat + (fr.getD 5 0).toNat
    (s.mode = .stream → s.inputs = .rxChar b :: rest →
      (s.rxs = .disabled ∨ s.rxs = .error → step s = .next s0)
        ∧ (s.rxs = .idle → step s = .next { s0 with rxAsm := [b], rxs := .receiving })
        ∧ (s.rxs = .receiving → fr.length < 6 → step s = .next { s0 with rxAsm := fr })
        ∧ (s.rxs = .receiving → fr.length = 6 → len < 2 ∨ 254 < len →
            step s = .next { s0 with
              rxAsm := [], rxNib := none, rxErr := true, cntFrameErr := s.cntFrameErr + 1
              rxs := .error })
        ∧ (s.rxs = .receiving → 6 ≤ fr.length → 2 ≤ len → len ≤ 254 → fr.length < 6 + len →
            step s = .next { s0 with rxAsm := fr })
        ∧ (s.rxs = .receiving → 2 ≤ len → len ≤ 254 → fr.length = 6 + len →
            step s = .next { deliver (fr.getD 6 0) (fr.drop 7) (rd16 fr 0) (rd16 fr 2) s0 with
              rxs := .idle }))
    ∧ (s.inputs = .rxEos :: rest →
      (s.mode = .stream → s.rxs = .receiving →
          step s = .next { s0 with rxAsm := [], rxNib := none, rxtErr := true, rxs := .idle })
        ∧ (s.mode ≠ .stream ∨ s.rxs ≠ .receiving → step s = .next s0))

/-- Delivery (42_framing.md R290): with a frame held the new one is dropped and counted; else it is stored
in RXBUF and its registers in one step, and no other RAM byte changes. -/
def Obligations.DeliveryOrOverrun : Prop :=
  ∀ (s : State) (unit : Byte) (pdu : List Byte) (tid pid : Half),
    1 ≤ pdu.length → pdu.length ≤ 253 →
      (s.rxValid = true →
          deliver unit pdu tid pid s = { s with
            overrun := true, cntOverrun := s.cntOverrun + 1, rxAsm := [], rxNib := none })
        ∧ (s.rxValid = false →
          ∃ t, deliver unit pdu tid pid s = t
            ∧ t = { s with
                mem := t.mem, rxUnit := unit, rxLen := BitVec.ofNat 9 pdu.length, rxTid := tid
                rxPid := pid, rxValid := true, cntRxOk := s.cntRxOk + 1, rxAsm := []
                rxNib := none }
            ∧ (∀ k b, pdu[k]? = some b → t.rxbuf k = b)
            ∧ ∀ a, (∀ k, k < pdu.length → a ≠ rxbufAddr k) → t.readByte a = s.readByte a)

/-- What the RTU transmitter builds the RTU receiver delivers (42_framing.md R271, R280-R283): a frame's
characters, then the least number of Ticks that makes the silence 3.5 character times. -/
def Obligations.RtuLoopback : Prop :=
  ∀ (s : State) (unit : Byte) (pdu : List Byte) (n : Nat) (rest : List Event),
    s.mode = .rtu → s.rxs = .idle → s.rxValid = false → s.txs = .idle → 7 ≤ s.charBits.toNat →
    1 ≤ pdu.length → pdu.length ≤ 253 →
    9 * (1000000 * s.charBits.toNat) ≤ 2 * n * s.baud.toNat →
    2 * (n - 1) * s.baud.toNat < 9 * (1000000 * s.charBits.toNat) →
    s.inputs = (rtuFrame (unit :: pdu)).map .rxChar ++ List.replicate n .tick ++ rest →
      ∃ t, core.run (pdu.length + 3 + n) s = .next t
        ∧ t = { s with
            mem := t.mem, inputs := rest, t := s.t + n, tLine := s.t, tRxLast := s.t
            rxUnit := unit, rxLen := BitVec.ofNat 9 pdu.length, rxTid := 0, rxPid := 0
            rxValid := true, cntRxOk := s.cntRxOk + 1, rxAsm := [], rxNib := none }
        ∧ (∀ k b, pdu[k]? = some b → t.rxbuf k = b)
        ∧ ∀ a, (∀ k, k < pdu.length → a ≠ rxbufAddr k) → t.readByte a = s.readByte a

/-- What the ASCII transmitter builds the ASCII receiver delivers at the LF (42_framing.md R273,
R285-R287). -/
def Obligations.AsciiLoopback : Prop :=
  ∀ (s : State) (unit : Byte) (pdu : List Byte) (rest : List Event),
    s.mode = .ascii → s.rxs = .idle → s.rxValid = false →
    1 ≤ pdu.length → pdu.length ≤ 253 →
    s.inputs = (asciiFrame (unit :: pdu)).map .rxChar ++ rest →
      ∃ t, core.run (2 * pdu.length + 7) s = .next t
        ∧ t = { s with
            mem := t.mem, inputs := rest, tLine := s.t
            rxUnit := unit, rxLen := BitVec.ofNat 9 pdu.length, rxTid := 0, rxPid := 0
            rxValid := true, cntRxOk := s.cntRxOk + 1, rxAsm := [], rxNib := none }
        ∧ (∀ k b, pdu[k]? = some b → t.rxbuf k = b)
        ∧ ∀ a, (∀ k, k < pdu.length → a ≠ rxbufAddr k) → t.readByte a = s.readByte a

/-- What the STREAM transmitter builds the STREAM receiver delivers at its last byte (42_framing.md R274,
R288, R289). -/
def Obligations.StreamLoopback : Prop :=
  ∀ (s : State) (tid : Half) (unit : Byte) (pdu : List Byte) (rest : List Event),
    s.mode = .stream → s.rxs = .idle → s.rxValid = false →
    1 ≤ pdu.length → pdu.length ≤ 253 →
    s.inputs = (streamFrame tid (unit :: pdu)).map .rxChar ++ rest →
      ∃ t, core.run (pdu.length + 7) s = .next t
        ∧ t = { s with
            mem := t.mem, inputs := rest
            rxUnit := unit, rxLen := BitVec.ofNat 9 pdu.length, rxTid := tid, rxPid := 0
            rxValid := true, cntRxOk := s.cntRxOk + 1, rxAsm := [], rxNib := none }
        ∧ (∀ k b, pdu[k]? = some b → t.rxbuf k = b)
        ∧ ∀ a, (∀ k, k < pdu.length → a ≠ rxbufAddr k) → t.readByte a = s.readByte a

/-! ## Whole-machine rules -/

/-- The state after reset meets the invariant. -/
def Obligations.ResetMeetsTheInvariant : Prop := BlockInv State.reset

/-- Every step keeps the invariant, from every state that meets it (10_state.md R33, R38, R39, R45,
R55-R60). -/
def Obligations.StepKeepsTheInvariant : Prop :=
  ∀ s t : State, BlockInv s → step s = .next t → BlockInv t

/-- Time (10_state.md R63): only a Tick advances it, by 1; only the hardware reset sets it back. -/
def Obligations.TimeAdvancesByTicksOnly : Prop :=
  ∀ s t : State, step s = .next t → nextEvent s ≠ .reset →
    t.t = if nextEvent s = .tick then s.t + 1 else s.t

/-- A held frame is stable (10_state.md R51, 20_memory.md R100): while RXVALID is 1, no step but a reset
changes RXBUF, RXUNIT, RXLEN, RXTID or RXPID. -/
def Obligations.HeldFrameIsStable : Prop :=
  ∀ s t : State, step s = .next t → s.rxValid = true → nextEvent s ≠ .reset →
    ¬ issuesSoftReset s →
      (∀ i, i < 256 → t.rxbuf i = s.rxbuf i) ∧ t.rxUnit = s.rxUnit ∧ t.rxLen = s.rxLen
        ∧ t.rxTid = s.rxTid ∧ t.rxPid = s.rxPid

/-- While the receiver is enabled or the transmitter busy, no step but a reset changes MODE, CHARBITS, BAUD
or TXDLY (10_state.md R54, 42_framing.md R270). -/
def Obligations.ConfigurationIsLockedWhileActive : Prop :=
  ∀ s t : State, step s = .next t → (s.rxs ≠ .disabled ∨ s.txs ≠ .idle) → nextEvent s ≠ .reset →
    ¬ issuesSoftReset s →
      t.mode = s.mode ∧ t.charBits = s.charBits ∧ t.baud = s.baud ∧ t.txDly = s.txDly

/-- A latched frame is kept (20_memory.md R101): no step but a reset changes the characters of a
transmission; it ends only at a Tick, with TXDONE set. -/
def Obligations.LatchedFrameIsKept : Prop :=
  ∀ s t : State, BlockInv s → step s = .next t → nextEvent s ≠ .reset → ¬ issuesSoftReset s →
    (∀ f tCmd, s.txs = .wait f tCmd → t.txs = .wait f tCmd ∨ t.txs = .send f t.t)
      ∧ ∀ f ts, s.txs = .send f ts →
          t.txs = .send f ts ∨ (t.txs = .idle ∧ t.txDone = true ∧ nextEvent s = .tick)
end

