-- ==== Sys2Proof/Laws/State.lean ====
section
/-! SUPPORT. One lemma per field per named update of State: what each shared operation of Machine/Ops.lean
and Machine/Framing.lean leaves in each field. -/

namespace Sys2Proof.Machine

/-! ### State.setTxbuf -/

@[simp] theorem State.setTxbuf_mode (s : State) (i : Nat) (b : Byte) :
    (s.setTxbuf i b).mode = s.mode := rfl
@[simp] theorem State.setTxbuf_charBits (s : State) (i : Nat) (b : Byte) :
    (s.setTxbuf i b).charBits = s.charBits := rfl
@[simp] theorem State.setTxbuf_rxValid (s : State) (i : Nat) (b : Byte) :
    (s.setTxbuf i b).rxValid = s.rxValid := rfl
@[simp] theorem State.setTxbuf_txDone (s : State) (i : Nat) (b : Byte) :
    (s.setTxbuf i b).txDone = s.txDone := rfl
@[simp] theorem State.setTxbuf_rxErr (s : State) (i : Nat) (b : Byte) :
    (s.setTxbuf i b).rxErr = s.rxErr := rfl
@[simp] theorem State.setTxbuf_overrun (s : State) (i : Nat) (b : Byte) :
    (s.setTxbuf i b).overrun = s.overrun := rfl
@[simp] theorem State.setTxbuf_rxtErr (s : State) (i : Nat) (b : Byte) :
    (s.setTxbuf i b).rxtErr = s.rxtErr := rfl
@[simp] theorem State.setTxbuf_err (s : State) (i : Nat) (b : Byte) :
    (s.setTxbuf i b).err = s.err := rfl
@[simp] theorem State.setTxbuf_ie (s : State) (i : Nat) (b : Byte) :
    (s.setTxbuf i b).ie = s.ie := rfl
@[simp] theorem State.setTxbuf_baud (s : State) (i : Nat) (b : Byte) :
    (s.setTxbuf i b).baud = s.baud := rfl
@[simp] theorem State.setTxbuf_txDly (s : State) (i : Nat) (b : Byte) :
    (s.setTxbuf i b).txDly = s.txDly := rfl
@[simp] theorem State.setTxbuf_txUnit (s : State) (i : Nat) (b : Byte) :
    (s.setTxbuf i b).txUnit = s.txUnit := rfl
@[simp] theorem State.setTxbuf_txLen (s : State) (i : Nat) (b : Byte) :
    (s.setTxbuf i b).txLen = s.txLen := rfl
@[simp] theorem State.setTxbuf_txTid (s : State) (i : Nat) (b : Byte) :
    (s.setTxbuf i b).txTid = s.txTid := rfl
@[simp] theorem State.setTxbuf_rxUnit (s : State) (i : Nat) (b : Byte) :
    (s.setTxbuf i b).rxUnit = s.rxUnit := rfl
@[simp] theorem State.setTxbuf_rxLen (s : State) (i : Nat) (b : Byte) :
    (s.setTxbuf i b).rxLen = s.rxLen := rfl
@[simp] theorem State.setTxbuf_rxTid (s : State) (i : Nat) (b : Byte) :
    (s.setTxbuf i b).rxTid = s.rxTid := rfl
@[simp] theorem State.setTxbuf_rxPid (s : State) (i : Nat) (b : Byte) :
    (s.setTxbuf i b).rxPid = s.rxPid := rfl
@[simp] theorem State.setTxbuf_cntRxOk (s : State) (i : Nat) (b : Byte) :
    (s.setTxbuf i b).cntRxOk = s.cntRxOk := rfl
@[simp] theorem State.setTxbuf_cntFrameErr (s : State) (i : Nat) (b : Byte) :
    (s.setTxbuf i b).cntFrameErr = s.cntFrameErr := rfl
@[simp] theorem State.setTxbuf_cntCrcErr (s : State) (i : Nat) (b : Byte) :
    (s.setTxbuf i b).cntCrcErr = s.cntCrcErr := rfl
@[simp] theorem State.setTxbuf_cntOverrun (s : State) (i : Nat) (b : Byte) :
    (s.setTxbuf i b).cntOverrun = s.cntOverrun := rfl
@[simp] theorem State.setTxbuf_mem (s : State) (i : Nat) (b : Byte) :
    (s.setTxbuf i b).mem = Memory.storeEntry txbufAddr Config.bufN i b s.mem := rfl
@[simp] theorem State.setTxbuf_rxs (s : State) (i : Nat) (b : Byte) :
    (s.setTxbuf i b).rxs = s.rxs := rfl
@[simp] theorem State.setTxbuf_rxAsm (s : State) (i : Nat) (b : Byte) :
    (s.setTxbuf i b).rxAsm = s.rxAsm := rfl
@[simp] theorem State.setTxbuf_rxNib (s : State) (i : Nat) (b : Byte) :
    (s.setTxbuf i b).rxNib = s.rxNib := rfl
@[simp] theorem State.setTxbuf_tRxLast (s : State) (i : Nat) (b : Byte) :
    (s.setTxbuf i b).tRxLast = s.tRxLast := rfl
@[simp] theorem State.setTxbuf_tLine (s : State) (i : Nat) (b : Byte) :
    (s.setTxbuf i b).tLine = s.tLine := rfl
@[simp] theorem State.setTxbuf_txs (s : State) (i : Nat) (b : Byte) :
    (s.setTxbuf i b).txs = s.txs := rfl
@[simp] theorem State.setTxbuf_crcAcc (s : State) (i : Nat) (b : Byte) :
    (s.setTxbuf i b).crcAcc = s.crcAcc := rfl
@[simp] theorem State.setTxbuf_lrcSum (s : State) (i : Nat) (b : Byte) :
    (s.setTxbuf i b).lrcSum = s.lrcSum := rfl
@[simp] theorem State.setTxbuf_t (s : State) (i : Nat) (b : Byte) :
    (s.setTxbuf i b).t = s.t := rfl
@[simp] theorem State.setTxbuf_ramDraw (s : State) (i : Nat) (b : Byte) :
    (s.setTxbuf i b).ramDraw = s.ramDraw := rfl
@[simp] theorem State.setTxbuf_inputs (s : State) (i : Nat) (b : Byte) :
    (s.setTxbuf i b).inputs = s.inputs := rfl
@[simp] theorem State.setTxbuf_lineOut (s : State) (i : Nat) (b : Byte) :
    (s.setTxbuf i b).lineOut = s.lineOut := rfl
@[simp] theorem State.setTxbuf_hostResp (s : State) (i : Nat) (b : Byte) :
    (s.setTxbuf i b).hostResp = s.hostResp := rfl

/-! ### State.setMsg -/

@[simp] theorem State.setMsg_mode (s : State) (i : Nat) (w : Word) :
    (s.setMsg i w).mode = s.mode := rfl
@[simp] theorem State.setMsg_charBits (s : State) (i : Nat) (w : Word) :
    (s.setMsg i w).charBits = s.charBits := rfl
@[simp] theorem State.setMsg_rxValid (s : State) (i : Nat) (w : Word) :
    (s.setMsg i w).rxValid = s.rxValid := rfl
@[simp] theorem State.setMsg_txDone (s : State) (i : Nat) (w : Word) :
    (s.setMsg i w).txDone = s.txDone := rfl
@[simp] theorem State.setMsg_rxErr (s : State) (i : Nat) (w : Word) :
    (s.setMsg i w).rxErr = s.rxErr := rfl
@[simp] theorem State.setMsg_overrun (s : State) (i : Nat) (w : Word) :
    (s.setMsg i w).overrun = s.overrun := rfl
@[simp] theorem State.setMsg_rxtErr (s : State) (i : Nat) (w : Word) :
    (s.setMsg i w).rxtErr = s.rxtErr := rfl
@[simp] theorem State.setMsg_err (s : State) (i : Nat) (w : Word) :
    (s.setMsg i w).err = s.err := rfl
@[simp] theorem State.setMsg_ie (s : State) (i : Nat) (w : Word) :
    (s.setMsg i w).ie = s.ie := rfl
@[simp] theorem State.setMsg_baud (s : State) (i : Nat) (w : Word) :
    (s.setMsg i w).baud = s.baud := rfl
@[simp] theorem State.setMsg_txDly (s : State) (i : Nat) (w : Word) :
    (s.setMsg i w).txDly = s.txDly := rfl
@[simp] theorem State.setMsg_txUnit (s : State) (i : Nat) (w : Word) :
    (s.setMsg i w).txUnit = s.txUnit := rfl
@[simp] theorem State.setMsg_txLen (s : State) (i : Nat) (w : Word) :
    (s.setMsg i w).txLen = s.txLen := rfl
@[simp] theorem State.setMsg_txTid (s : State) (i : Nat) (w : Word) :
    (s.setMsg i w).txTid = s.txTid := rfl
@[simp] theorem State.setMsg_rxUnit (s : State) (i : Nat) (w : Word) :
    (s.setMsg i w).rxUnit = s.rxUnit := rfl
@[simp] theorem State.setMsg_rxLen (s : State) (i : Nat) (w : Word) :
    (s.setMsg i w).rxLen = s.rxLen := rfl
@[simp] theorem State.setMsg_rxTid (s : State) (i : Nat) (w : Word) :
    (s.setMsg i w).rxTid = s.rxTid := rfl
@[simp] theorem State.setMsg_rxPid (s : State) (i : Nat) (w : Word) :
    (s.setMsg i w).rxPid = s.rxPid := rfl
@[simp] theorem State.setMsg_cntRxOk (s : State) (i : Nat) (w : Word) :
    (s.setMsg i w).cntRxOk = s.cntRxOk := rfl
@[simp] theorem State.setMsg_cntFrameErr (s : State) (i : Nat) (w : Word) :
    (s.setMsg i w).cntFrameErr = s.cntFrameErr := rfl
@[simp] theorem State.setMsg_cntCrcErr (s : State) (i : Nat) (w : Word) :
    (s.setMsg i w).cntCrcErr = s.cntCrcErr := rfl
@[simp] theorem State.setMsg_cntOverrun (s : State) (i : Nat) (w : Word) :
    (s.setMsg i w).cntOverrun = s.cntOverrun := rfl
@[simp] theorem State.setMsg_mem (s : State) (i : Nat) (w : Word) :
    (s.setMsg i w).mem = Memory.storeWord i w s.mem := rfl
@[simp] theorem State.setMsg_rxs (s : State) (i : Nat) (w : Word) :
    (s.setMsg i w).rxs = s.rxs := rfl
@[simp] theorem State.setMsg_rxAsm (s : State) (i : Nat) (w : Word) :
    (s.setMsg i w).rxAsm = s.rxAsm := rfl
@[simp] theorem State.setMsg_rxNib (s : State) (i : Nat) (w : Word) :
    (s.setMsg i w).rxNib = s.rxNib := rfl
@[simp] theorem State.setMsg_tRxLast (s : State) (i : Nat) (w : Word) :
    (s.setMsg i w).tRxLast = s.tRxLast := rfl
@[simp] theorem State.setMsg_tLine (s : State) (i : Nat) (w : Word) :
    (s.setMsg i w).tLine = s.tLine := rfl
@[simp] theorem State.setMsg_txs (s : State) (i : Nat) (w : Word) :
    (s.setMsg i w).txs = s.txs := rfl
@[simp] theorem State.setMsg_crcAcc (s : State) (i : Nat) (w : Word) :
    (s.setMsg i w).crcAcc = s.crcAcc := rfl
@[simp] theorem State.setMsg_lrcSum (s : State) (i : Nat) (w : Word) :
    (s.setMsg i w).lrcSum = s.lrcSum := rfl
@[simp] theorem State.setMsg_t (s : State) (i : Nat) (w : Word) :
    (s.setMsg i w).t = s.t := rfl
@[simp] theorem State.setMsg_ramDraw (s : State) (i : Nat) (w : Word) :
    (s.setMsg i w).ramDraw = s.ramDraw := rfl
@[simp] theorem State.setMsg_inputs (s : State) (i : Nat) (w : Word) :
    (s.setMsg i w).inputs = s.inputs := rfl
@[simp] theorem State.setMsg_lineOut (s : State) (i : Nat) (w : Word) :
    (s.setMsg i w).lineOut = s.lineOut := rfl
@[simp] theorem State.setMsg_hostResp (s : State) (i : Nat) (w : Word) :
    (s.setMsg i w).hostResp = s.hostResp := rfl

/-! ### State.fillTxbuf -/

@[simp] theorem State.fillTxbuf_mode (s : State) (i : Nat) (bs : List Byte) :
    (s.fillTxbuf i bs).mode = s.mode := rfl
@[simp] theorem State.fillTxbuf_charBits (s : State) (i : Nat) (bs : List Byte) :
    (s.fillTxbuf i bs).charBits = s.charBits := rfl
@[simp] theorem State.fillTxbuf_rxValid (s : State) (i : Nat) (bs : List Byte) :
    (s.fillTxbuf i bs).rxValid = s.rxValid := rfl
@[simp] theorem State.fillTxbuf_txDone (s : State) (i : Nat) (bs : List Byte) :
    (s.fillTxbuf i bs).txDone = s.txDone := rfl
@[simp] theorem State.fillTxbuf_rxErr (s : State) (i : Nat) (bs : List Byte) :
    (s.fillTxbuf i bs).rxErr = s.rxErr := rfl
@[simp] theorem State.fillTxbuf_overrun (s : State) (i : Nat) (bs : List Byte) :
    (s.fillTxbuf i bs).overrun = s.overrun := rfl
@[simp] theorem State.fillTxbuf_rxtErr (s : State) (i : Nat) (bs : List Byte) :
    (s.fillTxbuf i bs).rxtErr = s.rxtErr := rfl
@[simp] theorem State.fillTxbuf_err (s : State) (i : Nat) (bs : List Byte) :
    (s.fillTxbuf i bs).err = s.err := rfl
@[simp] theorem State.fillTxbuf_ie (s : State) (i : Nat) (bs : List Byte) :
    (s.fillTxbuf i bs).ie = s.ie := rfl
@[simp] theorem State.fillTxbuf_baud (s : State) (i : Nat) (bs : List Byte) :
    (s.fillTxbuf i bs).baud = s.baud := rfl
@[simp] theorem State.fillTxbuf_txDly (s : State) (i : Nat) (bs : List Byte) :
    (s.fillTxbuf i bs).txDly = s.txDly := rfl
@[simp] theorem State.fillTxbuf_txUnit (s : State) (i : Nat) (bs : List Byte) :
    (s.fillTxbuf i bs).txUnit = s.txUnit := rfl
@[simp] theorem State.fillTxbuf_txLen (s : State) (i : Nat) (bs : List Byte) :
    (s.fillTxbuf i bs).txLen = s.txLen := rfl
@[simp] theorem State.fillTxbuf_txTid (s : State) (i : Nat) (bs : List Byte) :
    (s.fillTxbuf i bs).txTid = s.txTid := rfl
@[simp] theorem State.fillTxbuf_rxUnit (s : State) (i : Nat) (bs : List Byte) :
    (s.fillTxbuf i bs).rxUnit = s.rxUnit := rfl
@[simp] theorem State.fillTxbuf_rxLen (s : State) (i : Nat) (bs : List Byte) :
    (s.fillTxbuf i bs).rxLen = s.rxLen := rfl
@[simp] theorem State.fillTxbuf_rxTid (s : State) (i : Nat) (bs : List Byte) :
    (s.fillTxbuf i bs).rxTid = s.rxTid := rfl
@[simp] theorem State.fillTxbuf_rxPid (s : State) (i : Nat) (bs : List Byte) :
    (s.fillTxbuf i bs).rxPid = s.rxPid := rfl
@[simp] theorem State.fillTxbuf_cntRxOk (s : State) (i : Nat) (bs : List Byte) :
    (s.fillTxbuf i bs).cntRxOk = s.cntRxOk := rfl
@[simp] theorem State.fillTxbuf_cntFrameErr (s : State) (i : Nat) (bs : List Byte) :
    (s.fillTxbuf i bs).cntFrameErr = s.cntFrameErr := rfl
@[simp] theorem State.fillTxbuf_cntCrcErr (s : State) (i : Nat) (bs : List Byte) :
    (s.fillTxbuf i bs).cntCrcErr = s.cntCrcErr := rfl
@[simp] theorem State.fillTxbuf_cntOverrun (s : State) (i : Nat) (bs : List Byte) :
    (s.fillTxbuf i bs).cntOverrun = s.cntOverrun := rfl
@[simp] theorem State.fillTxbuf_mem (s : State) (i : Nat) (bs : List Byte) :
    (s.fillTxbuf i bs).mem = Memory.fillEntries txbufAddr Config.bufN i s.mem bs := rfl
@[simp] theorem State.fillTxbuf_rxs (s : State) (i : Nat) (bs : List Byte) :
    (s.fillTxbuf i bs).rxs = s.rxs := rfl
@[simp] theorem State.fillTxbuf_rxAsm (s : State) (i : Nat) (bs : List Byte) :
    (s.fillTxbuf i bs).rxAsm = s.rxAsm := rfl
@[simp] theorem State.fillTxbuf_rxNib (s : State) (i : Nat) (bs : List Byte) :
    (s.fillTxbuf i bs).rxNib = s.rxNib := rfl
@[simp] theorem State.fillTxbuf_tRxLast (s : State) (i : Nat) (bs : List Byte) :
    (s.fillTxbuf i bs).tRxLast = s.tRxLast := rfl
@[simp] theorem State.fillTxbuf_tLine (s : State) (i : Nat) (bs : List Byte) :
    (s.fillTxbuf i bs).tLine = s.tLine := rfl
@[simp] theorem State.fillTxbuf_txs (s : State) (i : Nat) (bs : List Byte) :
    (s.fillTxbuf i bs).txs = s.txs := rfl
@[simp] theorem State.fillTxbuf_crcAcc (s : State) (i : Nat) (bs : List Byte) :
    (s.fillTxbuf i bs).crcAcc = s.crcAcc := rfl
@[simp] theorem State.fillTxbuf_lrcSum (s : State) (i : Nat) (bs : List Byte) :
    (s.fillTxbuf i bs).lrcSum = s.lrcSum := rfl
@[simp] theorem State.fillTxbuf_t (s : State) (i : Nat) (bs : List Byte) :
    (s.fillTxbuf i bs).t = s.t := rfl
@[simp] theorem State.fillTxbuf_ramDraw (s : State) (i : Nat) (bs : List Byte) :
    (s.fillTxbuf i bs).ramDraw = s.ramDraw := rfl
@[simp] theorem State.fillTxbuf_inputs (s : State) (i : Nat) (bs : List Byte) :
    (s.fillTxbuf i bs).inputs = s.inputs := rfl
@[simp] theorem State.fillTxbuf_lineOut (s : State) (i : Nat) (bs : List Byte) :
    (s.fillTxbuf i bs).lineOut = s.lineOut := rfl
@[simp] theorem State.fillTxbuf_hostResp (s : State) (i : Nat) (bs : List Byte) :
    (s.fillTxbuf i bs).hostResp = s.hostResp := rfl

/-! ### State.fillRxbuf -/

@[simp] theorem State.fillRxbuf_mode (s : State) (i : Nat) (bs : List Byte) :
    (s.fillRxbuf i bs).mode = s.mode := rfl
@[simp] theorem State.fillRxbuf_charBits (s : State) (i : Nat) (bs : List Byte) :
    (s.fillRxbuf i bs).charBits = s.charBits := rfl
@[simp] theorem State.fillRxbuf_rxValid (s : State) (i : Nat) (bs : List Byte) :
    (s.fillRxbuf i bs).rxValid = s.rxValid := rfl
@[simp] theorem State.fillRxbuf_txDone (s : State) (i : Nat) (bs : List Byte) :
    (s.fillRxbuf i bs).txDone = s.txDone := rfl
@[simp] theorem State.fillRxbuf_rxErr (s : State) (i : Nat) (bs : List Byte) :
    (s.fillRxbuf i bs).rxErr = s.rxErr := rfl
@[simp] theorem State.fillRxbuf_overrun (s : State) (i : Nat) (bs : List Byte) :
    (s.fillRxbuf i bs).overrun = s.overrun := rfl
@[simp] theorem State.fillRxbuf_rxtErr (s : State) (i : Nat) (bs : List Byte) :
    (s.fillRxbuf i bs).rxtErr = s.rxtErr := rfl
@[simp] theorem State.fillRxbuf_err (s : State) (i : Nat) (bs : List Byte) :
    (s.fillRxbuf i bs).err = s.err := rfl
@[simp] theorem State.fillRxbuf_ie (s : State) (i : Nat) (bs : List Byte) :
    (s.fillRxbuf i bs).ie = s.ie := rfl
@[simp] theorem State.fillRxbuf_baud (s : State) (i : Nat) (bs : List Byte) :
    (s.fillRxbuf i bs).baud = s.baud := rfl
@[simp] theorem State.fillRxbuf_txDly (s : State) (i : Nat) (bs : List Byte) :
    (s.fillRxbuf i bs).txDly = s.txDly := rfl
@[simp] theorem State.fillRxbuf_txUnit (s : State) (i : Nat) (bs : List Byte) :
    (s.fillRxbuf i bs).txUnit = s.txUnit := rfl
@[simp] theorem State.fillRxbuf_txLen (s : State) (i : Nat) (bs : List Byte) :
    (s.fillRxbuf i bs).txLen = s.txLen := rfl
@[simp] theorem State.fillRxbuf_txTid (s : State) (i : Nat) (bs : List Byte) :
    (s.fillRxbuf i bs).txTid = s.txTid := rfl
@[simp] theorem State.fillRxbuf_rxUnit (s : State) (i : Nat) (bs : List Byte) :
    (s.fillRxbuf i bs).rxUnit = s.rxUnit := rfl
@[simp] theorem State.fillRxbuf_rxLen (s : State) (i : Nat) (bs : List Byte) :
    (s.fillRxbuf i bs).rxLen = s.rxLen := rfl
@[simp] theorem State.fillRxbuf_rxTid (s : State) (i : Nat) (bs : List Byte) :
    (s.fillRxbuf i bs).rxTid = s.rxTid := rfl
@[simp] theorem State.fillRxbuf_rxPid (s : State) (i : Nat) (bs : List Byte) :
    (s.fillRxbuf i bs).rxPid = s.rxPid := rfl
@[simp] theorem State.fillRxbuf_cntRxOk (s : State) (i : Nat) (bs : List Byte) :
    (s.fillRxbuf i bs).cntRxOk = s.cntRxOk := rfl
@[simp] theorem State.fillRxbuf_cntFrameErr (s : State) (i : Nat) (bs : List Byte) :
    (s.fillRxbuf i bs).cntFrameErr = s.cntFrameErr := rfl
@[simp] theorem State.fillRxbuf_cntCrcErr (s : State) (i : Nat) (bs : List Byte) :
    (s.fillRxbuf i bs).cntCrcErr = s.cntCrcErr := rfl
@[simp] theorem State.fillRxbuf_cntOverrun (s : State) (i : Nat) (bs : List Byte) :
    (s.fillRxbuf i bs).cntOverrun = s.cntOverrun := rfl
@[simp] theorem State.fillRxbuf_mem (s : State) (i : Nat) (bs : List Byte) :
    (s.fillRxbuf i bs).mem = Memory.fillEntries rxbufAddr Config.bufN i s.mem bs := rfl
@[simp] theorem State.fillRxbuf_rxs (s : State) (i : Nat) (bs : List Byte) :
    (s.fillRxbuf i bs).rxs = s.rxs := rfl
@[simp] theorem State.fillRxbuf_rxAsm (s : State) (i : Nat) (bs : List Byte) :
    (s.fillRxbuf i bs).rxAsm = s.rxAsm := rfl
@[simp] theorem State.fillRxbuf_rxNib (s : State) (i : Nat) (bs : List Byte) :
    (s.fillRxbuf i bs).rxNib = s.rxNib := rfl
@[simp] theorem State.fillRxbuf_tRxLast (s : State) (i : Nat) (bs : List Byte) :
    (s.fillRxbuf i bs).tRxLast = s.tRxLast := rfl
@[simp] theorem State.fillRxbuf_tLine (s : State) (i : Nat) (bs : List Byte) :
    (s.fillRxbuf i bs).tLine = s.tLine := rfl
@[simp] theorem State.fillRxbuf_txs (s : State) (i : Nat) (bs : List Byte) :
    (s.fillRxbuf i bs).txs = s.txs := rfl
@[simp] theorem State.fillRxbuf_crcAcc (s : State) (i : Nat) (bs : List Byte) :
    (s.fillRxbuf i bs).crcAcc = s.crcAcc := rfl
@[simp] theorem State.fillRxbuf_lrcSum (s : State) (i : Nat) (bs : List Byte) :
    (s.fillRxbuf i bs).lrcSum = s.lrcSum := rfl
@[simp] theorem State.fillRxbuf_t (s : State) (i : Nat) (bs : List Byte) :
    (s.fillRxbuf i bs).t = s.t := rfl
@[simp] theorem State.fillRxbuf_ramDraw (s : State) (i : Nat) (bs : List Byte) :
    (s.fillRxbuf i bs).ramDraw = s.ramDraw := rfl
@[simp] theorem State.fillRxbuf_inputs (s : State) (i : Nat) (bs : List Byte) :
    (s.fillRxbuf i bs).inputs = s.inputs := rfl
@[simp] theorem State.fillRxbuf_lineOut (s : State) (i : Nat) (bs : List Byte) :
    (s.fillRxbuf i bs).lineOut = s.lineOut := rfl
@[simp] theorem State.fillRxbuf_hostResp (s : State) (i : Nat) (bs : List Byte) :
    (s.fillRxbuf i bs).hostResp = s.hostResp := rfl

/-! ### State.fillMsg -/

@[simp] theorem State.fillMsg_mode (s : State) (i : Nat) (ws : List Word) :
    (s.fillMsg i ws).mode = s.mode := rfl
@[simp] theorem State.fillMsg_charBits (s : State) (i : Nat) (ws : List Word) :
    (s.fillMsg i ws).charBits = s.charBits := rfl
@[simp] theorem State.fillMsg_rxValid (s : State) (i : Nat) (ws : List Word) :
    (s.fillMsg i ws).rxValid = s.rxValid := rfl
@[simp] theorem State.fillMsg_txDone (s : State) (i : Nat) (ws : List Word) :
    (s.fillMsg i ws).txDone = s.txDone := rfl
@[simp] theorem State.fillMsg_rxErr (s : State) (i : Nat) (ws : List Word) :
    (s.fillMsg i ws).rxErr = s.rxErr := rfl
@[simp] theorem State.fillMsg_overrun (s : State) (i : Nat) (ws : List Word) :
    (s.fillMsg i ws).overrun = s.overrun := rfl
@[simp] theorem State.fillMsg_rxtErr (s : State) (i : Nat) (ws : List Word) :
    (s.fillMsg i ws).rxtErr = s.rxtErr := rfl
@[simp] theorem State.fillMsg_err (s : State) (i : Nat) (ws : List Word) :
    (s.fillMsg i ws).err = s.err := rfl
@[simp] theorem State.fillMsg_ie (s : State) (i : Nat) (ws : List Word) :
    (s.fillMsg i ws).ie = s.ie := rfl
@[simp] theorem State.fillMsg_baud (s : State) (i : Nat) (ws : List Word) :
    (s.fillMsg i ws).baud = s.baud := rfl
@[simp] theorem State.fillMsg_txDly (s : State) (i : Nat) (ws : List Word) :
    (s.fillMsg i ws).txDly = s.txDly := rfl
@[simp] theorem State.fillMsg_txUnit (s : State) (i : Nat) (ws : List Word) :
    (s.fillMsg i ws).txUnit = s.txUnit := rfl
@[simp] theorem State.fillMsg_txLen (s : State) (i : Nat) (ws : List Word) :
    (s.fillMsg i ws).txLen = s.txLen := rfl
@[simp] theorem State.fillMsg_txTid (s : State) (i : Nat) (ws : List Word) :
    (s.fillMsg i ws).txTid = s.txTid := rfl
@[simp] theorem State.fillMsg_rxUnit (s : State) (i : Nat) (ws : List Word) :
    (s.fillMsg i ws).rxUnit = s.rxUnit := rfl
@[simp] theorem State.fillMsg_rxLen (s : State) (i : Nat) (ws : List Word) :
    (s.fillMsg i ws).rxLen = s.rxLen := rfl
@[simp] theorem State.fillMsg_rxTid (s : State) (i : Nat) (ws : List Word) :
    (s.fillMsg i ws).rxTid = s.rxTid := rfl
@[simp] theorem State.fillMsg_rxPid (s : State) (i : Nat) (ws : List Word) :
    (s.fillMsg i ws).rxPid = s.rxPid := rfl
@[simp] theorem State.fillMsg_cntRxOk (s : State) (i : Nat) (ws : List Word) :
    (s.fillMsg i ws).cntRxOk = s.cntRxOk := rfl
@[simp] theorem State.fillMsg_cntFrameErr (s : State) (i : Nat) (ws : List Word) :
    (s.fillMsg i ws).cntFrameErr = s.cntFrameErr := rfl
@[simp] theorem State.fillMsg_cntCrcErr (s : State) (i : Nat) (ws : List Word) :
    (s.fillMsg i ws).cntCrcErr = s.cntCrcErr := rfl
@[simp] theorem State.fillMsg_cntOverrun (s : State) (i : Nat) (ws : List Word) :
    (s.fillMsg i ws).cntOverrun = s.cntOverrun := rfl
@[simp] theorem State.fillMsg_mem (s : State) (i : Nat) (ws : List Word) :
    (s.fillMsg i ws).mem = Memory.fillWords i s.mem ws := rfl
@[simp] theorem State.fillMsg_rxs (s : State) (i : Nat) (ws : List Word) :
    (s.fillMsg i ws).rxs = s.rxs := rfl
@[simp] theorem State.fillMsg_rxAsm (s : State) (i : Nat) (ws : List Word) :
    (s.fillMsg i ws).rxAsm = s.rxAsm := rfl
@[simp] theorem State.fillMsg_rxNib (s : State) (i : Nat) (ws : List Word) :
    (s.fillMsg i ws).rxNib = s.rxNib := rfl
@[simp] theorem State.fillMsg_tRxLast (s : State) (i : Nat) (ws : List Word) :
    (s.fillMsg i ws).tRxLast = s.tRxLast := rfl
@[simp] theorem State.fillMsg_tLine (s : State) (i : Nat) (ws : List Word) :
    (s.fillMsg i ws).tLine = s.tLine := rfl
@[simp] theorem State.fillMsg_txs (s : State) (i : Nat) (ws : List Word) :
    (s.fillMsg i ws).txs = s.txs := rfl
@[simp] theorem State.fillMsg_crcAcc (s : State) (i : Nat) (ws : List Word) :
    (s.fillMsg i ws).crcAcc = s.crcAcc := rfl
@[simp] theorem State.fillMsg_lrcSum (s : State) (i : Nat) (ws : List Word) :
    (s.fillMsg i ws).lrcSum = s.lrcSum := rfl
@[simp] theorem State.fillMsg_t (s : State) (i : Nat) (ws : List Word) :
    (s.fillMsg i ws).t = s.t := rfl
@[simp] theorem State.fillMsg_ramDraw (s : State) (i : Nat) (ws : List Word) :
    (s.fillMsg i ws).ramDraw = s.ramDraw := rfl
@[simp] theorem State.fillMsg_inputs (s : State) (i : Nat) (ws : List Word) :
    (s.fillMsg i ws).inputs = s.inputs := rfl
@[simp] theorem State.fillMsg_lineOut (s : State) (i : Nat) (ws : List Word) :
    (s.fillMsg i ws).lineOut = s.lineOut := rfl
@[simp] theorem State.fillMsg_hostResp (s : State) (i : Nat) (ws : List Word) :
    (s.fillMsg i ws).hostResp = s.hostResp := rfl

/-! ### raiseCmdError -/

@[simp] theorem raiseCmdError_mode (c : ErrCode) (s : State) :
    (raiseCmdError c s).mode = s.mode := rfl
@[simp] theorem raiseCmdError_charBits (c : ErrCode) (s : State) :
    (raiseCmdError c s).charBits = s.charBits := rfl
@[simp] theorem raiseCmdError_rxValid (c : ErrCode) (s : State) :
    (raiseCmdError c s).rxValid = s.rxValid := rfl
@[simp] theorem raiseCmdError_txDone (c : ErrCode) (s : State) :
    (raiseCmdError c s).txDone = s.txDone := rfl
@[simp] theorem raiseCmdError_rxErr (c : ErrCode) (s : State) :
    (raiseCmdError c s).rxErr = s.rxErr := rfl
@[simp] theorem raiseCmdError_overrun (c : ErrCode) (s : State) :
    (raiseCmdError c s).overrun = s.overrun := rfl
@[simp] theorem raiseCmdError_rxtErr (c : ErrCode) (s : State) :
    (raiseCmdError c s).rxtErr = s.rxtErr := rfl
@[simp] theorem raiseCmdError_err (c : ErrCode) (s : State) :
    (raiseCmdError c s).err = c := rfl
@[simp] theorem raiseCmdError_ie (c : ErrCode) (s : State) :
    (raiseCmdError c s).ie = s.ie := rfl
@[simp] theorem raiseCmdError_baud (c : ErrCode) (s : State) :
    (raiseCmdError c s).baud = s.baud := rfl
@[simp] theorem raiseCmdError_txDly (c : ErrCode) (s : State) :
    (raiseCmdError c s).txDly = s.txDly := rfl
@[simp] theorem raiseCmdError_txUnit (c : ErrCode) (s : State) :
    (raiseCmdError c s).txUnit = s.txUnit := rfl
@[simp] theorem raiseCmdError_txLen (c : ErrCode) (s : State) :
    (raiseCmdError c s).txLen = s.txLen := rfl
@[simp] theorem raiseCmdError_txTid (c : ErrCode) (s : State) :
    (raiseCmdError c s).txTid = s.txTid := rfl
@[simp] theorem raiseCmdError_rxUnit (c : ErrCode) (s : State) :
    (raiseCmdError c s).rxUnit = s.rxUnit := rfl
@[simp] theorem raiseCmdError_rxLen (c : ErrCode) (s : State) :
    (raiseCmdError c s).rxLen = s.rxLen := rfl
@[simp] theorem raiseCmdError_rxTid (c : ErrCode) (s : State) :
    (raiseCmdError c s).rxTid = s.rxTid := rfl
@[simp] theorem raiseCmdError_rxPid (c : ErrCode) (s : State) :
    (raiseCmdError c s).rxPid = s.rxPid := rfl
@[simp] theorem raiseCmdError_cntRxOk (c : ErrCode) (s : State) :
    (raiseCmdError c s).cntRxOk = s.cntRxOk := rfl
@[simp] theorem raiseCmdError_cntFrameErr (c : ErrCode) (s : State) :
    (raiseCmdError c s).cntFrameErr = s.cntFrameErr := rfl
@[simp] theorem raiseCmdError_cntCrcErr (c : ErrCode) (s : State) :
    (raiseCmdError c s).cntCrcErr = s.cntCrcErr := rfl
@[simp] theorem raiseCmdError_cntOverrun (c : ErrCode) (s : State) :
    (raiseCmdError c s).cntOverrun = s.cntOverrun := rfl
@[simp] theorem raiseCmdError_mem (c : ErrCode) (s : State) :
    (raiseCmdError c s).mem = s.mem := rfl
@[simp] theorem raiseCmdError_rxs (c : ErrCode) (s : State) :
    (raiseCmdError c s).rxs = s.rxs := rfl
@[simp] theorem raiseCmdError_rxAsm (c : ErrCode) (s : State) :
    (raiseCmdError c s).rxAsm = s.rxAsm := rfl
@[simp] theorem raiseCmdError_rxNib (c : ErrCode) (s : State) :
    (raiseCmdError c s).rxNib = s.rxNib := rfl
@[simp] theorem raiseCmdError_tRxLast (c : ErrCode) (s : State) :
    (raiseCmdError c s).tRxLast = s.tRxLast := rfl
@[simp] theorem raiseCmdError_tLine (c : ErrCode) (s : State) :
    (raiseCmdError c s).tLine = s.tLine := rfl
@[simp] theorem raiseCmdError_txs (c : ErrCode) (s : State) :
    (raiseCmdError c s).txs = s.txs := rfl
@[simp] theorem raiseCmdError_crcAcc (c : ErrCode) (s : State) :
    (raiseCmdError c s).crcAcc = s.crcAcc := rfl
@[simp] theorem raiseCmdError_lrcSum (c : ErrCode) (s : State) :
    (raiseCmdError c s).lrcSum = s.lrcSum := rfl
@[simp] theorem raiseCmdError_t (c : ErrCode) (s : State) :
    (raiseCmdError c s).t = s.t := rfl
@[simp] theorem raiseCmdError_ramDraw (c : ErrCode) (s : State) :
    (raiseCmdError c s).ramDraw = s.ramDraw := rfl
@[simp] theorem raiseCmdError_inputs (c : ErrCode) (s : State) :
    (raiseCmdError c s).inputs = s.inputs := rfl
@[simp] theorem raiseCmdError_lineOut (c : ErrCode) (s : State) :
    (raiseCmdError c s).lineOut = s.lineOut := rfl
@[simp] theorem raiseCmdError_hostResp (c : ErrCode) (s : State) :
    (raiseCmdError c s).hostResp = s.hostResp := rfl

/-! ### commandDone -/

@[simp] theorem commandDone_mode (s : State) :
    (commandDone s).mode = s.mode := rfl
@[simp] theorem commandDone_charBits (s : State) :
    (commandDone s).charBits = s.charBits := rfl
@[simp] theorem commandDone_rxValid (s : State) :
    (commandDone s).rxValid = s.rxValid := rfl
@[simp] theorem commandDone_txDone (s : State) :
    (commandDone s).txDone = s.txDone := rfl
@[simp] theorem commandDone_rxErr (s : State) :
    (commandDone s).rxErr = s.rxErr := rfl
@[simp] theorem commandDone_overrun (s : State) :
    (commandDone s).overrun = s.overrun := rfl
@[simp] theorem commandDone_rxtErr (s : State) :
    (commandDone s).rxtErr = s.rxtErr := rfl
@[simp] theorem commandDone_err (s : State) :
    (commandDone s).err = .ok := rfl
@[simp] theorem commandDone_ie (s : State) :
    (commandDone s).ie = s.ie := rfl
@[simp] theorem commandDone_baud (s : State) :
    (commandDone s).baud = s.baud := rfl
@[simp] theorem commandDone_txDly (s : State) :
    (commandDone s).txDly = s.txDly := rfl
@[simp] theorem commandDone_txUnit (s : State) :
    (commandDone s).txUnit = s.txUnit := rfl
@[simp] theorem commandDone_txLen (s : State) :
    (commandDone s).txLen = s.txLen := rfl
@[simp] theorem commandDone_txTid (s : State) :
    (commandDone s).txTid = s.txTid := rfl
@[simp] theorem commandDone_rxUnit (s : State) :
    (commandDone s).rxUnit = s.rxUnit := rfl
@[simp] theorem commandDone_rxLen (s : State) :
    (commandDone s).rxLen = s.rxLen := rfl
@[simp] theorem commandDone_rxTid (s : State) :
    (commandDone s).rxTid = s.rxTid := rfl
@[simp] theorem commandDone_rxPid (s : State) :
    (commandDone s).rxPid = s.rxPid := rfl
@[simp] theorem commandDone_cntRxOk (s : State) :
    (commandDone s).cntRxOk = s.cntRxOk := rfl
@[simp] theorem commandDone_cntFrameErr (s : State) :
    (commandDone s).cntFrameErr = s.cntFrameErr := rfl
@[simp] theorem commandDone_cntCrcErr (s : State) :
    (commandDone s).cntCrcErr = s.cntCrcErr := rfl
@[simp] theorem commandDone_cntOverrun (s : State) :
    (commandDone s).cntOverrun = s.cntOverrun := rfl
@[simp] theorem commandDone_mem (s : State) :
    (commandDone s).mem = s.mem := rfl
@[simp] theorem commandDone_rxs (s : State) :
    (commandDone s).rxs = s.rxs := rfl
@[simp] theorem commandDone_rxAsm (s : State) :
    (commandDone s).rxAsm = s.rxAsm := rfl
@[simp] theorem commandDone_rxNib (s : State) :
    (commandDone s).rxNib = s.rxNib := rfl
@[simp] theorem commandDone_tRxLast (s : State) :
    (commandDone s).tRxLast = s.tRxLast := rfl
@[simp] theorem commandDone_tLine (s : State) :
    (commandDone s).tLine = s.tLine := rfl
@[simp] theorem commandDone_txs (s : State) :
    (commandDone s).txs = s.txs := rfl
@[simp] theorem commandDone_crcAcc (s : State) :
    (commandDone s).crcAcc = s.crcAcc := rfl
@[simp] theorem commandDone_lrcSum (s : State) :
    (commandDone s).lrcSum = s.lrcSum := rfl
@[simp] theorem commandDone_t (s : State) :
    (commandDone s).t = s.t := rfl
@[simp] theorem commandDone_ramDraw (s : State) :
    (commandDone s).ramDraw = s.ramDraw := rfl
@[simp] theorem commandDone_inputs (s : State) :
    (commandDone s).inputs = s.inputs := rfl
@[simp] theorem commandDone_lineOut (s : State) :
    (commandDone s).lineOut = s.lineOut := rfl
@[simp] theorem commandDone_hostResp (s : State) :
    (commandDone s).hostResp = s.hostResp := rfl

/-! ### raiseBusError -/

@[simp] theorem raiseBusError_mode (s : State) :
    (raiseBusError s).mode = s.mode := rfl
@[simp] theorem raiseBusError_charBits (s : State) :
    (raiseBusError s).charBits = s.charBits := rfl
@[simp] theorem raiseBusError_rxValid (s : State) :
    (raiseBusError s).rxValid = s.rxValid := rfl
@[simp] theorem raiseBusError_txDone (s : State) :
    (raiseBusError s).txDone = s.txDone := rfl
@[simp] theorem raiseBusError_rxErr (s : State) :
    (raiseBusError s).rxErr = s.rxErr := rfl
@[simp] theorem raiseBusError_overrun (s : State) :
    (raiseBusError s).overrun = s.overrun := rfl
@[simp] theorem raiseBusError_rxtErr (s : State) :
    (raiseBusError s).rxtErr = s.rxtErr := rfl
@[simp] theorem raiseBusError_err (s : State) :
    (raiseBusError s).err = s.err := rfl
@[simp] theorem raiseBusError_ie (s : State) :
    (raiseBusError s).ie = s.ie := rfl
@[simp] theorem raiseBusError_baud (s : State) :
    (raiseBusError s).baud = s.baud := rfl
@[simp] theorem raiseBusError_txDly (s : State) :
    (raiseBusError s).txDly = s.txDly := rfl
@[simp] theorem raiseBusError_txUnit (s : State) :
    (raiseBusError s).txUnit = s.txUnit := rfl
@[simp] theorem raiseBusError_txLen (s : State) :
    (raiseBusError s).txLen = s.txLen := rfl
@[simp] theorem raiseBusError_txTid (s : State) :
    (raiseBusError s).txTid = s.txTid := rfl
@[simp] theorem raiseBusError_rxUnit (s : State) :
    (raiseBusError s).rxUnit = s.rxUnit := rfl
@[simp] theorem raiseBusError_rxLen (s : State) :
    (raiseBusError s).rxLen = s.rxLen := rfl
@[simp] theorem raiseBusError_rxTid (s : State) :
    (raiseBusError s).rxTid = s.rxTid := rfl
@[simp] theorem raiseBusError_rxPid (s : State) :
    (raiseBusError s).rxPid = s.rxPid := rfl
@[simp] theorem raiseBusError_cntRxOk (s : State) :
    (raiseBusError s).cntRxOk = s.cntRxOk := rfl
@[simp] theorem raiseBusError_cntFrameErr (s : State) :
    (raiseBusError s).cntFrameErr = s.cntFrameErr := rfl
@[simp] theorem raiseBusError_cntCrcErr (s : State) :
    (raiseBusError s).cntCrcErr = s.cntCrcErr := rfl
@[simp] theorem raiseBusError_cntOverrun (s : State) :
    (raiseBusError s).cntOverrun = s.cntOverrun := rfl
@[simp] theorem raiseBusError_mem (s : State) :
    (raiseBusError s).mem = s.mem := rfl
@[simp] theorem raiseBusError_rxs (s : State) :
    (raiseBusError s).rxs = s.rxs := rfl
@[simp] theorem raiseBusError_rxAsm (s : State) :
    (raiseBusError s).rxAsm = s.rxAsm := rfl
@[simp] theorem raiseBusError_rxNib (s : State) :
    (raiseBusError s).rxNib = s.rxNib := rfl
@[simp] theorem raiseBusError_tRxLast (s : State) :
    (raiseBusError s).tRxLast = s.tRxLast := rfl
@[simp] theorem raiseBusError_tLine (s : State) :
    (raiseBusError s).tLine = s.tLine := rfl
@[simp] theorem raiseBusError_txs (s : State) :
    (raiseBusError s).txs = s.txs := rfl
@[simp] theorem raiseBusError_crcAcc (s : State) :
    (raiseBusError s).crcAcc = s.crcAcc := rfl
@[simp] theorem raiseBusError_lrcSum (s : State) :
    (raiseBusError s).lrcSum = s.lrcSum := rfl
@[simp] theorem raiseBusError_t (s : State) :
    (raiseBusError s).t = s.t := rfl
@[simp] theorem raiseBusError_ramDraw (s : State) :
    (raiseBusError s).ramDraw = s.ramDraw := rfl
@[simp] theorem raiseBusError_inputs (s : State) :
    (raiseBusError s).inputs = s.inputs := rfl
@[simp] theorem raiseBusError_lineOut (s : State) :
    (raiseBusError s).lineOut = s.lineOut := rfl
@[simp] theorem raiseBusError_hostResp (s : State) :
    (raiseBusError s).hostResp = .busError := rfl

/-! ### noResponse -/

@[simp] theorem noResponse_mode (s : State) :
    (noResponse s).mode = s.mode := rfl
@[simp] theorem noResponse_charBits (s : State) :
    (noResponse s).charBits = s.charBits := rfl
@[simp] theorem noResponse_rxValid (s : State) :
    (noResponse s).rxValid = s.rxValid := rfl
@[simp] theorem noResponse_txDone (s : State) :
    (noResponse s).txDone = s.txDone := rfl
@[simp] theorem noResponse_rxErr (s : State) :
    (noResponse s).rxErr = s.rxErr := rfl
@[simp] theorem noResponse_overrun (s : State) :
    (noResponse s).overrun = s.overrun := rfl
@[simp] theorem noResponse_rxtErr (s : State) :
    (noResponse s).rxtErr = s.rxtErr := rfl
@[simp] theorem noResponse_err (s : State) :
    (noResponse s).err = s.err := rfl
@[simp] theorem noResponse_ie (s : State) :
    (noResponse s).ie = s.ie := rfl
@[simp] theorem noResponse_baud (s : State) :
    (noResponse s).baud = s.baud := rfl
@[simp] theorem noResponse_txDly (s : State) :
    (noResponse s).txDly = s.txDly := rfl
@[simp] theorem noResponse_txUnit (s : State) :
    (noResponse s).txUnit = s.txUnit := rfl
@[simp] theorem noResponse_txLen (s : State) :
    (noResponse s).txLen = s.txLen := rfl
@[simp] theorem noResponse_txTid (s : State) :
    (noResponse s).txTid = s.txTid := rfl
@[simp] theorem noResponse_rxUnit (s : State) :
    (noResponse s).rxUnit = s.rxUnit := rfl
@[simp] theorem noResponse_rxLen (s : State) :
    (noResponse s).rxLen = s.rxLen := rfl
@[simp] theorem noResponse_rxTid (s : State) :
    (noResponse s).rxTid = s.rxTid := rfl
@[simp] theorem noResponse_rxPid (s : State) :
    (noResponse s).rxPid = s.rxPid := rfl
@[simp] theorem noResponse_cntRxOk (s : State) :
    (noResponse s).cntRxOk = s.cntRxOk := rfl
@[simp] theorem noResponse_cntFrameErr (s : State) :
    (noResponse s).cntFrameErr = s.cntFrameErr := rfl
@[simp] theorem noResponse_cntCrcErr (s : State) :
    (noResponse s).cntCrcErr = s.cntCrcErr := rfl
@[simp] theorem noResponse_cntOverrun (s : State) :
    (noResponse s).cntOverrun = s.cntOverrun := rfl
@[simp] theorem noResponse_mem (s : State) :
    (noResponse s).mem = s.mem := rfl
@[simp] theorem noResponse_rxs (s : State) :
    (noResponse s).rxs = s.rxs := rfl
@[simp] theorem noResponse_rxAsm (s : State) :
    (noResponse s).rxAsm = s.rxAsm := rfl
@[simp] theorem noResponse_rxNib (s : State) :
    (noResponse s).rxNib = s.rxNib := rfl
@[simp] theorem noResponse_tRxLast (s : State) :
    (noResponse s).tRxLast = s.tRxLast := rfl
@[simp] theorem noResponse_tLine (s : State) :
    (noResponse s).tLine = s.tLine := rfl
@[simp] theorem noResponse_txs (s : State) :
    (noResponse s).txs = s.txs := rfl
@[simp] theorem noResponse_crcAcc (s : State) :
    (noResponse s).crcAcc = s.crcAcc := rfl
@[simp] theorem noResponse_lrcSum (s : State) :
    (noResponse s).lrcSum = s.lrcSum := rfl
@[simp] theorem noResponse_t (s : State) :
    (noResponse s).t = s.t := rfl
@[simp] theorem noResponse_ramDraw (s : State) :
    (noResponse s).ramDraw = s.ramDraw := rfl
@[simp] theorem noResponse_inputs (s : State) :
    (noResponse s).inputs = s.inputs := rfl
@[simp] theorem noResponse_lineOut (s : State) :
    (noResponse s).lineOut = s.lineOut := rfl
@[simp] theorem noResponse_hostResp (s : State) :
    (noResponse s).hostResp = .noResponse := rfl

/-! ### emitAll -/

@[simp] theorem emitAll_mode (cs : List Byte) (s : State) :
    (emitAll cs s).mode = s.mode := rfl
@[simp] theorem emitAll_charBits (cs : List Byte) (s : State) :
    (emitAll cs s).charBits = s.charBits := rfl
@[simp] theorem emitAll_rxValid (cs : List Byte) (s : State) :
    (emitAll cs s).rxValid = s.rxValid := rfl
@[simp] theorem emitAll_txDone (cs : List Byte) (s : State) :
    (emitAll cs s).txDone = s.txDone := rfl
@[simp] theorem emitAll_rxErr (cs : List Byte) (s : State) :
    (emitAll cs s).rxErr = s.rxErr := rfl
@[simp] theorem emitAll_overrun (cs : List Byte) (s : State) :
    (emitAll cs s).overrun = s.overrun := rfl
@[simp] theorem emitAll_rxtErr (cs : List Byte) (s : State) :
    (emitAll cs s).rxtErr = s.rxtErr := rfl
@[simp] theorem emitAll_err (cs : List Byte) (s : State) :
    (emitAll cs s).err = s.err := rfl
@[simp] theorem emitAll_ie (cs : List Byte) (s : State) :
    (emitAll cs s).ie = s.ie := rfl
@[simp] theorem emitAll_baud (cs : List Byte) (s : State) :
    (emitAll cs s).baud = s.baud := rfl
@[simp] theorem emitAll_txDly (cs : List Byte) (s : State) :
    (emitAll cs s).txDly = s.txDly := rfl
@[simp] theorem emitAll_txUnit (cs : List Byte) (s : State) :
    (emitAll cs s).txUnit = s.txUnit := rfl
@[simp] theorem emitAll_txLen (cs : List Byte) (s : State) :
    (emitAll cs s).txLen = s.txLen := rfl
@[simp] theorem emitAll_txTid (cs : List Byte) (s : State) :
    (emitAll cs s).txTid = s.txTid := rfl
@[simp] theorem emitAll_rxUnit (cs : List Byte) (s : State) :
    (emitAll cs s).rxUnit = s.rxUnit := rfl
@[simp] theorem emitAll_rxLen (cs : List Byte) (s : State) :
    (emitAll cs s).rxLen = s.rxLen := rfl
@[simp] theorem emitAll_rxTid (cs : List Byte) (s : State) :
    (emitAll cs s).rxTid = s.rxTid := rfl
@[simp] theorem emitAll_rxPid (cs : List Byte) (s : State) :
    (emitAll cs s).rxPid = s.rxPid := rfl
@[simp] theorem emitAll_cntRxOk (cs : List Byte) (s : State) :
    (emitAll cs s).cntRxOk = s.cntRxOk := rfl
@[simp] theorem emitAll_cntFrameErr (cs : List Byte) (s : State) :
    (emitAll cs s).cntFrameErr = s.cntFrameErr := rfl
@[simp] theorem emitAll_cntCrcErr (cs : List Byte) (s : State) :
    (emitAll cs s).cntCrcErr = s.cntCrcErr := rfl
@[simp] theorem emitAll_cntOverrun (cs : List Byte) (s : State) :
    (emitAll cs s).cntOverrun = s.cntOverrun := rfl
@[simp] theorem emitAll_mem (cs : List Byte) (s : State) :
    (emitAll cs s).mem = s.mem := rfl
@[simp] theorem emitAll_rxs (cs : List Byte) (s : State) :
    (emitAll cs s).rxs = s.rxs := rfl
@[simp] theorem emitAll_rxAsm (cs : List Byte) (s : State) :
    (emitAll cs s).rxAsm = s.rxAsm := rfl
@[simp] theorem emitAll_rxNib (cs : List Byte) (s : State) :
    (emitAll cs s).rxNib = s.rxNib := rfl
@[simp] theorem emitAll_tRxLast (cs : List Byte) (s : State) :
    (emitAll cs s).tRxLast = s.tRxLast := rfl
@[simp] theorem emitAll_tLine (cs : List Byte) (s : State) :
    (emitAll cs s).tLine = s.tLine := rfl
@[simp] theorem emitAll_txs (cs : List Byte) (s : State) :
    (emitAll cs s).txs = s.txs := rfl
@[simp] theorem emitAll_crcAcc (cs : List Byte) (s : State) :
    (emitAll cs s).crcAcc = s.crcAcc := rfl
@[simp] theorem emitAll_lrcSum (cs : List Byte) (s : State) :
    (emitAll cs s).lrcSum = s.lrcSum := rfl
@[simp] theorem emitAll_t (cs : List Byte) (s : State) :
    (emitAll cs s).t = s.t := rfl
@[simp] theorem emitAll_ramDraw (cs : List Byte) (s : State) :
    (emitAll cs s).ramDraw = s.ramDraw := rfl
@[simp] theorem emitAll_inputs (cs : List Byte) (s : State) :
    (emitAll cs s).inputs = s.inputs := rfl
@[simp] theorem emitAll_lineOut (cs : List Byte) (s : State) :
    (emitAll cs s).lineOut = s.lineOut ++ cs.map fun c => (s.t, c) := rfl
@[simp] theorem emitAll_hostResp (cs : List Byte) (s : State) :
    (emitAll cs s).hostResp = s.hostResp := rfl

/-! ### dropPartial -/

@[simp] theorem dropPartial_mode (s : State) :
    (dropPartial s).mode = s.mode := rfl
@[simp] theorem dropPartial_charBits (s : State) :
    (dropPartial s).charBits = s.charBits := rfl
@[simp] theorem dropPartial_rxValid (s : State) :
    (dropPartial s).rxValid = s.rxValid := rfl
@[simp] theorem dropPartial_txDone (s : State) :
    (dropPartial s).txDone = s.txDone := rfl
@[simp] theorem dropPartial_rxErr (s : State) :
    (dropPartial s).rxErr = s.rxErr := rfl
@[simp] theorem dropPartial_overrun (s : State) :
    (dropPartial s).overrun = s.overrun := rfl
@[simp] theorem dropPartial_rxtErr (s : State) :
    (dropPartial s).rxtErr = s.rxtErr := rfl
@[simp] theorem dropPartial_err (s : State) :
    (dropPartial s).err = s.err := rfl
@[simp] theorem dropPartial_ie (s : State) :
    (dropPartial s).ie = s.ie := rfl
@[simp] theorem dropPartial_baud (s : State) :
    (dropPartial s).baud = s.baud := rfl
@[simp] theorem dropPartial_txDly (s : State) :
    (dropPartial s).txDly = s.txDly := rfl
@[simp] theorem dropPartial_txUnit (s : State) :
    (dropPartial s).txUnit = s.txUnit := rfl
@[simp] theorem dropPartial_txLen (s : State) :
    (dropPartial s).txLen = s.txLen := rfl
@[simp] theorem dropPartial_txTid (s : State) :
    (dropPartial s).txTid = s.txTid := rfl
@[simp] theorem dropPartial_rxUnit (s : State) :
    (dropPartial s).rxUnit = s.rxUnit := rfl
@[simp] theorem dropPartial_rxLen (s : State) :
    (dropPartial s).rxLen = s.rxLen := rfl
@[simp] theorem dropPartial_rxTid (s : State) :
    (dropPartial s).rxTid = s.rxTid := rfl
@[simp] theorem dropPartial_rxPid (s : State) :
    (dropPartial s).rxPid = s.rxPid := rfl
@[simp] theorem dropPartial_cntRxOk (s : State) :
    (dropPartial s).cntRxOk = s.cntRxOk := rfl
@[simp] theorem dropPartial_cntFrameErr (s : State) :
    (dropPartial s).cntFrameErr = s.cntFrameErr := rfl
@[simp] theorem dropPartial_cntCrcErr (s : State) :
    (dropPartial s).cntCrcErr = s.cntCrcErr := rfl
@[simp] theorem dropPartial_cntOverrun (s : State) :
    (dropPartial s).cntOverrun = s.cntOverrun := rfl
@[simp] theorem dropPartial_mem (s : State) :
    (dropPartial s).mem = s.mem := rfl
@[simp] theorem dropPartial_rxs (s : State) :
    (dropPartial s).rxs = s.rxs := rfl
@[simp] theorem dropPartial_rxAsm (s : State) :
    (dropPartial s).rxAsm = [] := rfl
@[simp] theorem dropPartial_rxNib (s : State) :
    (dropPartial s).rxNib = none := rfl
@[simp] theorem dropPartial_tRxLast (s : State) :
    (dropPartial s).tRxLast = s.tRxLast := rfl
@[simp] theorem dropPartial_tLine (s : State) :
    (dropPartial s).tLine = s.tLine := rfl
@[simp] theorem dropPartial_txs (s : State) :
    (dropPartial s).txs = s.txs := rfl
@[simp] theorem dropPartial_crcAcc (s : State) :
    (dropPartial s).crcAcc = s.crcAcc := rfl
@[simp] theorem dropPartial_lrcSum (s : State) :
    (dropPartial s).lrcSum = s.lrcSum := rfl
@[simp] theorem dropPartial_t (s : State) :
    (dropPartial s).t = s.t := rfl
@[simp] theorem dropPartial_ramDraw (s : State) :
    (dropPartial s).ramDraw = s.ramDraw := rfl
@[simp] theorem dropPartial_inputs (s : State) :
    (dropPartial s).inputs = s.inputs := rfl
@[simp] theorem dropPartial_lineOut (s : State) :
    (dropPartial s).lineOut = s.lineOut := rfl
@[simp] theorem dropPartial_hostResp (s : State) :
    (dropPartial s).hostResp = s.hostResp := rfl

end Sys2Proof.Machine
end

