-- ==== Sys2Proof/Laws/Memory.lean ====
section
/-! SUPPORT. The RAM bytes: read after write, the canonical form, and what filling a RAM changes. -/

namespace Sys2Proof.Machine

/-! ## One byte -/

@[simp] theorem Memory.lookup_store_same (m : Memory) (a : Nat) (v : Byte) :
    Memory.lookup (Memory.store m a v) a = some v := by
  induction m with
  | nil => simp [Memory.store, Memory.lookup]
  | cons c rest ih =>
    obtain ⟨k, w⟩ := c
    simp only [Memory.store]
    split
    · simp [Memory.lookup]
    · split
      · simp [Memory.lookup]
      · simp [Memory.lookup, *]

theorem Memory.lookup_store_other {m : Memory} {a b : Nat} {v : Byte} (h : b ≠ a) :
    Memory.lookup (Memory.store m a v) b = Memory.lookup m b := by
  induction m with
  | nil => simp [Memory.store, Memory.lookup, h]
  | cons c rest ih =>
    obtain ⟨k, w⟩ := c
    simp only [Memory.store]
    split
    · simp [Memory.lookup, h]
    · split
      · subst_vars; simp [Memory.lookup, h]
      · simp [Memory.lookup, ih]

/-! ## The canonical form -/

theorem Memory.above_store {m : Memory} {k a : Nat} {v : Byte} (hk : Memory.above k m = true)
    (h : k < a) : Memory.above k (Memory.store m a v) = true := by
  induction m with
  | nil => simp [Memory.store, Memory.above, h]
  | cons c rest ih =>
    obtain ⟨j, w⟩ := c
    simp only [Memory.above, List.all_cons, Bool.and_eq_true, decide_eq_true_eq] at hk
    simp only [Memory.store]
    split
    · simp [Memory.above, h, hk.1]; simpa using hk.2
    · split
      · simp [Memory.above, h]; simpa using hk.2
      · have := ih (by simpa [Memory.above] using hk.2)
        simp only [Memory.above, List.all_cons, Bool.and_eq_true, decide_eq_true_eq]
        exact ⟨hk.1, this⟩

theorem Memory.above_mono {m : Memory} {j k : Nat} (hk : Memory.above k m = true) (h : j ≤ k) :
    Memory.above j m = true := by
  simp only [Memory.above, List.all_eq_true, decide_eq_true_eq] at hk ⊢
  intro c hc
  exact Nat.lt_of_le_of_lt h (hk c hc)

/-- A store keeps the canonical form. -/
theorem Memory.store_wf {m : Memory} (a : Nat) (v : Byte) (h : Memory.wf m = true) :
    Memory.wf (Memory.store m a v) = true := by
  induction m with
  | nil => rfl
  | cons c rest ih =>
    obtain ⟨k, w⟩ := c
    simp only [Memory.wf, Bool.and_eq_true] at h
    simp only [Memory.store]
    split
    · rename_i hak
      simp only [Memory.wf, Bool.and_eq_true, Memory.above, List.all_cons, decide_eq_true_eq]
      exact ⟨⟨hak, Memory.above_mono h.1 (Nat.le_of_lt hak)⟩, h⟩
    · split
      · subst_vars
        simp only [Memory.wf, Bool.and_eq_true]
        exact h
      · simp only [Memory.wf, Bool.and_eq_true]
        exact ⟨Memory.above_store h.1 (by omega), ih h.2⟩

/-- A store lists no address but its own that was not listed before. -/
theorem Memory.store_all {m : Memory} {p : Nat → Bool} {a : Nat} {v : Byte}
    (h : m.all (fun c => p c.1) = true) (ha : p a = true) :
    (Memory.store m a v).all (fun c => p c.1) = true := by
  induction m with
  | nil => simp [Memory.store, ha]
  | cons c rest ih =>
    obtain ⟨k, w⟩ := c
    simp only [List.all_cons, Bool.and_eq_true] at h
    simp only [Memory.store]
    split
    · simp only [List.all_cons, Bool.and_eq_true]; exact ⟨ha, h⟩
    · split
      · simp only [List.all_cons, Bool.and_eq_true]; exact ⟨ha, h.2⟩
      · simp only [List.all_cons, Bool.and_eq_true]; exact ⟨h.1, ih h.2⟩

/-! ## Entries and words -/

theorem Memory.storeEntry_wf {m : Memory} (addr : Nat → Nat) (limit i : Nat) (b : Byte)
    (h : Memory.wf m = true) : Memory.wf (Memory.storeEntry addr limit i b m) = true := by
  unfold Memory.storeEntry
  split
  · exact Memory.store_wf _ _ h
  · exact h

theorem Memory.fillEntries_wf {addr : Nat → Nat} {limit : Nat} (bs : List Byte) {i : Nat}
    {m : Memory} (h : Memory.wf m = true) :
    Memory.wf (Memory.fillEntries addr limit i m bs) = true := by
  induction bs generalizing i m with
  | nil => exact h
  | cons b bs ih => exact ih (Memory.storeEntry_wf _ _ _ _ h)

theorem Memory.storeWord_wf {m : Memory} (i : Nat) (w : Word) (h : Memory.wf m = true) :
    Memory.wf (Memory.storeWord i w m) = true := by
  unfold Memory.storeWord
  split
  · exact Memory.store_wf _ _ (Memory.store_wf _ _ (Memory.store_wf _ _ (Memory.store_wf _ _ h)))
  · exact h

theorem Memory.fillWords_wf (ws : List Word) {i : Nat} {m : Memory} (h : Memory.wf m = true) :
    Memory.wf (Memory.fillWords i m ws) = true := by
  induction ws generalizing i m with
  | nil => exact h
  | cons w ws ih => exact ih (Memory.storeWord_wf _ _ h)

theorem Memory.fillEntries_all {p : Nat → Bool} {addr : Nat → Nat} {limit : Nat}
    (ha : ∀ i, i < limit → p (addr i) = true) (bs : List Byte) {i : Nat} {m : Memory}
    (h : m.all (fun c => p c.1) = true) :
    (Memory.fillEntries addr limit i m bs).all (fun c => p c.1) = true := by
  induction bs generalizing i m with
  | nil => exact h
  | cons b bs ih =>
    apply ih
    unfold Memory.storeEntry
    split
    · exact Memory.store_all h (ha i ‹_›)
    · exact h

theorem Memory.fillWords_all {p : Nat → Bool}
    (ha : ∀ i, i < Config.msgN → ∀ k, k < 4 → p (msgAddr i + k) = true) (ws : List Word) {i : Nat}
    {m : Memory} (h : m.all (fun c => p c.1) = true) :
    (Memory.fillWords i m ws).all (fun c => p c.1) = true := by
  induction ws generalizing i m with
  | nil => exact h
  | cons w ws ih =>
    apply ih
    unfold Memory.storeWord
    split
    · rename_i hi
      exact Memory.store_all (Memory.store_all (Memory.store_all (Memory.store_all h
        (ha i hi 0 (by omega))) (ha i hi 1 (by omega))) (ha i hi 2 (by omega)))
        (ha i hi 3 (by omega))
    · exact h

/-- Filling entries changes no byte outside the entries filled. -/
theorem Memory.lookup_fillEntries_other {addr : Nat → Nat} {limit a : Nat} (bs : List Byte)
    {i : Nat} {m : Memory} (h : ∀ k, i ≤ k → k < i + bs.length → a ≠ addr k) :
    Memory.lookup (Memory.fillEntries addr limit i m bs) a = Memory.lookup m a := by
  induction bs generalizing i m with
  | nil => rfl
  | cons b bs ih =>
    simp only [List.length_cons] at h
    rw [Memory.fillEntries, ih (fun k h1 h2 => h k (by omega) (by omega))]
    unfold Memory.storeEntry
    split
    · exact Memory.lookup_store_other (h i (Nat.le_refl i) (by omega))
    · rfl

/-- Filling entries leaves each byte in its entry. -/
theorem Memory.lookup_fillEntries {addr : Nat → Nat} {limit : Nat}
    (inj : ∀ j k, addr j = addr k → j = k) (bs : List Byte) {i k : Nat} {m : Memory}
    (hk : k < bs.length) (hl : i + k < limit) :
    Memory.lookup (Memory.fillEntries addr limit i m bs) (addr (i + k)) = some bs[k] := by
  induction bs generalizing i k m with
  | nil => simp at hk
  | cons b bs ih =>
    rw [Memory.fillEntries]
    cases k with
    | zero =>
      rw [Memory.lookup_fillEntries_other]
      · simp [Memory.storeEntry, show i < limit by omega]
      · intro j h1 h2 h3
        have := inj _ _ h3
        omega
    | succ k =>
      simp only [List.length_cons, Nat.add_lt_add_iff_right] at hk
      have := ih (i := i + 1) (m := Memory.storeEntry addr limit i b m) hk (by omega)
      simpa [Nat.add_assoc, Nat.add_comm 1 k] using this

/-- Storing a word changes no byte outside its four. -/
theorem Memory.lookup_storeWord_other {i a : Nat} {w : Word} {m : Memory}
    (h : a < msgAddr i ∨ msgAddr i + 4 ≤ a) :
    Memory.lookup (Memory.storeWord i w m) a = Memory.lookup m a := by
  unfold Memory.storeWord
  split
  · rw [Memory.lookup_store_other (by omega), Memory.lookup_store_other (by omega),
      Memory.lookup_store_other (by omega), Memory.lookup_store_other (by omega)]
  · rfl

/-- Filling words changes no byte outside the words filled. -/
theorem Memory.lookup_fillWords_other {a : Nat} (ws : List Word) {i : Nat} {m : Memory}
    (h : ∀ k, i ≤ k → k < i + ws.length → a < msgAddr k ∨ msgAddr k + 4 ≤ a) :
    Memory.lookup (Memory.fillWords i m ws) a = Memory.lookup m a := by
  induction ws generalizing i m with
  | nil => rfl
  | cons w ws ih =>
    simp only [List.length_cons] at h
    rw [Memory.fillWords, ih (fun k h1 h2 => h k (by omega) (by omega)),
      Memory.lookup_storeWord_other (h i (Nat.le_refl i) (by omega))]

/-- The four bytes of a stored word. -/
theorem Memory.lookup_storeWord {i k : Nat} {w : Word} {m : Memory} (hi : i < Config.msgN)
    (hk : k < 4) :
    Memory.lookup (Memory.storeWord i w m) (msgAddr i + k) = some (w.extractLsb' (8 * k) 8) := by
  unfold Memory.storeWord
  rw [if_pos hi]
  match k, hk with
  | 0, _ =>
    rw [Memory.lookup_store_other (by omega), Memory.lookup_store_other (by omega),
      Memory.lookup_store_other (by omega)]
    simp
  | 1, _ =>
    rw [Memory.lookup_store_other (by omega), Memory.lookup_store_other (by omega)]
    simp
  | 2, _ =>
    rw [Memory.lookup_store_other (by omega)]
    simp
  | 3, _ => simp

/-- Filling words leaves each word's bytes in place. -/
theorem Memory.lookup_fillWords (ws : List Word) {i j k : Nat} {m : Memory} (hj : j < ws.length)
    (hl : i + j < Config.msgN) (hk : k < 4) :
    Memory.lookup (Memory.fillWords i m ws) (msgAddr (i + j) + k)
      = some (ws[j].extractLsb' (8 * k) 8) := by
  induction ws generalizing i j m with
  | nil => simp at hj
  | cons w ws ih =>
    rw [Memory.fillWords]
    cases j with
    | zero =>
      rw [Memory.lookup_fillWords_other]
      · exact Memory.lookup_storeWord (by omega) hk
      · intro n h1 h2
        simp only [msgAddr]
        omega
    | succ j =>
      simp only [List.length_cons, Nat.add_lt_add_iff_right] at hj
      have := ih (i := i + 1) (m := Memory.storeWord i w m) hj (by omega)
      simpa [Nat.add_assoc, Nat.add_comm 1 j] using this

/-! ## Reading the state -/

theorem State.readByte_eq_of_lookup {s t : State} {a : Nat} (hd : t.ramDraw = s.ramDraw)
    (h : Memory.lookup t.mem a = Memory.lookup s.mem a) : t.readByte a = s.readByte a := by
  simp [State.readByte, hd, h]

theorem State.readByte_of_lookup {s : State} {a : Nat} {v : Byte}
    (h : Memory.lookup s.mem a = some v) : s.readByte a = v := by
  simp [State.readByte, h]

/-- A word put together from its four bytes. -/
theorem word_of_bytes (w : Word) :
    w.extractLsb' 24 8 ++ w.extractLsb' 16 8 ++ w.extractLsb' 8 8 ++ w.extractLsb' 0 8 = w := by
  ext i hi
  simp only [BitVec.getElem_append, BitVec.getElem_extractLsb']
  split
  · simp; rw [BitVec.getLsbD_eq_getElem]
  · split
    · rw [show 8 + (i - 8) = i by omega, BitVec.getLsbD_eq_getElem]
    · split
      · rw [show 16 + (i - 8 - 8) = i by omega, BitVec.getLsbD_eq_getElem]
      · rw [show 24 + (i - 8 - 8 - 8) = i by omega, BitVec.getLsbD_eq_getElem]

/-- MSG[i] after its bytes have been found. -/
theorem State.msg_of_lookup {s : State} {i : Nat} {w : Word}
    (h : ∀ k, k < 4 → Memory.lookup s.mem (msgAddr i + k) = some (w.extractLsb' (8 * k) 8)) :
    s.msg i = w := by
  have h0 := State.readByte_of_lookup (h 0 (by omega))
  have h1 := State.readByte_of_lookup (h 1 (by omega))
  have h2 := State.readByte_of_lookup (h 2 (by omega))
  have h3 := State.readByte_of_lookup (h 3 (by omega))
  simp only [Nat.add_zero, Nat.mul_zero] at h0
  unfold State.msg
  rw [h0, h1, h2, h3]
  exact word_of_bytes w

theorem txbufAddr_inj (j k : Nat) (h : txbufAddr j = txbufAddr k) : j = k := by
  simp only [txbufAddr] at h; omega

theorem rxbufAddr_inj (j k : Nat) (h : rxbufAddr j = rxbufAddr k) : j = k := by
  simp only [rxbufAddr] at h; omega

/-- TXBUF after a fill from entry 0. -/
theorem State.txbuf_fillTxbuf {s : State} {bs : List Byte} {k : Nat} (hk : k < bs.length)
    (hl : k < Config.bufN) : (s.fillTxbuf 0 bs).txbuf k = bs[k] := by
  apply State.readByte_of_lookup
  have := Memory.lookup_fillEntries txbufAddr_inj bs (i := 0) (m := s.mem) (limit := Config.bufN)
    hk (by omega)
  simpa using this

/-- RXBUF after a fill from entry 0. -/
theorem State.rxbuf_fillRxbuf {s : State} {bs : List Byte} {k : Nat} (hk : k < bs.length)
    (hl : k < Config.bufN) : (s.fillRxbuf 0 bs).rxbuf k = bs[k] := by
  apply State.readByte_of_lookup
  have := Memory.lookup_fillEntries rxbufAddr_inj bs (i := 0) (m := s.mem) (limit := Config.bufN)
    hk (by omega)
  simpa using this

/-- A TXBUF fill changes no byte outside the entries filled. -/
theorem State.readByte_fillTxbuf_other {s : State} {bs : List Byte} {a : Nat}
    (h : ∀ k, k < bs.length → a ≠ txbufAddr k) :
    (s.fillTxbuf 0 bs).readByte a = s.readByte a :=
  State.readByte_eq_of_lookup rfl
    (Memory.lookup_fillEntries_other bs fun k _ h2 => h k (by omega))

/-- An RXBUF fill changes no byte outside the entries filled. -/
theorem State.readByte_fillRxbuf_other {s : State} {bs : List Byte} {a : Nat}
    (h : ∀ k, k < bs.length → a ≠ rxbufAddr k) :
    (s.fillRxbuf 0 bs).readByte a = s.readByte a :=
  State.readByte_eq_of_lookup rfl
    (Memory.lookup_fillEntries_other bs fun k _ h2 => h k (by omega))

end Sys2Proof.Machine
end

