-- ==== Sys2Proof/Laws/Bus.lean ====
section
/-! SUPPORT. What one event does: the cases of a step, and the offsets of the aperture
(spec/10_state.md R31, spec/20_memory.md R90-R93). -/

namespace Sys2Proof.Machine

/-! ## The register map -/

/-- No register lies above 0x050. -/
theorem registerAt_none {off : Nat} (h : 0x054 ≤ off) : registerAt off = none := by
  unfold registerAt
  split <;> first | rfl | (exfalso; omega)

/-- Every register is found at its offset. -/
theorem registerAt_offset (r : RegName) : registerAt r.offset = some r := by cases r <;> rfl

/-- What is found at an offset has that offset. -/
theorem registerAt_some {off : Nat} {r : RegName} (h : registerAt off = some r) :
    off = r.offset := by
  unfold registerAt at h
  split at h <;> first | (cases h; rfl) | cases h

theorem targetAt_reg (r : RegName) : targetAt r.offset = .reg r := by cases r <;> rfl

theorem targetAt_txbuf {i : Nat} (h : i < 256) : targetAt (0x1000 + 4 * i) = .txbuf i := by
  unfold targetAt
  rw [registerAt_none (by omega)]
  simp only
  rw [if_pos (by omega)]
  congr 1
  omega

theorem targetAt_rxbuf {i : Nat} (h : i < 256) : targetAt (0x1400 + 4 * i) = .rxbuf i := by
  unfold targetAt
  rw [registerAt_none (by omega)]
  simp only
  rw [if_neg (by omega), if_pos (by omega)]
  congr 1
  omega

theorem targetAt_msg {i : Nat} (h : i < 2048) : targetAt (0x4000 + 4 * i) = .msg i := by
  unfold targetAt
  rw [registerAt_none (by omega)]
  simp only
  rw [if_neg (by omega), if_neg (by omega), if_pos (by omega)]
  congr 1
  omega

/-- The reserved ranges of the map name nothing (10_state.md R53). -/
theorem targetAt_reserved {off : Nat}
    (h : (0x054 ≤ off ∧ off < 0x1000) ∨ (0x1800 ≤ off ∧ off < 0x4000) ∨ 0x6000 ≤ off) :
    targetAt off = .reserved := by
  unfold targetAt
  rw [registerAt_none (by omega)]
  simp only
  rw [if_neg (by omega), if_neg (by omega), if_neg (by omega)]

/-! ## Accesses -/

theorem accepted_word {off : Nat} (h : off % 4 = 0) : accepted .word off = true := by
  simp [accepted, h]

theorem accepted_false {size : AccessSize} {off : Nat} (h : size ≠ .word ∨ off % 4 ≠ 0) :
    accepted size off = false := by
  cases size <;> simp_all [accepted]

theorem busRead_accepted {off : Nat} (h : off % 4 = 0) (hl : off < 0x8000) (s : State) :
    busRead .word off s = .next { s with hostResp := .data (readTarget (targetAt off) s) } := by
  rw [busRead, Config.aperture, if_neg (by omega), if_pos (accepted_word h)]

theorem busWrite_accepted {off : Nat} (h : off % 4 = 0) (hl : off < 0x8000) (v : Word) (s : State) :
    busWrite .word off v s = writeTarget (targetAt off) v { s with hostResp := .done } := by
  rw [busWrite, Config.aperture, if_neg (by omega), if_pos (accepted_word h)]

/-- A read does not depend on what the model's own fields hold. -/
theorem readTarget_frame (g : Target) (s : State) (e : List Event) (r : HostResponse) :
    readTarget g { s with inputs := e, hostResp := r } = readTarget g s := by
  cases g with
  | reg r => cases r <;> rfl
  | txbuf i => rfl
  | rxbuf i => rfl
  | msg i => rfl
  | reserved => rfl

/-! ## Steps -/

theorem step_busRead {s : State} {size : AccessSize} {off : Nat} {rest : List Event}
    (h : s.inputs = .busRead size off :: rest) :
    step s = busRead size off { s with inputs := rest } := by
  simp [step, nextEvent, consumeEvent, h, handleEvent]

theorem step_busWrite {s : State} {size : AccessSize} {off : Nat} {v : Word} {rest : List Event}
    (h : s.inputs = .busWrite size off v :: rest) :
    step s = busWrite size off v { s with inputs := rest } := by
  simp [step, nextEvent, consumeEvent, h, handleEvent]

theorem step_rxChar {s : State} {b : Byte} {rest : List Event} (h : s.inputs = .rxChar b :: rest) :
    step s = .next (rxCharEvent b { s with inputs := rest }) := by
  simp [step, nextEvent, consumeEvent, h, handleEvent]

theorem step_rxEos {s : State} {rest : List Event} (h : s.inputs = .rxEos :: rest) :
    step s = .next (rxEosEvent { s with inputs := rest }) := by
  simp [step, nextEvent, consumeEvent, h, handleEvent]

theorem step_tick {s : State} {rest : List Event} (h : s.inputs = .tick :: rest) :
    step s = .next (tickEvent { s with inputs := rest }) := by
  simp [step, nextEvent, consumeEvent, h, handleEvent]

theorem step_reset {s : State} {rest : List Event} (h : s.inputs = .reset :: rest) :
    step s = .next (hardwareReset { s with inputs := rest }) := by
  simp [step, nextEvent, consumeEvent, h, handleEvent]

/-- An accepted write of a word. -/
theorem step_write {s : State} {off : Nat} {v : Word} {rest : List Event}
    (h : s.inputs = .busWrite .word off v :: rest) (ha : off % 4 = 0) (hl : off < 0x8000) :
    step s = writeTarget (targetAt off) v { s with inputs := rest, hostResp := .done } := by
  rw [step_busWrite h, busWrite_accepted ha hl]

/-- An accepted read. -/
theorem step_read {s : State} {off : Nat} {rest : List Event}
    (h : s.inputs = .busRead .word off :: rest) (ha : off % 4 = 0) (hl : off < 0x8000) :
    step s = .next { s with inputs := rest, hostResp := .data (readTarget (targetAt off) s) } := by
  rw [step_busRead h, busRead_accepted ha hl, readTarget_frame]

/-- A write to CMD. -/
theorem step_command {s : State} {v : Word} {rest : List Event}
    (h : s.inputs = .busWrite .word 0x010 v :: rest) :
    step s = issueCommand v { s with inputs := rest, hostResp := .done } :=
  step_write h (by decide) (by decide)

/-- `k + 1` steps of the machine are a step and then `k`. -/
theorem run_succ {k : Nat} {s t : State} (h : step s = .next t) :
    core.run (k + 1) s = core.run k t := by
  have hc : core.step s = .next t := h
  simp only [Host.Core.run, hc]

/-- `k + 1` steps that end in a state begin with a step. -/
theorem run_succ_next {k : Nat} {s t : State} (h : core.run (k + 1) s = .next t) :
    ∃ u, step s = .next u ∧ core.run k u = .next t := by
  simp only [Host.Core.run] at h
  split at h
  · rename_i u hu
    exact ⟨u, hu, h⟩
  · cases h
  · cases h

/-- `j + k` steps are `j` steps and then `k`. -/
theorem run_add {j k : Nat} {s t : State} (h : core.run j s = .next t) :
    core.run (j + k) s = core.run k t := by
  induction j generalizing s with
  | zero =>
    rw [Nat.zero_add]
    cases h
    rfl
  | succ j ih =>
    obtain ⟨u, hu, hr⟩ := run_succ_next h
    rw [Nat.succ_add, run_succ hu, ih hr]

end Sys2Proof.Machine
end

