-- ==== Sys2Proof/Laws/Decode.lean ====
section
/-! SUPPORT. The byte-order and bit-packing helpers of Decode.lean invert each other, and the lengths of
the encoder's bytes. -/

namespace Sys2Proof

/-! ## Bytes and 16-bit values -/

@[simp] theorem half_hiByte_loByte (v : Half) : half (hiByte v) (loByte v) = v := by
  unfold half hiByte loByte
  ext i hi
  simp only [BitVec.getElem_append, BitVec.getElem_extractLsb']
  split
  · rw [Nat.zero_add, BitVec.getLsbD_eq_getElem]
  · rw [show 8 + (i - 8) = i by omega, BitVec.getLsbD_eq_getElem]

@[simp] theorem hiByte_half (h l : Byte) : hiByte (half h l) = h := by
  unfold half hiByte
  ext i hi
  rw [BitVec.getElem_extractLsb', BitVec.getLsbD_append]
  simp [hi]

@[simp] theorem loByte_half (h l : Byte) : loByte (half h l) = l := by
  unfold half loByte
  ext i hi
  rw [BitVec.getElem_extractLsb', BitVec.getLsbD_append]
  simp [hi]

@[simp] theorem be16_length (v : Half) : (be16 v).length = 2 := rfl

@[simp] theorem halfBytes_nil : halfBytes [] = [] := rfl

theorem halfBytes_cons (v : Half) (vs : List Half) :
    halfBytes (v :: vs) = hiByte v :: loByte v :: halfBytes vs := rfl

@[simp] theorem halfBytes_length (vs : List Half) : (halfBytes vs).length = 2 * vs.length := by
  induction vs with
  | nil => rfl
  | cons v vs ih => rw [halfBytes_cons]; simp only [List.length_cons, ih]; omega

/-- Reading back the bytes of a value list. -/
@[simp] theorem halves_halfBytes (vs : List Half) : halves (halfBytes vs) = vs := by
  induction vs with
  | nil => rfl
  | cons v vs ih => rw [halfBytes_cons, halves, half_hiByte_loByte, ih]

/-- Writing back the values of an even number of bytes. -/
theorem halfBytes_halves (bs : List Byte) (h : bs.length % 2 = 0) : halfBytes (halves bs) = bs := by
  match bs, h with
  | [], _ => rfl
  | [_], h => simp at h
  | x :: y :: rest, h =>
    have : rest.length % 2 = 0 := by simp only [List.length_cons] at h; omega
    rw [halves, halfBytes_cons, halfBytes_halves rest this, hiByte_half, loByte_half]

theorem halves_length (bs : List Byte) : (halves bs).length = bs.length / 2 := by
  match bs with
  | [] => rfl
  | [_] => simp [halves]
  | x :: y :: rest => simp only [halves, List.length_cons, halves_length rest]; omega

theorem countByte_toNat {n : Nat} (h : n < 256) : (countByte n).toNat = n := by
  simp [countByte, Nat.mod_eq_of_lt h]

theorem countHalf_toNat {n : Nat} (h : n < 65536) : (countHalf n).toNat = n := by
  simp [countHalf, Nat.mod_eq_of_lt h]

theorem countByte_of_toNat (b : Byte) : countByte b.toNat = b := by simp [countByte]

theorem countHalf_of_toNat (v : Half) : countHalf v.toNat = v := by simp [countHalf]

/-! ## Bits -/

/-- Bit k of a packed byte (R133). -/
theorem byteOfBits_getLsbD (f : Nat → Bool) {k : Nat} (hk : k < 8) :
    (byteOfBits f).getLsbD k = f k := by
  unfold byteOfBits
  match k, hk with
  | 0, _ | 1, _ | 2, _ | 3, _ | 4, _ | 5, _ | 6, _ | 7, _ =>
    cases f 0 <;> cases f 1 <;> cases f 2 <;> cases f 3 <;> cases f 4 <;> cases f 5 <;>
      cases f 6 <;> cases f 7 <;> rfl

theorem packBits_length (xs : List Bool) : (packBits xs).length = (xs.length + 7) / 8 := by
  simp [packBits]

theorem unpackBits_length (bs : List Byte) : (unpackBits bs).length = 8 * bs.length := by
  simp [unpackBits]

/-- Unpacking packed whole bytes gives the bits back. -/
theorem unpackBits_packBits {xs : List Bool} (h : xs.length % 8 = 0) :
    unpackBits (packBits xs) = xs := by
  apply List.ext_getElem
  · rw [unpackBits_length, packBits_length]; omega
  · intro i h1 h2
    have hj : i / 8 < (packBits xs).length := by rw [packBits_length]; omega
    simp only [unpackBits, List.getElem_map, List.getElem_range]
    rw [List.getD_eq_getElem _ _ hj]
    simp only [packBits, List.getElem_map, List.getElem_range]
    rw [byteOfBits_getLsbD _ (Nat.mod_lt _ (by omega)), show 8 * (i / 8) + i % 8 = i by omega,
      List.getD_eq_getElem _ _ h2]

/-- Packing unpacked bytes gives the bytes back. -/
theorem packBits_unpackBits (bs : List Byte) : packBits (unpackBits bs) = bs := by
  apply List.ext_getElem
  · rw [packBits_length, unpackBits_length]; omega
  · intro j h1 h2
    simp only [packBits, List.getElem_map, List.getElem_range]
    apply BitVec.eq_of_getLsbD_eq
    intro k hk
    rw [byteOfBits_getLsbD _ hk]
    have hi : 8 * j + k < (unpackBits bs).length := by rw [unpackBits_length]; omega
    rw [List.getD_eq_getElem _ _ hi]
    simp only [unpackBits, List.getElem_map, List.getElem_range]
    rw [show (8 * j + k) / 8 = j by omega, show (8 * j + k) % 8 = k by omega,
      List.getD_eq_getElem _ _ h2]

/-! ## The file layouts -/

@[simp] theorem fileRefBytes_length (r : FileRef) : (fileRefBytes r).length = 7 := rfl

theorem fileRefs_length (subs : List FileRef) :
    (subs.flatMap fileRefBytes).length = 7 * subs.length := by
  induction subs with
  | nil => rfl
  | cons r rs ih => simp only [List.flatMap_cons, List.length_append, fileRefBytes_length, ih,
      List.length_cons]; omega

theorem fileData_length (subs : List FileData) :
    (subs.flatMap fileDataBytes).length = fileDataSize subs := by
  induction subs with
  | nil => rfl
  | cons d ds ih =>
    simp only [List.flatMap_cons, List.length_append, ih, fileDataSize, fileDataBytes,
      List.length_cons, halfBytes_length]; omega

theorem fileWrites_length (subs : List FileWrite) :
    (subs.flatMap fileWriteBytes).length = fileWriteSize subs := by
  induction subs with
  | nil => rfl
  | cons d ds ih =>
    simp only [List.flatMap_cons, List.length_append, ih, fileWriteSize, fileWriteBytes,
      List.length_cons, halfBytes_length, be16_length]

/-! ## How long a payload is (R134) -/

/-- The number of bytes of a payload. -/
theorem packPayload_length (p : Payload) :
    (packPayload p).length =
      match p with
      | .pair _ _ => 4
      | .coils bits => 1 + (bits.length + 7) / 8
      | .registers values => 1 + 2 * values.length
      | .writeCoils _ _ bits => 5 + (bits.length + 7) / 8
      | .writeRegs _ _ values => 5 + 2 * values.length
      | .fileRefs subs => 1 + 7 * subs.length
      | .fileData subs => 1 + fileDataSize subs
      | .fileWrites subs => 1 + fileWriteSize subs
      | .maskWrite _ _ _ => 6
      | .readWrite _ _ _ _ values => 9 + 2 * values.length
      | .fifoPointer _ => 2
      | .fifoValues values => 4 + 2 * values.length
      | .exception _ => 1 := by
  cases p <;>
    simp only [packPayload, counted, List.length_append, List.length_cons, be16_length,
      halfBytes_length, packBits_length, fileRefs_length, fileData_length, fileWrites_length,
      List.length_nil] <;> try omega

/-! ## The command word, as arithmetic (R120) -/

theorem opField_toNat (v : Word) : (opField v).toNat = v.toNat % 256 := by simp [opField]

theorem dataField_toNat (v : Word) : (dataField v).toNat = v.toNat / 256 % 256 := by
  simp [dataField, Nat.shiftRight_eq_div_pow]

theorem dirField_eq (v : Word) : dirField v = decide (v.toNat / 65536 % 2 = 1) := by
  simp [dirField, BitVec.getLsbD, Nat.testBit_eq_decide_div_mod_eq]

theorem reservedField_toNat (v : Word) : (reservedField v).toNat = v.toNat / 131072 := by
  have := v.isLt
  simp only [reservedField, BitVec.extractLsb'_toNat, Nat.shiftRight_eq_div_pow]
  omega

theorem reservedField_eq_zero (v : Word) : reservedField v = 0 ↔ v.toNat / 131072 = 0 := by
  rw [← reservedField_toNat, ← BitVec.toNat_inj]
  rfl

theorem dataField_eq_zero (v : Word) : dataField v = 0 ↔ v.toNat / 256 % 256 = 0 := by
  rw [← dataField_toNat, ← BitVec.toNat_inj]
  rfl

/-- A command word with a data byte, as a number. -/
theorem dataWord_toNat {w : Word} (hw : w.toNat < 256) (b : Byte) :
    (w ||| (b.setWidth 32 <<< 8)).toNat = w.toNat + 256 * b.toNat := by
  have hb := b.isLt
  have hs : (b.setWidth 32 <<< 8).toNat = b.toNat <<< 8 := by
    simp only [BitVec.toNat_shiftLeft, BitVec.toNat_setWidth, Nat.shiftLeft_eq]
    omega
  rw [BitVec.toNat_or, hs, Nat.or_comm, ← Nat.shiftLeft_add_eq_or_of_lt (by omega),
    Nat.shiftLeft_eq]
  omega

end Sys2Proof
end

