-- ==== Sys2Proof/Laws/Codec.lean ====
section
/-! SUPPORT. The codec: a payload that fits unpacks to what it was packed from, and the bytes that unpack
are the ones that pack (spec/40_codec.md R160-R187). -/

namespace Sys2Proof

/-! ## Pack, then unpack -/

/-- Coil bits come in whole bytes. -/
def coilsWhole : Payload → Prop
  | .coils bits => bits.length % 8 = 0
  | .writeCoils _ _ bits => bits.length % 8 = 0
  | _ => True

/-- The fields of a payload fit its layout: coil bits in whole bytes, 252 bytes at most. -/
def payloadFits (p : Payload) : Prop := (packPayload p).length ≤ 252 ∧ coilsWhole p

/-- The layout of a payload. -/
def payloadLayout : Payload → Layout
  | .pair _ _ => .pair
  | .coils _ => .coils
  | .registers _ => .registers
  | .writeCoils _ _ _ => .writeCoils
  | .writeRegs _ _ _ => .writeRegs
  | .fileRefs _ => .fileRefs
  | .fileData _ => .fileData
  | .fileWrites _ => .fileWrites
  | .maskWrite _ _ _ => .maskWrite
  | .readWrite _ _ _ _ _ => .readWrite
  | .fifoPointer _ => .fifoPointer
  | .fifoValues _ => .fifoValues
  | .exception _ => .exception

theorem unpackCoils_counted {bits : List Bool} (h : bits.length % 8 = 0) (hl : bits.length < 2048) :
    unpackCoils (countByte (packBits bits).length) (packBits bits) = .ok bits := by
  have hn : (packBits bits).length < 256 := by rw [packBits_length]; omega
  rw [unpackCoils, countByte_toNat hn, if_neg (by simp), unpackBits_packBits h]

theorem unpackRegisters_counted {values : List Half} (hl : values.length < 128) :
    unpackRegisters (countByte (halfBytes values).length) (halfBytes values) = .ok values := by
  have hn : (halfBytes values).length < 256 := by rw [halfBytes_length]; omega
  rw [unpackRegisters, countByte_toNat hn, if_neg (by simp), halfBytes_length,
    if_neg (by omega), halves_halfBytes]

theorem unpackFileRefs_bytes (subs : List FileRef) :
    unpackFileRefs (subs.flatMap fileRefBytes) = subs := by
  induction subs with
  | nil => rfl
  | cons r rs ih =>
    simp only [List.flatMap_cons, fileRefBytes, be16, List.cons_append, List.nil_append,
      unpackFileRefs, half_hiByte_loByte, ih]

theorem unpackFileData_bytes {subs : List FileData} (hl : fileDataSize subs < 256) {fuel : Nat}
    (hf : fileDataSize subs ≤ fuel) :
    unpackFileData fuel (subs.flatMap fileDataBytes) = .ok subs := by
  induction subs generalizing fuel with
  | nil => cases fuel <;> rfl
  | cons d ds ih =>
    simp only [fileDataSize] at hl hf
    obtain ⟨n, rfl⟩ : ∃ n, fuel = n + 1 := ⟨fuel - 1, by omega⟩
    have hc : (countByte (1 + 2 * d.values.length)).toNat = 1 + 2 * d.values.length :=
      countByte_toNat (by omega)
    simp only [List.flatMap_cons, fileDataBytes, List.cons_append, unpackFileData, hc]
    rw [if_neg (by simp; omega)]
    have hd : (d.refType :: (halfBytes d.values ++ ds.flatMap fileDataBytes)).drop
        (1 + 2 * d.values.length) = ds.flatMap fileDataBytes := by
      rw [Nat.add_comm, List.drop_succ_cons, ← halfBytes_length, List.drop_left]
    have ht : ((d.refType :: (halfBytes d.values ++ ds.flatMap fileDataBytes)).take
        (1 + 2 * d.values.length)).drop 1 = halfBytes d.values := by
      rw [Nat.add_comm, List.take_succ_cons, List.drop_succ_cons, List.drop_zero,
        ← halfBytes_length, List.take_left]
    rw [hd, ht, ih (by omega) (by omega), halves_halfBytes]
    rfl

theorem unpackFileWrites_bytes {subs : List FileWrite} (hl : fileWriteSize subs < 256) {fuel : Nat}
    (hf : fileWriteSize subs ≤ fuel) :
    unpackFileWrites fuel (subs.flatMap fileWriteBytes) = .ok subs := by
  induction subs generalizing fuel with
  | nil => cases fuel <;> rfl
  | cons d ds ih =>
    simp only [fileWriteSize] at hl hf
    obtain ⟨n, rfl⟩ : ∃ n, fuel = n + 1 := ⟨fuel - 1, by omega⟩
    have hc : (countHalf d.values.length).toNat = d.values.length := countHalf_toNat (by omega)
    simp only [List.flatMap_cons, fileWriteBytes, be16, List.cons_append, List.nil_append,
      unpackFileWrites, half_hiByte_loByte, hc]
    rw [if_neg (by simp), ← halfBytes_length, List.drop_left, List.take_left,
      ih (by omega) (by omega), halves_halfBytes]

/-- A payload that fits unpacks to itself. -/
theorem unpackPayload_packPayload {p : Payload} (h : payloadFits p) :
    unpackPayload (payloadLayout p) (packPayload p) = .ok p := by
  obtain ⟨hl, hw⟩ := h
  rw [packPayload_length] at hl
  cases p with
  | pair a b => simp [packPayload, payloadLayout, unpackPayload, be16]
  | coils bits =>
    simp only at hl
    simp only [coilsWhole] at hw
    simp only [packPayload, payloadLayout, unpackPayload, counted,
      unpackCoils_counted hw (by omega)]
    rfl
  | registers values =>
    simp only at hl
    simp only [packPayload, payloadLayout, unpackPayload, counted,
      unpackRegisters_counted (values := values) (by omega)]
    rfl
  | writeCoils a q bits =>
    simp only at hl
    simp only [coilsWhole] at hw
    simp only [packPayload, payloadLayout, unpackPayload, counted, be16, List.cons_append,
      List.nil_append, unpackCoils_counted hw (by omega), half_hiByte_loByte]
    rfl
  | writeRegs a q values =>
    simp only at hl
    simp only [packPayload, payloadLayout, unpackPayload, counted, be16, List.cons_append,
      List.nil_append, unpackRegisters_counted (values := values) (by omega), half_hiByte_loByte]
    rfl
  | fileRefs subs =>
    simp only at hl
    have hc : (countByte (subs.flatMap fileRefBytes).length).toNat
        = (subs.flatMap fileRefBytes).length := countByte_toNat (by rw [fileRefs_length]; omega)
    simp only [packPayload, payloadLayout, unpackPayload, counted, hc]
    rw [if_neg (by simp), if_neg (by rw [fileRefs_length]; omega), unpackFileRefs_bytes]
  | fileData subs =>
    simp only at hl
    have hc : (countByte (subs.flatMap fileDataBytes).length).toNat
        = (subs.flatMap fileDataBytes).length := countByte_toNat (by rw [fileData_length]; omega)
    simp only [packPayload, payloadLayout, unpackPayload, counted, hc]
    rw [if_neg (by simp), unpackFileData_bytes (by omega) (by rw [fileData_length])]
    rfl
  | fileWrites subs =>
    simp only at hl
    have hc : (countByte (subs.flatMap fileWriteBytes).length).toNat
        = (subs.flatMap fileWriteBytes).length := countByte_toNat (by rw [fileWrites_length]; omega)
    simp only [packPayload, payloadLayout, unpackPayload, counted, hc]
    rw [if_neg (by simp), unpackFileWrites_bytes (by omega) (by rw [fileWrites_length])]
    rfl
  | maskWrite a n o => simp [packPayload, payloadLayout, unpackPayload, be16]
  | readWrite r m w q values =>
    simp only at hl
    simp only [packPayload, payloadLayout, unpackPayload, counted, be16, List.cons_append,
      List.nil_append, unpackRegisters_counted (values := values) (by omega), half_hiByte_loByte]
    rfl
  | fifoPointer a => simp [packPayload, payloadLayout, unpackPayload, be16]
  | fifoValues values =>
    simp only at hl
    have hb : (countHalf (2 + 2 * values.length)).toNat = 2 + 2 * values.length :=
      countHalf_toNat (by omega)
    have hn : (countHalf values.length).toNat = values.length := countHalf_toNat (by omega)
    simp only [packPayload, payloadLayout, unpackPayload, be16, List.cons_append,
      List.nil_append, half_hiByte_loByte, hb, hn]
    rw [if_neg (by rw [halfBytes_length]; omega), if_neg (by simp), halves_halfBytes]
  | exception code => rfl

/-! ## Unpack, then pack -/

theorem packBits_of_unpackCoils {count : Byte} {rest : List Byte} {bits : List Bool}
    (h : unpackCoils count rest = .ok bits) :
    counted (packBits bits) = count :: rest ∧ bits.length % 8 = 0
      ∧ rest.length = count.toNat := by
  unfold unpackCoils at h
  split at h
  · cases h
  · cases h
    rename_i hn
    have hn : rest.length = count.toNat := by omega
    refine ⟨?_, by rw [unpackBits_length]; omega, hn⟩
    rw [packBits_unpackBits, counted, hn, countByte_of_toNat]

theorem halfBytes_of_unpackRegisters {count : Byte} {rest : List Byte} {values : List Half}
    (h : unpackRegisters count rest = .ok values) :
    counted (halfBytes values) = count :: rest ∧ rest.length = count.toNat := by
  unfold unpackRegisters at h
  split at h
  · cases h
  · split at h
    · cases h
    · cases h
      rename_i hn hm
      have hn : rest.length = count.toNat := by omega
      rw [halfBytes_halves rest (by omega), counted, hn, countByte_of_toNat]
      exact ⟨rfl, rfl⟩

theorem fileRefBytes_unpackFileRefs (bs : List Byte) (h : bs.length % 7 = 0) :
    (unpackFileRefs bs).flatMap fileRefBytes = bs := by
  match bs, h with
  | [], _ => rfl
  | [_], h => simp at h
  | [_, _], h => simp at h
  | [_, _, _], h => simp at h
  | [_, _, _, _], h => simp at h
  | [_, _, _, _, _], h => simp at h
  | [_, _, _, _, _, _], h => simp at h
  | ref :: f1 :: f0 :: r1 :: r0 :: n1 :: n0 :: rest, h =>
    have hr : rest.length % 7 = 0 := by simp only [List.length_cons] at h; omega
    simp only [unpackFileRefs, List.flatMap_cons, fileRefBytes, be16, hiByte_half, loByte_half,
      List.cons_append, List.nil_append, fileRefBytes_unpackFileRefs rest hr]

theorem fileDataBytes_of_unpack {fuel : Nat} {bs : List Byte} {subs : List FileData}
    (h : unpackFileData fuel bs = .ok subs) : subs.flatMap fileDataBytes = bs := by
  induction fuel generalizing bs subs with
  | zero =>
    cases bs with
    | nil => cases h; rfl
    | cons b bs => cases h
  | succ fuel ih =>
    cases bs with
    | nil => cases h; rfl
    | cons len rest =>
      simp only [unpackFileData] at h
      split at h
      · cases h
      · rename_i hc
        split at h
        · cases h
        · rename_i more hm
          cases h
          have hlen := len.isLt
          obtain ⟨ref, tail, rfl⟩ : ∃ x xs, rest = x :: xs := by
            cases rest with
            | nil => simp at hc; omega
            | cons x xs => exact ⟨x, xs, rfl⟩
          obtain ⟨n, hn⟩ : ∃ n, len.toNat = n + 1 := ⟨len.toNat - 1, by omega⟩
          simp only [List.length_cons] at hc
          rw [List.flatMap_cons, ih hm]
          simp only [fileDataBytes, hn, List.take_succ_cons, List.drop_succ_cons, List.drop_zero,
            List.getD_cons_zero]
          have hL : (tail.take n).length = n := by rw [List.length_take]; omega
          rw [halves_length, hL, halfBytes_halves _ (by omega),
            show 1 + 2 * (n / 2) = len.toNat by omega, countByte_of_toNat, List.cons_append,
            List.cons_append, List.take_append_drop]

theorem fileWriteBytes_of_unpack {fuel : Nat} {bs : List Byte} {subs : List FileWrite}
    (h : unpackFileWrites fuel bs = .ok subs) : subs.flatMap fileWriteBytes = bs := by
  induction fuel generalizing bs subs with
  | zero =>
    cases bs with
    | nil => cases h; rfl
    | cons b bs => cases h
  | succ fuel ih =>
    unfold unpackFileWrites at h
    split at h
    · cases h; rfl
    · simp_all
    · rename_i ref f1 f0 r1 r0 n1 n0 rest heq
      cases heq
      simp only at h
      split at h
      · cases h
      · rename_i hc
        split at h
        · cases h
        · rename_i more hm
          cases h
          rw [List.flatMap_cons, ih hm]
          have hL : (List.take (2 * (half n1 n0).toNat) rest).length
              = 2 * (half n1 n0).toNat := by rw [List.length_take]; omega
          simp only [fileWriteBytes, be16, hiByte_half, loByte_half, List.cons_append,
            List.nil_append]
          rw [halves_length, hL, halfBytes_halves _ (by omega), Nat.mul_div_cancel_left _ (by omega),
            countHalf_of_toNat, hiByte_half, loByte_half, List.take_append_drop]
    · cases h

/-- The bytes that unpack to a payload are the ones it packs to. -/
theorem packPayload_of_unpackPayload {l : Layout} {bs : List Byte} {p : Payload}
    (h : unpackPayload l bs = .ok p) : packPayload p = bs ∧ payloadLayout p = l := by
  cases l
  case pair =>
    simp only [unpackPayload] at h
    split at h
    · cases h; simp [packPayload, payloadLayout, be16]
    · cases h
  case coils =>
    simp only [unpackPayload] at h
    split at h
    · rename_i count rest
      cases hc : unpackCoils count rest with
      | error e => rw [hc] at h; cases h
      | ok bits =>
        rw [hc] at h; cases h
        exact ⟨(packBits_of_unpackCoils hc).1, rfl⟩
    · cases h
  case registers =>
    simp only [unpackPayload] at h
    split at h
    · rename_i count rest
      cases hc : unpackRegisters count rest with
      | error e => rw [hc] at h; cases h
      | ok values =>
        rw [hc] at h; cases h
        exact ⟨(halfBytes_of_unpackRegisters hc).1, rfl⟩
    · cases h
  case writeCoils =>
    simp only [unpackPayload] at h
    split at h
    · rename_i a1 a0 q1 q0 count rest
      cases hc : unpackCoils count rest with
      | error e => rw [hc] at h; cases h
      | ok bits =>
        rw [hc] at h; cases h
        simp [packPayload, payloadLayout, be16, (packBits_of_unpackCoils hc).1]
    · cases h
  case writeRegs =>
    simp only [unpackPayload] at h
    split at h
    · rename_i a1 a0 q1 q0 count rest
      cases hc : unpackRegisters count rest with
      | error e => rw [hc] at h; cases h
      | ok values =>
        rw [hc] at h; cases h
        simp [packPayload, payloadLayout, be16, (halfBytes_of_unpackRegisters hc).1]
    · cases h
  case fileRefs =>
    simp only [unpackPayload] at h
    split at h
    · rename_i count rest
      split at h
      · cases h
      · split at h
        · cases h
        · cases h
          rename_i hn hm
          have hn : rest.length = count.toNat := by omega
          simp only [packPayload, payloadLayout, counted]
          rw [fileRefBytes_unpackFileRefs rest (by omega), hn, countByte_of_toNat]
          exact ⟨rfl, trivial⟩
    · cases h
  case fileData =>
    simp only [unpackPayload] at h
    split at h
    · rename_i count rest
      split at h
      · cases h
      · rename_i hn
        have hn : rest.length = count.toNat := by omega
        cases hc : unpackFileData rest.length rest with
        | error e => rw [hc] at h; cases h
        | ok subs =>
          rw [hc] at h; cases h
          simp only [packPayload, payloadLayout, counted]
          rw [fileDataBytes_of_unpack hc, hn, countByte_of_toNat]
          exact ⟨rfl, trivial⟩
    · cases h
  case fileWrites =>
    simp only [unpackPayload] at h
    split at h
    · rename_i count rest
      split at h
      · cases h
      · rename_i hn
        have hn : rest.length = count.toNat := by omega
        cases hc : unpackFileWrites rest.length rest with
        | error e => rw [hc] at h; cases h
        | ok subs =>
          rw [hc] at h; cases h
          simp only [packPayload, payloadLayout, counted]
          rw [fileWriteBytes_of_unpack hc, hn, countByte_of_toNat]
          exact ⟨rfl, trivial⟩
    · cases h
  case maskWrite =>
    simp only [unpackPayload] at h
    split at h
    · cases h; simp [packPayload, payloadLayout, be16]
    · cases h
  case readWrite =>
    simp only [unpackPayload] at h
    split at h
    · rename_i r1 r0 m1 m0 w1 w0 q1 q0 count rest
      cases hc : unpackRegisters count rest with
      | error e => rw [hc] at h; cases h
      | ok values =>
        rw [hc] at h; cases h
        simp [packPayload, payloadLayout, be16, (halfBytes_of_unpackRegisters hc).1]
    · cases h
  case fifoPointer =>
    simp only [unpackPayload] at h
    split at h
    · cases h; simp [packPayload, payloadLayout, be16]
    · cases h
  case fifoValues =>
    simp only [unpackPayload] at h
    split at h
    · rename_i b1 b0 c1 c0 rest
      split at h
      · cases h
      · split at h
        · cases h
        · cases h
          rename_i hn hm
          simp only [packPayload, payloadLayout, halves_length]
          rw [halfBytes_halves rest (by omega),
            show 2 + 2 * (rest.length / 2) = (half b1 b0).toNat by omega,
            show rest.length / 2 = (half c1 c0).toNat by omega, countHalf_of_toNat,
            countHalf_of_toNat]
          simp [be16]
    · cases h
  case exception =>
    simp only [unpackPayload] at h
    split at h
    · cases h; simp [packPayload, payloadLayout]
    · cases h

/-- Coil bits unpack in whole bytes. -/
theorem coilsWhole_of_unpackPayload {l : Layout} {bs : List Byte} {p : Payload}
    (h : unpackPayload l bs = .ok p) : coilsWhole p := by
  obtain ⟨hb, hl⟩ := packPayload_of_unpackPayload h
  cases p with
  | coils bits =>
    subst hl
    simp only [payloadLayout, unpackPayload] at h
    split at h
    · rename_i count rest
      cases hc : unpackCoils count rest with
      | error e => simp [hc, Except.map] at h
      | ok bits =>
        simp only [hc, Except.map, Except.ok.injEq, Payload.coils.injEq] at h
        exact h ▸ (packBits_of_unpackCoils hc).2.1
    · cases h
  | writeCoils a q bits =>
    subst hl
    simp only [payloadLayout, unpackPayload] at h
    split at h
    · rename_i a1 a0 q1 q0 count rest
      cases hc : unpackCoils count rest with
      | error e => simp [hc, Except.map] at h
      | ok bits =>
        simp only [hc, Except.map, Except.ok.injEq, Payload.writeCoils.injEq] at h
        exact h.2.2 ▸ (packBits_of_unpackCoils hc).2.1
    · cases h
  | _ => trivial

/-! ## Messages -/

/-- A message of the direction's layout that fits unpacks to itself (40_codec.md R160, R161). -/
theorem unpackPdu_packMessage {dir : Dir} {m : Message}
    (hl : layoutOf dir m.fc = some (payloadLayout m.body)) (h : payloadFits m.body) :
    unpackPdu dir (packMessage m) = .ok m := by
  simp only [unpackPdu, packMessage, hl, unpackPayload_packPayload h]
  rfl

/-- A PDU that unpacks is the one its message packs to, and has its direction's layout. -/
theorem packMessage_of_unpackPdu {dir : Dir} {pdu : List Byte} {m : Message}
    (h : unpackPdu dir pdu = .ok m) :
    packMessage m = pdu ∧ layoutOf dir m.fc = some (payloadLayout m.body) := by
  unfold unpackPdu at h
  split at h
  · cases h
  · rename_i fc p
    split at h
    · cases h
    · rename_i l hl
      cases hp : unpackPayload l p with
      | error e => rw [hp] at h; cases h
      | ok body =>
        rw [hp] at h; cases h
        obtain ⟨h1, h2⟩ := packPayload_of_unpackPayload hp
        exact ⟨by rw [packMessage, h1], by rw [h2, hl]⟩

/-! ## The row of a message -/

/-- A message of the direction's layout has a row, whose code is the message's bytes, whose meaning is the
message's run, and which is well formed when the payload fits. -/
structure IsRowOf (op : CodecOp) (dir : Dir) (m : Message) (i : Instr) : Prop where
  row : rowOf op dir m = .ok i
  code : encode i = .pdu op dir (packMessage m)
  run : ∀ s, Machine.exec i s = .next (Machine.runMessage op m s)
  wellFormed : payloadFits m.body → WellFormed i = true

theorem exceptionCode_eq {fc : Byte} (h : fc.getLsbD 7 = true) :
    exceptionCode (fc.extractLsb' 0 7) = fc := by
  apply BitVec.eq_of_getLsbD_eq
  intro i hi
  unfold exceptionCode
  rw [BitVec.getLsbD_append]
  by_cases h7 : i < 7
  · simp [h7]
  · obtain rfl : i = 7 := by omega
    simp [h]

theorem requestRow_spec {op : CodecOp} {m : Message}
    (hl : layoutOf .request m.fc = some (payloadLayout m.body)) :
    ∃ i, IsRowOf op .request m i := by
  obtain ⟨fc, body⟩ := m
  simp only [layoutOf] at hl
  split at hl <;> rename_i hfc <;> try contradiction
  all_goals
    have hf : fc = BitVec.ofNat 8 fc.toNat := by simp
    rw [hfc] at hf
    cases body <;> simp only [payloadLayout, Option.some.injEq, reduceCtorEq] at hl
    subst hf
    refine ⟨_, rfl, rfl, fun _ => rfl, fun h => ?_⟩
    obtain ⟨h1, h2⟩ := h
    rw [packPayload_length] at h1
    simp only [coilsWhole] at h1 h2
    have hm : Config.payloadMax = 252 := rfl
    first
      | rfl
      | (simp only [WellFormed, fileWritesOk, wholeBytes, Bool.and_eq_true, beq_iff_eq,
          decide_eq_true_eq]; omega)

theorem responseRow_spec {op : CodecOp} {m : Message}
    (hl : layoutOf .response m.fc = some (payloadLayout m.body)) :
    ∃ i, IsRowOf op .response m i := by
  obtain ⟨fc, body⟩ := m
  simp only [layoutOf] at hl
  split at hl
  · rename_i h7
    cases body <;> simp only [payloadLayout, Option.some.injEq, reduceCtorEq] at hl
    rename_i code
    have hr : rowOf op .response ⟨fc, .exception code⟩
        = .ok (.pduRspExc op (fc.extractLsb' 0 7) code) := by
      simp only [rowOf, responseRow]
    refine ⟨_, hr, ?_, fun s => ?_, fun _ => rfl⟩
    · rw [encode, pduCode, exceptionCode_eq h7]
    · rw [Machine.exec, Machine.execPduRspExc, exceptionCode_eq h7]
  · split at hl <;> rename_i hfc <;> try contradiction
    all_goals
      have hf : fc = BitVec.ofNat 8 fc.toNat := by simp
      rw [hfc] at hf
      cases body <;> simp only [payloadLayout, Option.some.injEq, reduceCtorEq] at hl
      subst hf
      refine ⟨_, rfl, rfl, fun _ => rfl, fun h => ?_⟩
      obtain ⟨h1, h2⟩ := h
      rw [packPayload_length] at h1
      simp only [coilsWhole] at h1 h2
      have hm : Config.payloadMax = 252 := rfl
      first
        | rfl
        | (simp only [WellFormed, fileWritesOk, coilsOk, registersOk, wholeBytes,
            Bool.and_eq_true, beq_iff_eq, decide_eq_true_eq]; omega)

/-- Every message of its direction's layout has its row. -/
theorem rowOf_spec (op : CodecOp) {dir : Dir} {m : Message}
    (hl : layoutOf dir m.fc = some (payloadLayout m.body)) : ∃ i, IsRowOf op dir m i := by
  cases dir
  · exact requestRow_spec hl
  · exact responseRow_spec hl

end Sys2Proof
end

