-- ==== Sys2Proof/Laws/Operands.lean ====
section
/-! SUPPORT. The descriptor operands: what a descriptor that packs looks like, element by element
(spec/40_codec.md R160, R164-R187). -/

namespace Sys2Proof.Machine

/-- What follows a check that passed. -/
theorem bind_ok {α β : Type} {x : Except ErrCode α} {f : α → Except ErrCode β} {b : β}
    (h : (x >>= f) = .ok b) : ∃ a, x = .ok a ∧ f a = .ok b := by
  cases x with
  | error e => cases h
  | ok a => exact ⟨a, rfl, h⟩

theorem limit_ok {fits : Bool} {u : Unit} (h : limit fits = .ok u) : fits = true := by
  cases fits
  · cases h
  · rfl

/-! ## The checks -/

theorem chk16_ok {w : Word} {v : Half} (h : chk16 w = .ok v) :
    v = w.setWidth 16 ∧ v.setWidth 32 = w := by
  unfold chk16 at h
  split at h
  · cases h
    rename_i hw
    refine ⟨rfl, BitVec.eq_of_toNat_eq ?_⟩
    simp only [BitVec.toNat_setWidth]
    omega
  · cases h

theorem chk8_ok {w : Word} {v : Byte} (h : chk8 w = .ok v) :
    v = w.setWidth 8 ∧ v.setWidth 32 = w := by
  unfold chk8 at h
  split at h
  · cases h
    rename_i hw
    refine ⟨rfl, BitVec.eq_of_toNat_eq ?_⟩
    simp only [BitVec.toNat_setWidth]
    omega
  · cases h

theorem chk1_ok {w : Word} {v : Bool} (h : chk1 w = .ok v) :
    (BitVec.ofBool v).setWidth 32 = w := by
  unfold chk1 at h
  split at h
  · cases h
    rename_i hw
    apply BitVec.eq_of_toNat_eq
    rw [BitVec.toNat_setWidth, BitVec.toNat_ofBool, BitVec.getLsbD, Nat.testBit_zero]
    generalize w.toNat = n at hw
    interval_cases n <;> rfl
  · cases h

theorem chk16_range {w : Word} (h : 0x10000 ≤ w.toNat) : chk16 w = .error .range := by
  rw [chk16, if_neg (by omega)]

/-- The value a checked word holds. -/
theorem chk16_toNat {w : Word} {v : Half} (h : chk16 w = .ok v) : v.toNat = w.toNat := by
  rw [← (chk16_ok h).2, BitVec.toNat_setWidth, Nat.mod_eq_of_lt (by omega)]

/-! ## Element lists -/

/-- The element words from element i on. -/
def wordsFrom (m : Nat → Word) (i n : Nat) : List Word :=
  (List.range n).map fun k => m (Config.e0 + i + k)

@[simp] theorem wordsFrom_length (m : Nat → Word) (i n : Nat) : (wordsFrom m i n).length = n := by
  simp [wordsFrom]

@[simp] theorem wordsFrom_zero (m : Nat → Word) (i : Nat) : wordsFrom m i 0 = [] := rfl

theorem wordsFrom_succ (m : Nat → Word) (i n : Nat) :
    wordsFrom m i (n + 1) = m (Config.e0 + i) :: wordsFrom m (i + 1) n := by
  simp only [wordsFrom, List.range_succ_eq_map, List.map_cons, List.map_map, Nat.add_zero]
  congr 1
  apply List.map_congr_left
  intro k _
  simp only [Function.comp_apply, Nat.succ_eq_add_one]
  congr 1
  omega

theorem wordsFrom_add (m : Nat → Word) (i j n : Nat) :
    wordsFrom m i (j + n) = wordsFrom m i j ++ wordsFrom m (i + j) n := by
  induction j generalizing i with
  | zero => simp
  | succ j ih =>
    rw [show j + 1 + n = (j + n) + 1 by omega, wordsFrom_succ, wordsFrom_succ, ih,
      show i + 1 + j = i + (j + 1) by omega]
    rfl

/-- Registers that pass are the element words. -/
theorem readHalves_ok {m : Nat → Word} {i n : Nat} {vs : List Half}
    (h : readHalves m i n = .ok vs) : vs.length = n ∧ halfWords vs = wordsFrom m i n := by
  induction n generalizing i vs with
  | zero => cases h; exact ⟨rfl, rfl⟩
  | succ n ih =>
    obtain ⟨v, hv, h⟩ := bind_ok h
    obtain ⟨ws, hw, h⟩ := bind_ok h
    cases h
    obtain ⟨h1, h2⟩ := ih hw
    refine ⟨by simp [h1], ?_⟩
    rw [wordsFrom_succ, ← h2]
    simp only [halfWords, List.map_cons]
    rw [(chk16_ok hv).2]
    rfl

/-- Bits that pass are the element words. -/
theorem readBits_ok {m : Nat → Word} {i n : Nat} {bs : List Bool}
    (h : readBits m i n = .ok bs) : bs.length = n ∧ bitWords bs = wordsFrom m i n := by
  induction n generalizing i bs with
  | zero => cases h; exact ⟨rfl, rfl⟩
  | succ n ih =>
    obtain ⟨v, hv, h⟩ := bind_ok h
    obtain ⟨ws, hw, h⟩ := bind_ok h
    cases h
    obtain ⟨h1, h2⟩ := ih hw
    refine ⟨by simp [h1], ?_⟩
    rw [wordsFrom_succ, ← h2]
    simp only [bitWords, List.map_cons]
    rw [chk1_ok hv]
    rfl

/-- File references that pass are the element words, four each. -/
theorem readFileRefs_ok {m : Nat → Word} {i n : Nat} {rs : List FileRef}
    (h : readFileRefs m i n = .ok rs) :
    rs.length = n ∧ payloadElements (.fileRefs rs) = wordsFrom m i (4 * n) := by
  induction n generalizing i rs with
  | zero => cases h; exact ⟨rfl, rfl⟩
  | succ n ih =>
    obtain ⟨ref, h1, h⟩ := bind_ok h
    obtain ⟨file, h2, h⟩ := bind_ok h
    obtain ⟨record, h3, h⟩ := bind_ok h
    obtain ⟨len, h4, h⟩ := bind_ok h
    obtain ⟨more, hm, h⟩ := bind_ok h
    cases h
    obtain ⟨e1, e2⟩ := ih hm
    refine ⟨by simp [e1], ?_⟩
    rw [show 4 * (n + 1) = 4 * n + 1 + 1 + 1 + 1 by omega, wordsFrom_succ, wordsFrom_succ,
      wordsFrom_succ, wordsFrom_succ, ← e2]
    simp only [payloadElements, List.flatMap_cons, List.cons_append, List.nil_append]
    rw [(chk8_ok h1).2, (chk16_ok h2).2, (chk16_ok h3).2, (chk16_ok h4).2]
    rfl

/-- How many element words a sub-response list takes (40_codec.md R181). -/
def fileDataWords : List FileData → Nat
  | [] => 0
  | d :: ds => 2 + d.values.length + fileDataWords ds

/-- How many element words a sub-request list takes (40_codec.md R182). -/
def fileWriteWords : List FileWrite → Nat
  | [] => 0
  | d :: ds => 4 + d.values.length + fileWriteWords ds

/-- Sub-responses that pass are the element words. -/
theorem readFileData_ok {m : Nat → Word} {c n : Nat} {ds : List FileData}
    (h : readFileData m c n = .ok ds) :
    ds.length = n ∧ payloadElements (.fileData ds) = wordsFrom m c (fileDataWords ds) := by
  induction n generalizing c ds with
  | zero => cases h; exact ⟨rfl, rfl⟩
  | succ n ih =>
    obtain ⟨_, _, h⟩ := bind_ok h
    obtain ⟨count, h1, h⟩ := bind_ok h
    obtain ⟨ref, h2, h⟩ := bind_ok h
    obtain ⟨_, _, h⟩ := bind_ok h
    obtain ⟨values, h3, h⟩ := bind_ok h
    obtain ⟨more, hm, h⟩ := bind_ok h
    cases h
    obtain ⟨e1, e2⟩ := ih hm
    obtain ⟨e3, e4⟩ := readHalves_ok h3
    refine ⟨by simp [e1], ?_⟩
    rw [fileDataWords, show 2 + values.length + fileDataWords more
        = (values.length + fileDataWords more) + 1 + 1 by omega, wordsFrom_succ, wordsFrom_succ,
      wordsFrom_add]
    simp only [payloadElements, List.flatMap_cons, List.cons_append]
    rw [(chk8_ok h2).2, e4, e3, BitVec.ofNat_toNat, (chk16_ok h1).2]
    simp only [payloadElements] at e2
    rw [e2]
    rfl

/-- Sub-requests that pass are the element words. -/
theorem readFileWrites_ok {m : Nat → Word} {c n : Nat} {ds : List FileWrite}
    (h : readFileWrites m c n = .ok ds) :
    ds.length = n ∧ payloadElements (.fileWrites ds) = wordsFrom m c (fileWriteWords ds) := by
  induction n generalizing c ds with
  | zero => cases h; exact ⟨rfl, rfl⟩
  | succ n ih =>
    obtain ⟨_, _, h⟩ := bind_ok h
    obtain ⟨ref, h1, h⟩ := bind_ok h
    obtain ⟨file, h2, h⟩ := bind_ok h
    obtain ⟨record, h3, h⟩ := bind_ok h
    obtain ⟨count, h4, h⟩ := bind_ok h
    obtain ⟨_, _, h⟩ := bind_ok h
    obtain ⟨values, h5, h⟩ := bind_ok h
    obtain ⟨more, hm, h⟩ := bind_ok h
    cases h
    obtain ⟨e1, e2⟩ := ih hm
    obtain ⟨e3, e4⟩ := readHalves_ok h5
    refine ⟨by simp [e1], ?_⟩
    rw [fileWriteWords, show 4 + values.length + fileWriteWords more
        = (values.length + fileWriteWords more) + 1 + 1 + 1 + 1 by omega, wordsFrom_succ,
      wordsFrom_succ, wordsFrom_succ, wordsFrom_succ, wordsFrom_add]
    simp only [payloadElements, List.flatMap_cons, List.cons_append]
    rw [(chk8_ok h1).2, (chk16_ok h2).2, (chk16_ok h3).2, e4, e3, BitVec.ofNat_toNat,
      (chk16_ok h4).2]
    simp only [payloadElements] at e2
    rw [e2]
    rfl

/-! ## Descriptors -/

theorem padBits_length (bits : List Bool) :
    (padBits bits).length = 8 * ((bits.length + 7) / 8) := by
  simp only [padBits, bitBytes, List.length_append, List.length_replicate]
  omega

/-- A payload that is read has the layout it is read by, its coil bits in whole bytes. -/
theorem readPayload_layout {m : Nat → Word} {l : Layout} {p : Payload}
    (h : readPayload m l = .ok p) : payloadLayout p = l ∧ coilsWhole p := by
  cases l <;> simp only [readPayload] at h
  case pair =>
    obtain ⟨_, _, h⟩ := bind_ok h
    obtain ⟨_, _, h⟩ := bind_ok h
    cases h; exact ⟨rfl, trivial⟩
  case coils =>
    obtain ⟨_, _, h⟩ := bind_ok h
    obtain ⟨_, _, h⟩ := bind_ok h
    obtain ⟨_, _, h⟩ := bind_ok h
    cases h
    exact ⟨rfl, by rw [coilsWhole, padBits_length]; omega⟩
  case registers =>
    obtain ⟨_, _, h⟩ := bind_ok h
    obtain ⟨_, _, h⟩ := bind_ok h
    obtain ⟨_, _, h⟩ := bind_ok h
    cases h; exact ⟨rfl, trivial⟩
  case writeCoils =>
    obtain ⟨_, _, h⟩ := bind_ok h
    obtain ⟨_, _, h⟩ := bind_ok h
    obtain ⟨_, _, h⟩ := bind_ok h
    obtain ⟨_, _, h⟩ := bind_ok h
    cases h
    exact ⟨rfl, by rw [coilsWhole, padBits_length]; omega⟩
  case writeRegs =>
    obtain ⟨_, _, h⟩ := bind_ok h
    obtain ⟨_, _, h⟩ := bind_ok h
    obtain ⟨_, _, h⟩ := bind_ok h
    obtain ⟨_, _, h⟩ := bind_ok h
    cases h; exact ⟨rfl, trivial⟩
  case fileRefs =>
    obtain ⟨_, _, h⟩ := bind_ok h
    obtain ⟨_, _, h⟩ := bind_ok h
    obtain ⟨_, _, h⟩ := bind_ok h
    cases h; exact ⟨rfl, trivial⟩
  case fileData =>
    obtain ⟨_, _, h⟩ := bind_ok h
    obtain ⟨_, _, h⟩ := bind_ok h
    obtain ⟨_, _, h⟩ := bind_ok h
    cases h; exact ⟨rfl, trivial⟩
  case fileWrites =>
    obtain ⟨_, _, h⟩ := bind_ok h
    obtain ⟨_, _, h⟩ := bind_ok h
    obtain ⟨_, _, h⟩ := bind_ok h
    cases h; exact ⟨rfl, trivial⟩
  case maskWrite =>
    obtain ⟨_, _, h⟩ := bind_ok h
    obtain ⟨_, _, h⟩ := bind_ok h
    obtain ⟨_, _, h⟩ := bind_ok h
    cases h; exact ⟨rfl, trivial⟩
  case readWrite =>
    obtain ⟨_, _, h⟩ := bind_ok h
    obtain ⟨_, _, h⟩ := bind_ok h
    obtain ⟨_, _, h⟩ := bind_ok h
    obtain ⟨_, _, h⟩ := bind_ok h
    obtain ⟨_, _, h⟩ := bind_ok h
    obtain ⟨_, _, h⟩ := bind_ok h
    cases h; exact ⟨rfl, trivial⟩
  case fifoPointer =>
    obtain ⟨_, _, h⟩ := bind_ok h
    cases h; exact ⟨rfl, trivial⟩
  case fifoValues =>
    obtain ⟨_, _, h⟩ := bind_ok h
    obtain ⟨_, _, h⟩ := bind_ok h
    obtain ⟨_, _, h⟩ := bind_ok h
    cases h; exact ⟨rfl, trivial⟩
  case exception =>
    obtain ⟨_, _, h⟩ := bind_ok h
    cases h; exact ⟨rfl, trivial⟩

/-- A descriptor that packs: its header is the function code, its payload is the layout's, it fits. -/
theorem readDescriptor_ok {dir : Dir} {M : Nat → Word} {m : Message}
    (h : readDescriptor dir M = .ok m) :
    m.fc.setWidth 32 = M 0 ∧ readPayload M (payloadLayout m.body) = .ok m.body
      ∧ layoutOf dir m.fc = some (payloadLayout m.body) ∧ payloadFits m.body := by
  unfold readDescriptor at h
  split at h
  · cases h
  · rename_i h0
    simp only at h
    split at h
    · cases h
    · rename_i l hl
      split at h
      · cases h
      · rename_i p hp
        split at h
        · cases h
        · rename_i hf
          cases h
          obtain ⟨h1, h2⟩ := readPayload_layout hp
          refine ⟨BitVec.eq_of_toNat_eq ?_, by rw [h1]; exact hp, by rw [h1]; exact hl,
            Nat.le_of_not_lt hf, h2⟩
          simp only [BitVec.toNat_setWidth]
          omega

end Sys2Proof.Machine
end

