-- ==== Sys2Proof/Laws/Range.lean ====
section
/-! SUPPORT. When the descriptor checks of ENCODE pass and when they fail (spec/40_codec.md R160, R164,
R170-R187): every failure is RANGE, and each reader passes exactly when its words fit. -/

namespace Sys2Proof.Machine

/-! ## When a check fails -/

/-- A failure of a sequence is a failure of one of its parts. -/
theorem bind_error {α β : Type} {x : Except ErrCode α} {f : α → Except ErrCode β} {e : ErrCode}
    (h : (x >>= f) = .error e) : x = .error e ∨ ∃ a, x = .ok a ∧ f a = .error e := by
  cases x with
  | error e' => cases h; exact .inl rfl
  | ok a => exact .inr ⟨a, rfl, h⟩

theorem limit_range {fits : Bool} {e : ErrCode} (h : limit fits = .error e) : e = .range := by
  cases fits <;> cases h; rfl

theorem chk16_error {w : Word} {e : ErrCode} (h : chk16 w = .error e) : e = .range := by
  unfold chk16 at h; split at h <;> cases h; rfl

theorem chk8_error {w : Word} {e : ErrCode} (h : chk8 w = .error e) : e = .range := by
  unfold chk8 at h; split at h <;> cases h; rfl

theorem chk1_error {w : Word} {e : ErrCode} (h : chk1 w = .error e) : e = .range := by
  unfold chk1 at h; split at h <;> cases h; rfl

theorem readHalves_error {m : Nat → Word} {i n : Nat} {e : ErrCode}
    (h : readHalves m i n = .error e) : e = .range := by
  induction n generalizing i with
  | zero => cases h
  | succ n ih =>
    obtain h | ⟨_, _, h⟩ := bind_error h
    · exact chk16_error h
    obtain h | ⟨_, _, h⟩ := bind_error h
    · exact ih h
    cases h

theorem readBits_error {m : Nat → Word} {i n : Nat} {e : ErrCode}
    (h : readBits m i n = .error e) : e = .range := by
  induction n generalizing i with
  | zero => cases h
  | succ n ih =>
    obtain h | ⟨_, _, h⟩ := bind_error h
    · exact chk1_error h
    obtain h | ⟨_, _, h⟩ := bind_error h
    · exact ih h
    cases h

theorem readFileRefs_error {m : Nat → Word} {i n : Nat} {e : ErrCode}
    (h : readFileRefs m i n = .error e) : e = .range := by
  induction n generalizing i with
  | zero => cases h
  | succ n ih =>
    obtain h | ⟨_, _, h⟩ := bind_error h
    · exact chk8_error h
    obtain h | ⟨_, _, h⟩ := bind_error h
    · exact chk16_error h
    obtain h | ⟨_, _, h⟩ := bind_error h
    · exact chk16_error h
    obtain h | ⟨_, _, h⟩ := bind_error h
    · exact chk16_error h
    obtain h | ⟨_, _, h⟩ := bind_error h
    · exact ih h
    cases h

theorem readFileData_error {m : Nat → Word} {c n : Nat} {e : ErrCode}
    (h : readFileData m c n = .error e) : e = .range := by
  induction n generalizing c with
  | zero => cases h
  | succ n ih =>
    obtain h | ⟨_, _, h⟩ := bind_error h
    · exact limit_range h
    obtain h | ⟨_, _, h⟩ := bind_error h
    · exact chk16_error h
    obtain h | ⟨_, _, h⟩ := bind_error h
    · exact chk8_error h
    obtain h | ⟨_, _, h⟩ := bind_error h
    · exact limit_range h
    obtain h | ⟨_, _, h⟩ := bind_error h
    · exact readHalves_error h
    obtain h | ⟨_, _, h⟩ := bind_error h
    · exact ih h
    cases h

theorem readFileWrites_error {m : Nat → Word} {c n : Nat} {e : ErrCode}
    (h : readFileWrites m c n = .error e) : e = .range := by
  induction n generalizing c with
  | zero => cases h
  | succ n ih =>
    obtain h | ⟨_, _, h⟩ := bind_error h
    · exact limit_range h
    obtain h | ⟨_, _, h⟩ := bind_error h
    · exact chk8_error h
    obtain h | ⟨_, _, h⟩ := bind_error h
    · exact chk16_error h
    obtain h | ⟨_, _, h⟩ := bind_error h
    · exact chk16_error h
    obtain h | ⟨_, _, h⟩ := bind_error h
    · exact chk16_error h
    obtain h | ⟨_, _, h⟩ := bind_error h
    · exact limit_range h
    obtain h | ⟨_, _, h⟩ := bind_error h
    · exact readHalves_error h
    obtain h | ⟨_, _, h⟩ := bind_error h
    · exact ih h
    cases h

/-- Every failure of a variant's Pack is RANGE (40_codec.md R160). -/
theorem readPayload_error {m : Nat → Word} {l : Layout} {e : ErrCode}
    (h : readPayload m l = .error e) : e = .range := by
  cases l <;> simp only [readPayload] at h <;>
    repeat
      first
        | cases h
        | (obtain h | ⟨_, _, h⟩ := bind_error h
           · first
              | exact chk16_error h
              | exact chk8_error h
              | exact limit_range h
              | exact readHalves_error h
              | exact readBits_error h
              | exact readFileRefs_error h
              | exact readFileData_error h
              | exact readFileWrites_error h)

/-! ## When the checks pass -/

theorem chk16_pass {w : Word} (h : w.toNat < 0x10000) : chk16 w = .ok (w.setWidth 16) := if_pos h
theorem chk8_pass {w : Word} (h : w.toNat < 0x100) : chk8 w = .ok (w.setWidth 8) := if_pos h
theorem chk1_pass {w : Word} (h : w.toNat < 2) : chk1 w = .ok (w.getLsbD 0) := if_pos h

theorem chk16_lt {w : Word} {v : Half} (h : chk16 w = .ok v) : w.toNat < 0x10000 := by
  unfold chk16 at h; split at h; assumption; cases h
theorem chk8_lt {w : Word} {v : Byte} (h : chk8 w = .ok v) : w.toNat < 0x100 := by
  unfold chk8 at h; split at h; assumption; cases h
theorem chk1_lt {w : Word} {v : Bool} (h : chk1 w = .ok v) : w.toNat < 2 := by
  unfold chk1 at h; split at h; assumption; cases h

/-- A check that passes, and what follows it. -/
theorem ok_of_bind {α β : Type} {x : Except ErrCode α} {f : α → Except ErrCode β} {a : α} {b : β}
    (hx : x = .ok a) (hf : f a = .ok b) : (x >>= f) = .ok b := by rw [hx]; exact hf

theorem limit_pass {fits : Bool} (h : fits = true) : limit fits = .ok () := by rw [h]; rfl

/-- Registers pass exactly when every word fits 16 bits. -/
theorem readHalves_iff {m : Nat → Word} {i n : Nat} :
    (∃ vs, readHalves m i n = .ok vs) ↔ ∀ k, k < n → (m (8 + i + k)).toNat < 0x10000 := by
  induction n generalizing i with
  | zero => exact ⟨fun _ _ h => by omega, fun _ => ⟨_, rfl⟩⟩
  | succ n ih =>
    constructor
    · rintro ⟨vs, h⟩ k hk
      obtain ⟨v, hv, h⟩ := bind_ok h
      obtain ⟨ws, hw, h⟩ := bind_ok h
      cases k with
      | zero => exact chk16_lt hv
      | succ k =>
        have := ih.1 ⟨ws, hw⟩ k (by omega)
        rwa [show 8 + i + (k + 1) = 8 + (i + 1) + k by omega]
    · intro h
      obtain ⟨ws, hw⟩ := ih.2 (fun k hk => by
        have := h (k + 1) (by omega)
        rwa [show 8 + i + (k + 1) = 8 + (i + 1) + k by omega] at this)
      exact ⟨_, ok_of_bind (chk16_pass (h 0 (by omega))) (ok_of_bind hw rfl)⟩

theorem readBits_iff {m : Nat → Word} {i n : Nat} :
    (∃ vs, readBits m i n = .ok vs) ↔ ∀ k, k < n → (m (8 + i + k)).toNat < 2 := by
  induction n generalizing i with
  | zero => exact ⟨fun _ _ h => by omega, fun _ => ⟨_, rfl⟩⟩
  | succ n ih =>
    constructor
    · rintro ⟨vs, h⟩ k hk
      obtain ⟨v, hv, h⟩ := bind_ok h
      obtain ⟨ws, hw, h⟩ := bind_ok h
      cases k with
      | zero => exact chk1_lt hv
      | succ k =>
        have := ih.1 ⟨ws, hw⟩ k (by omega)
        rwa [show 8 + i + (k + 1) = 8 + (i + 1) + k by omega]
    · intro h
      obtain ⟨ws, hw⟩ := ih.2 (fun k hk => by
        have := h (k + 1) (by omega)
        rwa [show 8 + i + (k + 1) = 8 + (i + 1) + k by omega] at this)
      exact ⟨_, ok_of_bind (chk1_pass (h 0 (by omega))) (ok_of_bind hw rfl)⟩

theorem readFileRefs_iff {m : Nat → Word} {i n : Nat} :
    (∃ vs, readFileRefs m i n = .ok vs) ↔ ∀ j, j < n →
      (m (8 + i + 4 * j)).toNat < 0x100 ∧ (m (8 + i + 4 * j + 1)).toNat < 0x10000
        ∧ (m (8 + i + 4 * j + 2)).toNat < 0x10000 ∧ (m (8 + i + 4 * j + 3)).toNat < 0x10000 := by
  induction n generalizing i with
  | zero => exact ⟨fun _ _ h => by omega, fun _ => ⟨_, rfl⟩⟩
  | succ n ih =>
    constructor
    · rintro ⟨vs, h⟩ k hk
      obtain ⟨_, h1, h⟩ := bind_ok h
      obtain ⟨_, h2, h⟩ := bind_ok h
      obtain ⟨_, h3, h⟩ := bind_ok h
      obtain ⟨_, h4, h⟩ := bind_ok h
      obtain ⟨ws, hw, h⟩ := bind_ok h
      cases k with
      | zero => exact ⟨chk8_lt h1, chk16_lt h2, chk16_lt h3, chk16_lt h4⟩
      | succ k =>
        have := ih.1 ⟨ws, hw⟩ k (by omega)
        rwa [show 8 + i + 4 * (k + 1) = 8 + (i + 4) + 4 * k by omega]
    · intro h
      obtain ⟨ws, hw⟩ := ih.2 (fun k hk => by
        have := h (k + 1) (by omega)
        rwa [show 8 + i + 4 * (k + 1) = 8 + (i + 4) + 4 * k by omega] at this)
      obtain ⟨h1, h2, h3, h4⟩ := h 0 (by omega)
      exact ⟨_, ok_of_bind (chk8_pass h1) (ok_of_bind (chk16_pass h2) (ok_of_bind (chk16_pass h3)
        (ok_of_bind (chk16_pass h4) (ok_of_bind hw rfl))))⟩

/-- The cursor of R181 and R182 from element c on: its first step can be taken first. -/
def cursorFrom (header countAt : Nat) (m : Nat → Word) (c : Nat) : Nat → Nat
  | 0 => c
  | j + 1 => cursorFrom header countAt m (c + header + (m (8 + c + countAt)).toNat) j

theorem cursorFrom_succ (header countAt : Nat) (m : Nat → Word) (c j : Nat) :
    cursorFrom header countAt m c (j + 1) = cursorFrom header countAt m c j + header
      + (m (8 + cursorFrom header countAt m c j + countAt)).toNat := by
  induction j generalizing c with
  | zero => rfl
  | succ j ih => rw [cursorFrom, ih]; rfl

theorem cursorFrom_zero (header countAt : Nat) (m : Nat → Word) (j : Nat) :
    cursorFrom header countAt m 0 j = subCursor header countAt m j := by
  induction j with
  | zero => rfl
  | succ j ih => rw [cursorFrom_succ, ih]; rfl

theorem cursorFrom_ge (header countAt : Nat) (m : Nat → Word) (c j : Nat) :
    c + header * j ≤ cursorFrom header countAt m c j := by
  induction j with
  | zero => exact Nat.le_refl _
  | succ j ih => rw [cursorFrom_succ, Nat.mul_succ]; omega

/-- What a sub-response must satisfy (R181). -/
def fileDataPass (m : Nat → Word) (c : Nat) : Prop :=
  c + 2 ≤ 2040 ∧ (m (8 + c + 1)).toNat < 0x100 ∧ 1 + 2 * (m (8 + c)).toNat ≤ 255
    ∧ c + 2 + (m (8 + c)).toNat ≤ 2040
    ∧ ∀ k, k < (m (8 + c)).toNat → (m (8 + (c + 2) + k)).toNat < 0x10000

theorem readFileData_iff {m : Nat → Word} {c n : Nat} :
    (∃ ds, readFileData m c n = .ok ds) ↔ ∀ j, j < n → fileDataPass m (cursorFrom 2 0 m c j) := by
  induction n generalizing c with
  | zero => exact ⟨fun _ _ h => by omega, fun _ => ⟨_, rfl⟩⟩
  | succ n ih =>
    constructor
    · rintro ⟨ds, h⟩ j hj
      obtain ⟨_, h1, h⟩ := bind_ok h
      obtain ⟨count, h2, h⟩ := bind_ok h
      obtain ⟨_, h3, h⟩ := bind_ok h
      obtain ⟨_, h4, h⟩ := bind_ok h
      obtain ⟨vs, h5, h⟩ := bind_ok h
      obtain ⟨more, h6, h⟩ := bind_ok h
      have hc : count.toNat = (m (8 + c)).toNat := chk16_toNat h2
      rw [hc] at h4 h5 h6
      have l4 := limit_ok h4
      rw [Bool.and_eq_true] at l4
      cases j with
      | zero =>
        exact ⟨of_decide_eq_true (limit_ok h1), chk8_lt h3, of_decide_eq_true l4.1,
          of_decide_eq_true l4.2, readHalves_iff.1 ⟨_, h5⟩⟩
      | succ j => exact ih.1 ⟨_, h6⟩ j (by omega)
    · intro h
      obtain ⟨h1, h2, h3, h4, h5⟩ := h 0 (by omega)
      simp only [cursorFrom] at h1 h2 h3 h4 h5
      obtain ⟨vs, hv⟩ := readHalves_iff.2 h5
      obtain ⟨ds, hd⟩ := (ih (c := c + 2 + (m (8 + c)).toNat)).2 fun j hj => h (j + 1) (by omega)
      have hn : ((m (8 + c)).setWidth 16).toNat = (m (8 + c)).toNat := by
        rw [BitVec.toNat_setWidth, Nat.mod_eq_of_lt (by omega)]
      refine ⟨⟨(m (8 + c + 1)).setWidth 8, vs⟩ :: ds,
        ok_of_bind (limit_pass (by simpa [Config.elements] using h1))
        (ok_of_bind (chk16_pass (by simp only [element, Config.e0]; omega))
          (ok_of_bind (chk8_pass h2) ?_))⟩
      simp only [element, Config.e0, hn]
      exact ok_of_bind (limit_pass (by simp [Config.elements, h3, h4]))
        (ok_of_bind hv (ok_of_bind hd rfl))

/-- What a sub-request must satisfy (R182). -/
def fileWritePass (m : Nat → Word) (c : Nat) : Prop :=
  c + 4 ≤ 2040 ∧ (m (8 + c)).toNat < 0x100 ∧ (m (8 + c + 1)).toNat < 0x10000
    ∧ (m (8 + c + 2)).toNat < 0x10000
    ∧ c + 4 + (m (8 + c + 3)).toNat ≤ 2040
    ∧ ∀ k, k < (m (8 + c + 3)).toNat → (m (8 + (c + 4) + k)).toNat < 0x10000

theorem readFileWrites_iff {m : Nat → Word} {c n : Nat} :
    (∃ ds, readFileWrites m c n = .ok ds) ↔ ∀ j, j < n → fileWritePass m (cursorFrom 4 3 m c j) := by
  induction n generalizing c with
  | zero => exact ⟨fun _ _ h => by omega, fun _ => ⟨_, rfl⟩⟩
  | succ n ih =>
    constructor
    · rintro ⟨ds, h⟩ j hj
      obtain ⟨_, h1, h⟩ := bind_ok h
      obtain ⟨_, h2, h⟩ := bind_ok h
      obtain ⟨_, h3, h⟩ := bind_ok h
      obtain ⟨_, h4, h⟩ := bind_ok h
      obtain ⟨count, h5, h⟩ := bind_ok h
      obtain ⟨_, h6, h⟩ := bind_ok h
      obtain ⟨vs, h7, h⟩ := bind_ok h
      obtain ⟨more, h8, h⟩ := bind_ok h
      have hc : count.toNat = (m (8 + c + 3)).toNat := chk16_toNat h5
      rw [hc] at h6 h7 h8
      cases j with
      | zero =>
        exact ⟨of_decide_eq_true (limit_ok h1), chk8_lt h2, chk16_lt h3, chk16_lt h4,
          of_decide_eq_true (limit_ok h6), readHalves_iff.1 ⟨_, h7⟩⟩
      | succ j => exact ih.1 ⟨_, h8⟩ j (by omega)
    · intro h
      obtain ⟨h1, h2, h3, h4, h5, h6⟩ := h 0 (by omega)
      simp only [cursorFrom] at h1 h2 h3 h4 h5 h6
      obtain ⟨vs, hv⟩ := readHalves_iff.2 h6
      obtain ⟨ds, hd⟩ := (ih (c := c + 4 + (m (8 + c + 3)).toNat)).2 fun j hj => h (j + 1) (by omega)
      have hn : ((m (8 + c + 3)).setWidth 16).toNat = (m (8 + c + 3)).toNat := by
        rw [BitVec.toNat_setWidth, Nat.mod_eq_of_lt (by omega)]
      refine ⟨⟨(m (8 + c)).setWidth 8, (m (8 + c + 1)).setWidth 16,
        (m (8 + c + 2)).setWidth 16, vs⟩ :: ds,
        ok_of_bind (limit_pass (by simpa [Config.elements] using h1))
        (ok_of_bind (chk8_pass h2) (ok_of_bind (chk16_pass h3) (ok_of_bind (chk16_pass h4)
        (ok_of_bind (chk16_pass (w := m (8 + c + 3)) (by omega)) ?_))))⟩
      simp only [hn]
      exact ok_of_bind (limit_pass (by simp [Config.elements, h5]))
        (ok_of_bind hv (ok_of_bind hd rfl))

/-- The bytes of sub-responses from their cursor (R181). -/
theorem readFileData_size {m : Nat → Word} {c n : Nat} {ds : List FileData}
    (h : readFileData m c n = .ok ds) : fileDataSize ds + 2 * c + 2 * n = 2 * cursorFrom 2 0 m c n := by
  induction n generalizing c ds with
  | zero => cases h; simp [fileDataSize, cursorFrom]
  | succ n ih =>
    obtain ⟨_, h1, h⟩ := bind_ok h
    obtain ⟨count, h2, h⟩ := bind_ok h
    obtain ⟨_, h3, h⟩ := bind_ok h
    obtain ⟨_, h4, h⟩ := bind_ok h
    obtain ⟨vs, h5, h⟩ := bind_ok h
    obtain ⟨more, h6, h⟩ := bind_ok h
    cases h
    have hc : count.toNat = (m (8 + c)).toNat := chk16_toNat h2
    have hl := (readHalves_ok h5).1
    have := ih h6
    rw [hc] at this hl
    simp only [fileDataSize, cursorFrom, hl]
    simp only [Nat.add_zero]
    omega

theorem readFileWrites_size {m : Nat → Word} {c n : Nat} {ds : List FileWrite}
    (h : readFileWrites m c n = .ok ds) : fileWriteSize ds + 2 * c + n = 2 * cursorFrom 4 3 m c n := by
  induction n generalizing c ds with
  | zero => cases h; simp [fileWriteSize, cursorFrom]
  | succ n ih =>
    obtain ⟨_, h1, h⟩ := bind_ok h
    obtain ⟨_, h2, h⟩ := bind_ok h
    obtain ⟨_, h3, h⟩ := bind_ok h
    obtain ⟨_, h4, h⟩ := bind_ok h
    obtain ⟨count, h5, h⟩ := bind_ok h
    obtain ⟨_, h6, h⟩ := bind_ok h
    obtain ⟨vs, h7, h⟩ := bind_ok h
    obtain ⟨more, h8, h⟩ := bind_ok h
    cases h
    have hc : count.toNat = (m (8 + c + 3)).toNat := chk16_toNat h5
    have hl := (readHalves_ok h7).1
    have := ih h8
    rw [hc] at this hl
    simp only [fileWriteSize, cursorFrom, hl]
    omega

end Sys2Proof.Machine
end

