-- ==== Sys2Proof/Laws/Run.lean ====
section
/-! SUPPORT. What running a message does: the PDU in TXBUF, or the descriptor in MSG, and nothing else
(spec/40_codec.md R161-R163). -/

namespace Sys2Proof.Machine

/-! ## Pack -/

/-- Packing a message of at most 256 bytes stores its bytes (R162). -/
theorem runMessage_pack {m : Message} (h : (packMessage m).length ≤ 256) (s : State) :
    PackedAs s (packMessage m) (.next (runMessage .pack m s)) := by
  refine ⟨_, rfl, rfl, fun k b hk => ?_, fun a ha => ?_⟩
  · obtain ⟨hl, rfl⟩ := List.getElem?_eq_some_iff.mp hk
    exact State.txbuf_fillTxbuf hl (Nat.lt_of_lt_of_le hl h)
  · exact State.readByte_fillTxbuf_other ha

/-! ## How many words a descriptor has -/

theorem payloadFields_length (p : Payload) : (payloadFields p).length ≤ 5 := by
  cases p <;> simp [payloadFields]

theorem fileDataWords_le (ds : List FileData) : fileDataWords ds ≤ fileDataSize ds := by
  induction ds with
  | nil => exact Nat.le_refl 0
  | cons d ds ih => simp only [fileDataWords, fileDataSize]; omega

theorem fileWriteWords_le (ds : List FileWrite) : fileWriteWords ds ≤ fileWriteSize ds := by
  induction ds with
  | nil => exact Nat.le_refl 0
  | cons d ds ih => simp only [fileWriteWords, fileWriteSize]; omega

theorem fileRefs_elements (rs : List FileRef) :
    (payloadElements (.fileRefs rs)).length = 4 * rs.length := by
  simp only [payloadElements]
  induction rs with
  | nil => rfl
  | cons r rs ih => simp only [List.flatMap_cons, List.length_append, ih, List.length_cons,
      List.length_nil]; omega

theorem fileData_elements (ds : List FileData) :
    (payloadElements (.fileData ds)).length = fileDataWords ds := by
  simp only [payloadElements, halfWords]
  induction ds with
  | nil => rfl
  | cons d ds ih => simp only [List.flatMap_cons, List.length_append, ih, List.length_cons,
      List.length_map, fileDataWords]; omega

theorem fileWrites_elements (ds : List FileWrite) :
    (payloadElements (.fileWrites ds)).length = fileWriteWords ds := by
  simp only [payloadElements, halfWords]
  induction ds with
  | nil => rfl
  | cons d ds ih => simp only [List.flatMap_cons, List.length_append, ih, List.length_cons,
      List.length_map, fileWriteWords]; omega

/-- The elements of a payload that fits end within MSG. -/
theorem payloadElements_length {p : Payload} (h : (packPayload p).length ≤ 252) :
    (payloadElements p).length ≤ 2040 := by
  rw [packPayload_length] at h
  cases p with
  | fileRefs rs => simp only at h; rw [fileRefs_elements]; omega
  | fileData ds =>
    simp only at h
    rw [fileData_elements]
    exact Nat.le_trans (fileDataWords_le ds) (by omega)
  | fileWrites ds =>
    simp only at h
    rw [fileWrites_elements]
    exact Nat.le_trans (fileWriteWords_le ds) (by omega)
  | _ =>
    simp only at h
    simp only [payloadElements, bitWords, halfWords, List.length_map, List.length_nil]
    omega

/-! ## Unpack -/

/-- MSG[j] after a block of words has been filled. -/
theorem State.msg_fillMsg {s : State} {i j : Nat} {ws : List Word} {w : Word}
    (hj : ws[j]? = some w) (hl : i + j < 2048) : (s.fillMsg i ws).msg (i + j) = w := by
  obtain ⟨h, rfl⟩ := List.getElem?_eq_some_iff.mp hj
  exact State.msg_of_lookup fun k hk => Memory.lookup_fillWords ws h hl hk

/-- A block fill changes no byte outside its words. -/
theorem State.readByte_fillMsg_other {s : State} {i a : Nat} {ws : List Word}
    (h : ∀ k, i ≤ k → k < i + ws.length → a < msgAddr k ∨ msgAddr k + 4 ≤ a) :
    (s.fillMsg i ws).readByte a = s.readByte a :=
  State.readByte_eq_of_lookup rfl (Memory.lookup_fillWords_other ws h)

/-- A block fill changes no word outside its words. -/
theorem State.msg_fillMsg_other {s : State} {i j : Nat} {ws : List Word}
    (h : j < i ∨ i + ws.length ≤ j) : (s.fillMsg i ws).msg j = s.msg j := by
  have hb : ∀ b, b < 4 → (s.fillMsg i ws).readByte (msgAddr j + b) = s.readByte (msgAddr j + b) := by
    intro b hb
    apply State.readByte_fillMsg_other
    intro k h1 h2
    simp only [msgAddr]
    omega
  have h0 : (s.fillMsg i ws).readByte (msgAddr j) = s.readByte (msgAddr j) := hb 0 (by omega)
  unfold State.msg
  rw [hb 3 (by omega), hb 2 (by omega), hb 1 (by omega), h0]

theorem State.msg_setMsg {s : State} {i : Nat} {w : Word} (h : i < 2048) :
    (s.setMsg i w).msg i = w :=
  State.msg_of_lookup fun _ hk => Memory.lookup_storeWord h hk

/-- The state that unpacking fills: the three blocks of MSG. -/
def filled (m : Message) (s : State) : State :=
  ((s.setMsg 0 (m.fc.setWidth 32)).fillMsg 1 (payloadFields m.body)).fillMsg 8
    (payloadElements m.body)

theorem runMessage_unpack_eq (m : Message) (s : State) :
    runMessage .unpack m s = commandDone (filled m s) := rfl

/-- Filling MSG changes the memory only. -/
theorem filled_eq (m : Message) (s : State) : ∃ w, filled m s = { s with mem := w } :=
  ⟨_, rfl⟩

theorem filled_words {m : Message} (h : (payloadElements m.body).length ≤ 2040) (s : State) :
    ∀ p ∈ descriptorWords m, (filled m s).msg p.1 = p.2 := by
  have hf := payloadFields_length m.body
  intro p hp
  simp only [descriptorWords, elementWords, List.mem_append, List.mem_cons, List.mem_map] at hp
  unfold filled
  rcases hp with (rfl | ⟨⟨w, k⟩, hk, rfl⟩) | ⟨⟨w, k⟩, hk, rfl⟩
  · rw [State.msg_fillMsg_other (Or.inl (Nat.zero_lt_succ 7)),
      State.msg_fillMsg_other (Or.inl (Nat.zero_lt_succ 0)), State.msg_setMsg (Nat.zero_lt_succ 2047)]
  · have hk' := List.mk_mem_zipIdx_iff_getElem?.mp hk
    have hl := (List.getElem?_eq_some_iff.mp hk').1
    rw [State.msg_fillMsg_other (Or.inl (by omega)), State.msg_fillMsg hk' (by omega)]
  · have hk' := List.mk_mem_zipIdx_iff_getElem?.mp hk
    have hl := (List.getElem?_eq_some_iff.mp hk').1
    rw [State.msg_fillMsg hk' (by omega)]

theorem filled_frame {m : Message} {a : Nat}
    (ha : ∀ p ∈ descriptorWords m, a < msgAddr p.1 ∨ msgAddr p.1 + 4 ≤ a) (s : State) :
    (filled m s).readByte a = s.readByte a := by
  unfold filled
  rw [State.readByte_fillMsg_other, State.readByte_fillMsg_other]
  · have h0 := ha (0, m.fc.setWidth 32) (by simp [descriptorWords])
    exact State.readByte_eq_of_lookup rfl (Memory.lookup_storeWord_other h0)
  · intro k h1 h2
    have hk : k - 1 < (payloadFields m.body).length := by omega
    have := ha (1 + (k - 1), (payloadFields m.body)[k - 1]) (by
      simp only [descriptorWords, List.mem_append, List.mem_cons, List.mem_map]
      exact Or.inl (Or.inr ⟨(_, k - 1), List.mk_mem_zipIdx_iff_getElem?.mpr
        (List.getElem?_eq_getElem hk), rfl⟩))
    rwa [show 1 + (k - 1) = k by omega] at this
  · intro k h1 h2
    have hk : k - 8 < (payloadElements m.body).length := by omega
    have := ha (8 + (k - 8), (payloadElements m.body)[k - 8]) (by
      simp only [descriptorWords, elementWords, List.mem_append, List.mem_cons, List.mem_map]
      exact Or.inr ⟨(_, k - 8), List.mk_mem_zipIdx_iff_getElem?.mpr
        (List.getElem?_eq_getElem hk), rfl⟩)
    rwa [show 8 + (k - 8) = k by omega] at this

theorem commandDone_readByte (s : State) (a : Nat) :
    (commandDone s).readByte a = s.readByte a := rfl

theorem commandDone_msg (s : State) (i : Nat) : (commandDone s).msg i = s.msg i := rfl

/-- Unpacking a message stores its descriptor words (R161, R163). -/
theorem runMessage_unpack {m : Message} (h : (payloadElements m.body).length ≤ 2040) (s : State) :
    UnpackedAs s (descriptorWords m) (.next (runMessage .unpack m s)) := by
  rw [runMessage_unpack_eq]
  refine ⟨commandDone (filled m s), rfl, ?_, fun p hp => ?_, fun a ha => ?_⟩
  · obtain ⟨w, hw⟩ := filled_eq m s
    rw [hw]
    rfl
  · rw [commandDone_msg, filled_words h s p hp]
  · rw [commandDone_readByte, filled_frame ha s]

end Sys2Proof.Machine
end

