-- ==== Sys2Proof/Laws/Describe.lean ====
section
/-! SUPPORT. The descriptor that a message has: every reader of ENCODE reads the list that the words of MSG
describe, so a payload that fits is read from its description (spec/40_codec.md R160, R164-R187). -/

namespace Sys2Proof.Machine

/-! ## Reading the words of a list -/

theorem limit_le {a b : Nat} (h : a ≤ b) : limit (decide (a ≤ b)) = .ok () :=
  limit_pass (decide_eq_true h)

theorem limit_and {a b c d : Nat} (h1 : a ≤ b) (h2 : c ≤ d) :
    limit (decide (a ≤ b) && decide (c ≤ d)) = .ok () :=
  limit_pass (by rw [Bool.and_eq_true]; exact ⟨decide_eq_true h1, decide_eq_true h2⟩)

theorem toNat_half (v : Half) : (v.setWidth 32).toNat = v.toNat := by
  rw [BitVec.toNat_setWidth, Nat.mod_eq_of_lt (by omega)]

theorem chk16_word (v : Half) : chk16 (v.setWidth 32) = .ok v := by
  rw [chk16_pass (by rw [toNat_half]; omega)]
  congr 1
  exact BitVec.eq_of_toNat_eq
    (by rw [BitVec.toNat_setWidth, toNat_half, Nat.mod_eq_of_lt (by omega)])

theorem chk8_word (v : Byte) : chk8 (v.setWidth 32) = .ok v := by
  have h : (v.setWidth 32).toNat = v.toNat := by
    rw [BitVec.toNat_setWidth, Nat.mod_eq_of_lt (by omega)]
  rw [chk8_pass (by rw [h]; omega)]
  congr 1
  exact BitVec.eq_of_toNat_eq (by rw [BitVec.toNat_setWidth, h, Nat.mod_eq_of_lt (by omega)])

theorem chk16_count {n : Nat}
  (h : n < 0x10000) : chk16 (BitVec.ofNat 32 n) = .ok (BitVec.ofNat 16 n) := by
  rw [chk16_pass (by rw [BitVec.toNat_ofNat, Nat.mod_eq_of_lt (by omega)]; omega)]
  congr 1
  apply BitVec.eq_of_toNat_eq
  simp only [BitVec.toNat_setWidth, BitVec.toNat_ofNat]
  omega

theorem toNat_count {n : Nat} (h : n < 0x10000) : (BitVec.ofNat 16 n).toNat = n := by
  rw [BitVec.toNat_ofNat, Nat.mod_eq_of_lt h]

/-- The words of a list, one by one. -/
theorem wordsFrom_cons {m : Nat → Word} {i n : Nat} {w : Word} {ws : List Word}
    (h : wordsFrom m i n = w :: ws) :
    ∃ k, n = k + 1 ∧ m (Config.e0 + i) = w ∧ wordsFrom m (i + 1) k = ws := by
  cases n with
  | zero => cases h
  | succ k =>
    rw [wordsFrom_succ] at h
    cases h
    exact ⟨k, rfl, rfl, rfl⟩

/-- The words of two lists, one after the other. -/
theorem wordsFrom_append {m : Nat → Word} {i n : Nat} {us ws : List Word}
    (h : wordsFrom m i n = us ++ ws) :
    wordsFrom m i us.length = us ∧ wordsFrom m (i + us.length) (n - us.length) = ws := by
  have hn : n = us.length + (n - us.length) := by
    have := congrArg List.length h
    simp only [wordsFrom_length, List.length_append] at this
    omega
  rw [hn, wordsFrom_add] at h
  exact List.append_inj h (wordsFrom_length _ _ _)

/-- The elements, read as a list of words. -/
theorem elementsAre_iff (M : Nat → Word) (ws : List Word) :
    ElementsAre M ws ↔ wordsFrom M 0 ws.length = ws := by
  constructor
  · intro h
    apply List.ext_getElem (wordsFrom_length _ _ _)
    intro k h1 h2
    simp only [wordsFrom, List.getElem_map, List.getElem_range, Config.e0, Nat.add_zero]
    exact h k _ (List.getElem?_eq_getElem h2)
  · intro h k w hk
    obtain ⟨h2, rfl⟩ := List.getElem?_eq_some_iff.mp hk
    rw [List.getElem_of_eq h.symm]
    simp only [wordsFrom, List.getElem_map, List.getElem_range, Config.e0, Nat.add_zero]

/-- Registers are read from their words (R164). -/
theorem readHalves_words {m : Nat → Word} {i n : Nat} {vs : List Half}
    (h : wordsFrom m i n = halfWords vs) : readHalves m i vs.length = .ok vs := by
  induction vs generalizing i n with
  | nil => rfl
  | cons v vs ih =>
    obtain ⟨k, rfl, h1, h2⟩ := wordsFrom_cons h
    exact ok_of_bind (by rw [element, h1, chk16_word]) (ok_of_bind (ih h2) rfl)

/-- Sub-requests of Read File Record are read from their words (R180). -/
theorem readFileRefs_words {m : Nat → Word} {i n : Nat} {rs : List FileRef}
    (h : wordsFrom m i n = payloadElements (.fileRefs rs)) :
    readFileRefs m i rs.length = .ok rs := by
  induction rs generalizing i n with
  | nil => rfl
  | cons r rs ih =>
    obtain ⟨a, rfl, h1, h⟩ := wordsFrom_cons h
    obtain ⟨a, rfl, h2, h⟩ := wordsFrom_cons h
    obtain ⟨a, rfl, h3, h⟩ := wordsFrom_cons h
    obtain ⟨a, rfl, h4, h⟩ := wordsFrom_cons h
    exact ok_of_bind (by rw [element, h1, chk8_word]) (ok_of_bind (by rw [element, h2, chk16_word])
      (ok_of_bind (by rw [element]; exact (congrArg chk16 h3).trans (chk16_word _))
      (ok_of_bind (by rw [element]; exact (congrArg chk16 h4).trans (chk16_word _))
      (ok_of_bind (ih h) rfl))))

/-- Sub-responses are read from their words (R181). -/
theorem readFileData_words {m : Nat → Word} {c n : Nat} {ds : List FileData}
    (hl : c + fileDataWords ds ≤ 2040) (hs : ∀ d ∈ ds, 1 + 2 * d.values.length ≤ 255)
    (h : wordsFrom m c n = payloadElements (.fileData ds)) :
    readFileData m c ds.length = .ok ds := by
  induction ds generalizing c n with
  | nil => rfl
  | cons d ds ih =>
    obtain ⟨a, rfl, h1, h⟩ := wordsFrom_cons h
    obtain ⟨a, rfl, h2, h⟩ := wordsFrom_cons h
    obtain ⟨h3, h4⟩ := wordsFrom_append h
    have hd := hs d (List.mem_cons_self ..)
    rw [fileDataWords] at hl
    have hlen : (halfWords d.values).length = d.values.length := List.length_map _
    rw [hlen] at h4
    have hn := toNat_count (n := d.values.length) (by omega)
    refine ok_of_bind (limit_le (by simp only [Config.elements]; omega))
      (ok_of_bind (by rw [element, h1]; exact chk16_count (by omega))
      (ok_of_bind (by rw [element]; exact (congrArg chk8 h2).trans (chk8_word _)) ?_))
    simp only [hn]
    exact ok_of_bind (limit_and (by omega) (by simp only [Config.elements]; omega))
      (ok_of_bind (readHalves_words h3)
      (ok_of_bind (ih (by omega) (fun e he => hs e (List.mem_cons_of_mem _ he)) h4) rfl))

/-- Sub-requests of Write File Record are read from their words (R182). -/
theorem readFileWrites_words {m : Nat → Word} {c n : Nat} {ds : List FileWrite}
    (hl : c + fileWriteWords ds ≤ 2040)
    (h : wordsFrom m c n = payloadElements (.fileWrites ds)) :
    readFileWrites m c ds.length = .ok ds := by
  induction ds generalizing c n with
  | nil => rfl
  | cons d ds ih =>
    obtain ⟨a, rfl, h1, h⟩ := wordsFrom_cons h
    obtain ⟨a, rfl, h2, h⟩ := wordsFrom_cons h
    obtain ⟨a, rfl, h2a, h⟩ := wordsFrom_cons h
    obtain ⟨a, rfl, h2b, h⟩ := wordsFrom_cons h
    obtain ⟨h3, h4⟩ := wordsFrom_append h
    rw [fileWriteWords] at hl
    have hlen : (halfWords d.values).length = d.values.length := List.length_map _
    rw [hlen] at h4
    have hn := toNat_count (n := d.values.length) (by omega)
    refine ok_of_bind (limit_le (by simp only [Config.elements]; omega))
      (ok_of_bind (by rw [element, h1, chk8_word])
      (ok_of_bind (by rw [element]; exact (congrArg chk16 h2).trans (chk16_word _))
      (ok_of_bind (by rw [element]; exact (congrArg chk16 h2a).trans (chk16_word _))
       (ok_of_bind (by rw [element]; exact (congrArg chk16 h2b).trans (chk16_count (by omega))) ?_))))
    simp only [hn]
    exact ok_of_bind (limit_le (by simp only [Config.elements]; omega))
      (ok_of_bind (readHalves_words h3) (ok_of_bind (ih (by omega) h4) rfl))

/-- Bits are read from their words (R164). -/
theorem readBits_words {m : Nat → Word} {i : Nat} {bs : List Bool}
    (h : ∀ k b, bs[k]? = some b → m (8 + i + k) = if b then 1 else 0) :
    readBits m i bs.length = .ok bs := by
  induction bs generalizing i with
  | nil => rfl
  | cons b bs ih =>
    have h0 : m (8 + i) = if b then 1 else 0 := h 0 b rfl
    refine ok_of_bind (a := b) ?_ (ok_of_bind (ih fun k b hk => ?_) rfl)
    · rw [element, Config.e0, h0]; cases b <;> rfl
    · rw [show 8 + (i + 1) + k = 8 + i + (k + 1) by omega]
      exact h (k + 1) b (by simpa using hk)

/-- Bits are read and padded to whole bytes (R133, R171, R176). -/
theorem readBits_padded {M : Nat → Word} {n : Nat} {bits : List Bool} (h : BitsAre M n bits) :
    ∃ bs, readBits M 0 n = .ok bs ∧ padBits bs = bits := by
  obtain ⟨hl, h⟩ := h
  have hn : (bits.take n).length = n := by rw [List.length_take]; omega
  refine ⟨bits.take n, ?_, ?_⟩
  · have := readBits_words (m := M) (i := 0) (bs := bits.take n) (fun k b hk => by
      have hk' : k < n := by
        obtain ⟨h1, -⟩ := List.getElem?_eq_some_iff.mp hk
        omega
      rw [List.getElem?_take, if_pos hk'] at hk
      have := h k b hk
      rwa [if_pos hk'] at this)
    rwa [hn] at this
  · rw [padBits, hn]
    conv_rhs => rw [← List.take_append_drop n bits]
    congr 1
    apply List.ext_getElem
    · simp only [List.length_replicate, List.length_drop, bitBytes]; omega
    · intro k h1 h2
      simp only [List.getElem_replicate, List.getElem_drop]
      have hk : n + k < bits.length := by simp only [List.length_drop] at h2; omega
      have := h (n + k) _ (List.getElem?_eq_getElem hk)
      rw [if_neg (by omega)] at this
      exact this.symm

/-! ## Reading a payload -/

theorem fileDataSize_ge (ds : List FileData) : 2 * ds.length ≤ fileDataSize ds := by
  induction ds with
  | nil => exact Nat.le_refl _
  | cons d ds ih => rw [fileDataSize, List.length_cons]; omega

theorem fileWriteSize_ge (ds : List FileWrite) : 2 * ds.length ≤ fileWriteSize ds := by
  induction ds with
  | nil => exact Nat.le_refl _
  | cons d ds ih => rw [fileWriteSize, List.length_cons]; omega

/-- A sub-response is part of the whole. -/
theorem fileData_le_size (ds : List FileData) :
    ∀ d ∈ ds, 2 + 2 * d.values.length ≤ fileDataSize ds := by
  induction ds with
  | nil => intro d h; cases h
  | cons a ds ih =>
    intro d h
    rw [fileDataSize]
    rcases List.mem_cons.1 h with rfl | h
    · omega
    · have := ih d h; omega

/-- A payload that fits is read from the words that describe it (R170-R187). -/
theorem readPayload_of_describes {M : Nat → Word} {m : Message} (hd : Describes M m)
    (hf : payloadFits m.body) :
    readPayload M (payloadLayout m.body) = .ok m.body := by
  obtain ⟨fc, body⟩ := m
  obtain ⟨-, hd⟩ := hd
  obtain ⟨hs, hw⟩ := hf
  rw [packPayload_length] at hs
  cases body <;> simp only [payloadLayout] at hd hs ⊢
  case pair a b =>
    exact ok_of_bind (by rw [hd.1, chk16_word])
      (ok_of_bind (by rw [hd.2, chk16_word]) rfl)
  case coils bits =>
    obtain ⟨bs, hb, hp⟩ := readBits_padded hd
    have hl := hd.1
    have h1 : (M 1).toNat < 65536 := by omega
    have hn : ((M 1).setWidth 16).toNat = (M 1).toNat := by
      rw [BitVec.toNat_setWidth, Nat.mod_eq_of_lt (by omega)]
    refine ok_of_bind (chk16_pass h1) ?_
    simp only [hn]
    exact ok_of_bind (limit_le (by simp only [bitBytes, Config.payloadMax]; omega))
      (ok_of_bind hb (by rw [hp]; rfl))
  case registers vs =>
    have hn := toNat_count (n := vs.length) (by omega)
    refine ok_of_bind (by rw [hd.1]; exact chk16_count (by omega)) ?_
    simp only [hn]
    exact ok_of_bind (limit_and (by omega) (by simp only [Config.payloadMax]; omega))
      (ok_of_bind (readHalves_words ((elementsAre_iff _ _).1 hd.2)) rfl)
  case writeCoils a q bits =>
    obtain ⟨bs, hb, hp⟩ := readBits_padded hd.2.2
    have hl := hd.2.2.1
    refine ok_of_bind (by rw [hd.1, chk16_word]) (ok_of_bind (by rw [hd.2.1, chk16_word]) ?_)
    exact ok_of_bind (limit_le (by simp only [bitBytes, Config.payloadMax]; omega))
      (ok_of_bind hb (by rw [hp]; rfl))
  case writeRegs a q vs =>
    obtain ⟨h1, h2, h3, h4⟩ := hd
    refine ok_of_bind (by rw [h1, chk16_word]) (ok_of_bind (by rw [h2, chk16_word]) ?_)
    simp only [h3]
    exact ok_of_bind (limit_le (by simp only [Config.payloadMax]; omega))
      (ok_of_bind (readHalves_words ((elementsAre_iff _ _).1 h4)) rfl)
  case fileRefs subs =>
    have hn := toNat_count (n := subs.length) (by omega)
    refine ok_of_bind (by rw [hd.1]; exact chk16_count (by omega)) ?_
    simp only [hn]
    exact ok_of_bind (limit_le (by simp only [Config.payloadMax]; omega))
      (ok_of_bind (readFileRefs_words ((elementsAre_iff _ _).1 hd.2)) rfl)
  case fileData subs =>
    have hle := fileDataWords_le subs
    have hlen := fileDataSize_ge subs
    have hn := toNat_count (n := subs.length) (by omega)
    refine ok_of_bind (by rw [hd.1]; exact chk16_count (by omega)) ?_
    simp only [hn]
    exact ok_of_bind (readFileData_words (by omega)
        (fun d h => by have := fileData_le_size subs d h; omega) ((elementsAre_iff _ _).1 hd.2))
      (ok_of_bind (limit_le (by simp only [Config.payloadMax]; omega)) rfl)
  case fileWrites subs =>
    have hle := fileWriteWords_le subs
    have hlen := fileWriteSize_ge subs
    have hn := toNat_count (n := subs.length) (by omega)
    refine ok_of_bind (by rw [hd.1]; exact chk16_count (by omega)) ?_
    simp only [hn]
    exact ok_of_bind (readFileWrites_words (by omega) ((elementsAre_iff _ _).1 hd.2))
      (ok_of_bind (limit_le (by simp only [Config.payloadMax]; omega)) rfl)
  case maskWrite a n o =>
    exact ok_of_bind (by rw [hd.1, chk16_word]) (ok_of_bind (by rw [hd.2.1, chk16_word])
      (ok_of_bind (by rw [hd.2.2, chk16_word]) rfl))
  case readWrite r k w q vs =>
    obtain ⟨h1, h2, h3, h4, h5, h6⟩ := hd
    refine ok_of_bind (by rw [h1, chk16_word]) (ok_of_bind (by rw [h2, chk16_word])
      (ok_of_bind (by rw [h3, chk16_word]) (ok_of_bind (by rw [h4, chk16_word]) ?_)))
    simp only [h5]
    exact ok_of_bind (limit_le (by simp only [Config.payloadMax]; omega))
      (ok_of_bind (readHalves_words ((elementsAre_iff _ _).1 h6)) rfl)
  case fifoPointer a => exact ok_of_bind (by rw [hd, chk16_word]) rfl
  case fifoValues vs =>
    have hn := toNat_count (n := vs.length) (by omega)
    refine ok_of_bind (by rw [hd.1]; exact chk16_count (by omega)) ?_
    simp only [hn]
    exact ok_of_bind (limit_le (by simp only [Config.payloadMax]; omega))
      (ok_of_bind (readHalves_words ((elementsAre_iff _ _).1 hd.2)) rfl)
  case exception c => exact ok_of_bind (by rw [hd, chk8_word]) rfl

end Sys2Proof.Machine
end

