-- ==== Sys2Proof/Laws/Invariant.lean ====
section
/-! SUPPORT. What each shared operation keeps of the invariant of Safety.lean: the memory's canonical form
under every RAM write, the receiver's and the transmitter's relations under delivery, discard and
transmission (spec/10_state.md R33-R60, spec/42_framing.md R277, R290, R300). -/

namespace Sys2Proof.Machine

/-! ## The memory -/

theorem isRamByte_txbuf {i : Nat} (h : i < Config.bufN) : isRamByte (txbufAddr i) = true := by
  have hb : Config.bufN = 256 := rfl
  simp only [isRamByte, Bool.or_eq_true, Bool.and_eq_true, decide_eq_true_eq, beq_iff_eq]
  unfold txbufAddr
  omega

theorem isRamByte_rxbuf {i : Nat} (h : i < Config.bufN) : isRamByte (rxbufAddr i) = true := by
  have hb : Config.bufN = 256 := rfl
  simp only [isRamByte, Bool.or_eq_true, Bool.and_eq_true, decide_eq_true_eq, beq_iff_eq]
  unfold rxbufAddr
  omega

theorem isRamByte_msg {i : Nat} (h : i < Config.msgN) (k : Nat) (hk : k < 4) :
    isRamByte (msgAddr i + k) = true := by
  have hb : Config.msgN = 2048 := rfl
  simp only [isRamByte, Bool.or_eq_true, Bool.and_eq_true, decide_eq_true_eq, beq_iff_eq]
  unfold msgAddr
  omega

/-- The memory part of the invariant, of the memory alone. -/
def MemoryOk (m : Memory) : Prop := Memory.wf m = true ∧ m.all (fun c => isRamByte c.1) = true

theorem MemoryOk_nil : MemoryOk [] := ⟨rfl, rfl⟩

theorem MemoryOk_fillTx {m : Memory} (h : MemoryOk m) (i : Nat) (bs : List Byte) :
    MemoryOk (Memory.fillEntries txbufAddr Config.bufN i m bs) :=
  ⟨Memory.fillEntries_wf bs h.1, Memory.fillEntries_all (fun _ => isRamByte_txbuf) bs h.2⟩

theorem MemoryOk_fillRx {m : Memory} (h : MemoryOk m) (i : Nat) (bs : List Byte) :
    MemoryOk (Memory.fillEntries rxbufAddr Config.bufN i m bs) :=
  ⟨Memory.fillEntries_wf bs h.1, Memory.fillEntries_all (fun _ => isRamByte_rxbuf) bs h.2⟩

theorem MemoryOk_fillWords {m : Memory} (h : MemoryOk m) (i : Nat) (ws : List Word) :
    MemoryOk (Memory.fillWords i m ws) :=
  ⟨Memory.fillWords_wf ws h.1, Memory.fillWords_all (fun _ hi k hk => isRamByte_msg hi k hk) ws h.2⟩

theorem MemoryOk_setTx {m : Memory} (h : MemoryOk m) (i : Nat) (b : Byte) :
    MemoryOk (Memory.storeEntry txbufAddr Config.bufN i b m) := MemoryOk_fillTx h i [b]

theorem MemoryOk_setMsg {m : Memory} (h : MemoryOk m) (i : Nat) (w : Word) :
    MemoryOk (Memory.storeWord i w m) := MemoryOk_fillWords h i [w]

/-- Running a message keeps the memory's form. -/
theorem MemoryOk_runMessage {s : State} (h : MemoryOk s.mem) (op : CodecOp) (m : Message) :
    MemoryOk (runMessage op m s).mem := by
  cases op
  · exact MemoryOk_fillTx h 0 (packMessage m)
  · exact MemoryOk_fillWords (MemoryOk_fillWords (MemoryOk_setMsg h 0 _) 1 _) Config.e0 _

/-- Running a message changes the memory, TXLEN and ERR only. -/
theorem runMessage_fields (op : CodecOp) (m : Message) (s : State) :
    ∃ w n, runMessage op m s = { s with mem := w, txLen := n, err := .ok } := by
  cases op
  · exact ⟨_, _, rfl⟩
  · obtain ⟨w, hw⟩ := filled_eq m s
    refine ⟨w, s.txLen, ?_⟩
    rw [runMessage_unpack_eq, hw]
    rfl

/-! ## Delivery and discard -/

/-- Delivery changes the memory and the receive registers only, and keeps the memory's form. -/
theorem deliver_fields (unit : Byte) (pdu : List Byte) (tid pid : Half) (s : State) :
    ∃ m u n i p v o k c, deliver unit pdu tid pid s = { s with
        mem := m, rxUnit := u, rxLen := n, rxTid := i, rxPid := p, rxValid := v, overrun := o
        cntRxOk := k, cntOverrun := c, rxAsm := [], rxNib := none }
      ∧ (MemoryOk s.mem → MemoryOk m)
      ∧ ((n = s.rxLen ∧ v = s.rxValid) ∨ (n = BitVec.ofNat 9 pdu.length ∧ v = true)) := by
  unfold deliver
  split
  · exact ⟨s.mem, s.rxUnit, s.rxLen, s.rxTid, s.rxPid, s.rxValid, _, s.cntRxOk, _, rfl, id,
      Or.inl ⟨rfl, rfl⟩⟩
  · exact ⟨_, _, _, _, _, _, s.overrun, _, s.cntOverrun, rfl,
      fun h => MemoryOk_fillRx h 0 pdu, Or.inr ⟨rfl, rfl⟩⟩

/-- Discarding changes the error flag, one counter and the partial frame only. -/
theorem discardFrame_fields (cause : DiscardCause) (s : State) :
    ∃ f c, discardFrame cause s = { s with
      rxErr := true, cntFrameErr := f, cntCrcErr := c, rxAsm := [], rxNib := none } := by
  cases cause
  case checksum => exact ⟨s.cntFrameErr, _, rfl⟩
  all_goals exact ⟨_, s.cntCrcErr, rfl⟩

/-- What ends a frame being received: everything it can change, and what it keeps. -/
structure FrameEnded (s t : State) : Prop where
  fields : ∃ m u n i p v o k c e f g, t = { s with
    mem := m, rxUnit := u, rxLen := n, rxTid := i, rxPid := p, rxValid := v, overrun := o
    cntRxOk := k, cntOverrun := c, rxErr := e, cntFrameErr := f, cntCrcErr := g
    rxAsm := [], rxNib := none }
  memory : MemoryOk s.mem → MemoryOk t.mem
  held : s.rxLen.toNat ≤ 253 ∧ (s.rxValid = true → 1 ≤ s.rxLen.toNat) →
    t.rxLen.toNat ≤ 253 ∧ (t.rxValid = true → 1 ≤ t.rxLen.toNat)

theorem FrameEnded_discard (cause : DiscardCause) (s : State) :
    FrameEnded s (discardFrame cause s) := by
  obtain ⟨f, c, h⟩ := discardFrame_fields cause s
  rw [h]
  exact ⟨⟨s.mem, s.rxUnit, s.rxLen, s.rxTid, s.rxPid, s.rxValid, s.overrun, s.cntRxOk, s.cntOverrun,
    true, f, c, rfl⟩, id, id⟩

theorem FrameEnded_deliver {unit : Byte} {pdu : List Byte} {tid pid : Half} (h1 : 1 ≤ pdu.length)
    (h2 : pdu.length ≤ 253) (s : State) : FrameEnded s (deliver unit pdu tid pid s) := by
  obtain ⟨m, u, n, i, p, v, o, k, c, h, hm, hn⟩ := deliver_fields unit pdu tid pid s
  rw [h]
  refine ⟨⟨m, u, n, i, p, v, o, k, c, s.rxErr, s.cntFrameErr, s.cntCrcErr, rfl⟩, hm, fun hs => ?_⟩
  rcases hn with ⟨rfl, rfl⟩ | ⟨rfl, rfl⟩
  · exact hs
  · have hl : (BitVec.ofNat 9 pdu.length).toNat = pdu.length := by
      rw [BitVec.toNat_ofNat, Nat.mod_eq_of_lt (by omega)]
    simp only [hl]
    omega

/-- An RTU frame of 1 to 256 bytes ends (42_framing.md R283). -/
theorem FrameEnded_rtu {s : State} (h : s.rxAsm.length ≤ 256) : FrameEnded s (completeRtu s) := by
  unfold completeRtu
  simp only
  split
  · exact FrameEnded_discard _ _
  · split
    · apply FrameEnded_deliver <;> simp only [List.length_take, List.length_drop] <;> omega
    · exact FrameEnded_discard _ _

/-- An ASCII frame of at most 255 bytes ends (42_framing.md R287). -/
theorem FrameEnded_ascii {s : State} (h : s.rxAsm.length ≤ 255) :
    FrameEnded s (completeAscii s) := by
  unfold completeAscii
  simp only
  split
  · exact FrameEnded_discard _ _
  · split
    · apply FrameEnded_deliver <;> simp only [List.length_take, List.length_drop] <;> omega
    · exact FrameEnded_discard _ _

/-- A STREAM frame of its declared length ends (42_framing.md R289). -/
theorem FrameEnded_stream {s : State} (h1 : 2 ≤ (rd16 s.rxAsm 4).toNat)
    (h2 : (rd16 s.rxAsm 4).toNat ≤ 254) (h : s.rxAsm.length = 6 + (rd16 s.rxAsm 4).toNat) :
    FrameEnded s (completeStream s) := by
  unfold completeStream
  simp only
  apply FrameEnded_deliver <;> simp only [List.length_take, List.length_drop] <;> omega

/-! ## Line timing -/

/-- A frame of at least one character takes at least a microsecond. -/
theorem charStart_pos {s : State} {k : Nat} (hk : 1 ≤ k) (hc : 7 ≤ s.charBits.toNat)
    (hb : s.baud ≠ 0) : 0 < s.charStart k := by
  have hb' : 0 < s.baud.toNat := by
    rcases Nat.eq_zero_or_pos s.baud.toNat with h | h
    · exact absurd (BitVec.eq_of_toNat_eq (by simpa using h)) hb
    · exact h
  have h1 : 1 ≤ k * s.charK :=
    Nat.mul_pos hk (by simp only [State.charK]; omega)
  simp only [State.charStart, ceilDiv]
  exact Nat.div_pos (by omega) hb'

/-- The length of an RTU frame (42_framing.md R271). -/
theorem rtuFrame_length (body : List Byte) : (rtuFrame body).length = body.length + 2 := by
  simp [rtuFrame, le16]

/-- The length of an ASCII frame (42_framing.md R273). -/
theorem asciiFrame_length (body : List Byte) : (asciiFrame body).length = 2 * body.length + 5 := by
  have h : (body.flatMap hex2).length = 2 * body.length := by
    induction body with
    | nil => rfl
    | cons b bs ih =>
      simp only [List.flatMap_cons, List.length_append, ih, hex2, List.length_cons,
        List.length_nil]
      omega
  simp [asciiFrame, h, hex2]

theorem txBody_length (s : State) : s.txBody.length = s.txLen.toNat + 1 := by simp [State.txBody]

end Sys2Proof.Machine
end

