-- ==== Sys2Proof/Laws/PerInstr.lean ====
section
/-! SUPPORT. The size of every row's code: a command word has bits 31:17 zero (spec/30_encoding.md R120),
a PDU has 1 to 253 bytes (00_scope.md R8, R130). -/

namespace Sys2Proof.Laws.EncodedSize

/-- The code of a well-formed instruction has its format's size. -/
def Statement (i : Instr) : Prop :=
  WellFormed i = true →
    match encode i with
    | .command v => reservedField v = 0
    | .pdu _ _ bytes => 1 ≤ bytes.length ∧ bytes.length ≤ 253

/-- A PDU row's code has one byte more than its payload. -/
theorem pdu_size {fc : Byte} {body : Payload} (h : (packPayload body).length ≤ 252) :
    1 ≤ (packMessage ⟨fc, body⟩).length ∧ (packMessage ⟨fc, body⟩).length ≤ 253 := by
  simp only [packMessage, List.length_cons]
  omega

/-- A data byte does not reach bits 31:17. -/
theorem data_size (w : Word) (b : Byte) (h : w.toNat < 256) :
    reservedField (w ||| (b.setWidth 32 <<< 8)) = 0 := by
  have hb := b.isLt
  rw [reservedField_eq_zero, dataWord_toNat h]
  omega

theorem nop : Statement .nop :=
  fun _ => rfl

theorem crcInit : Statement .crcInit :=
  fun _ => rfl

theorem crcFeed (b : Byte) : Statement (.crcFeed b) :=
  fun _ => data_size _ _ (by decide)

theorem lrcInit : Statement .lrcInit :=
  fun _ => rfl

theorem lrcFeed (b : Byte) : Statement (.lrcFeed b) :=
  fun _ => data_size _ _ (by decide)

theorem encodeReq : Statement .encodeReq :=
  fun _ => rfl

theorem encodeRsp : Statement .encodeRsp :=
  fun _ => rfl

theorem decodeReq : Statement .decodeReq :=
  fun _ => rfl

theorem decodeRsp : Statement .decodeRsp :=
  fun _ => rfl

theorem txSend : Statement .txSend :=
  fun _ => rfl

theorem rxEnable : Statement .rxEnable :=
  fun _ => rfl

theorem rxDisable : Statement .rxDisable :=
  fun _ => rfl

theorem rxRelease : Statement .rxRelease :=
  fun _ => rfl

theorem resetSoft : Statement .resetSoft :=
  fun _ => rfl

theorem pduReq01 (op : CodecOp) (start quantity : Half) :
    Statement (.pduReq01 op start quantity) := by
  intro _
  apply pdu_size
  rw [packPayload_length]
  exact Nat.le_of_ble_eq_true rfl

theorem pduRsp01 (op : CodecOp) (bits : List Bool) :
    Statement (.pduRsp01 op bits) := by
  intro h
  apply pdu_size
  rw [packPayload_length]
  simp only [WellFormed, coilsOk, wholeBytes, Bool.and_eq_true, beq_iff_eq, decide_eq_true_eq] at h
  have hl : Config.payloadMax = 252 := rfl
  simp only
  omega

theorem pduReq02 (op : CodecOp) (start quantity : Half) :
    Statement (.pduReq02 op start quantity) := by
  intro _
  apply pdu_size
  rw [packPayload_length]
  exact Nat.le_of_ble_eq_true rfl

theorem pduRsp02 (op : CodecOp) (bits : List Bool) :
    Statement (.pduRsp02 op bits) := by
  intro h
  apply pdu_size
  rw [packPayload_length]
  simp only [WellFormed, coilsOk, wholeBytes, Bool.and_eq_true, beq_iff_eq, decide_eq_true_eq] at h
  have hl : Config.payloadMax = 252 := rfl
  simp only
  omega

theorem pduReq03 (op : CodecOp) (start quantity : Half) :
    Statement (.pduReq03 op start quantity) := by
  intro _
  apply pdu_size
  rw [packPayload_length]
  exact Nat.le_of_ble_eq_true rfl

theorem pduRsp03 (op : CodecOp) (values : List Half) :
    Statement (.pduRsp03 op values) := by
  intro h
  apply pdu_size
  rw [packPayload_length]
  simp only [WellFormed, registersOk, decide_eq_true_eq] at h
  have hl : Config.payloadMax = 252 := rfl
  simp only
  omega

theorem pduReq04 (op : CodecOp) (start quantity : Half) :
    Statement (.pduReq04 op start quantity) := by
  intro _
  apply pdu_size
  rw [packPayload_length]
  exact Nat.le_of_ble_eq_true rfl

theorem pduRsp04 (op : CodecOp) (values : List Half) :
    Statement (.pduRsp04 op values) := by
  intro h
  apply pdu_size
  rw [packPayload_length]
  simp only [WellFormed, registersOk, decide_eq_true_eq] at h
  have hl : Config.payloadMax = 252 := rfl
  simp only
  omega

theorem pduReq05 (op : CodecOp) (address value : Half) :
    Statement (.pduReq05 op address value) := by
  intro _
  apply pdu_size
  rw [packPayload_length]
  exact Nat.le_of_ble_eq_true rfl

theorem pduRsp05 (op : CodecOp) (address value : Half) :
    Statement (.pduRsp05 op address value) := by
  intro _
  apply pdu_size
  rw [packPayload_length]
  exact Nat.le_of_ble_eq_true rfl

theorem pduReq06 (op : CodecOp) (address value : Half) :
    Statement (.pduReq06 op address value) := by
  intro _
  apply pdu_size
  rw [packPayload_length]
  exact Nat.le_of_ble_eq_true rfl

theorem pduRsp06 (op : CodecOp) (address value : Half) :
    Statement (.pduRsp06 op address value) := by
  intro _
  apply pdu_size
  rw [packPayload_length]
  exact Nat.le_of_ble_eq_true rfl

theorem pduReq0F (op : CodecOp) (start quantity : Half) (bits : List Bool) :
    Statement (.pduReq0F op start quantity bits) := by
  intro h
  apply pdu_size
  rw [packPayload_length]
  simp only [WellFormed, wholeBytes, Bool.and_eq_true, beq_iff_eq, decide_eq_true_eq] at h
  have hl : Config.payloadMax = 252 := rfl
  simp only
  omega

theorem pduRsp0F (op : CodecOp) (start quantity : Half) :
    Statement (.pduRsp0F op start quantity) := by
  intro _
  apply pdu_size
  rw [packPayload_length]
  exact Nat.le_of_ble_eq_true rfl

theorem pduReq10 (op : CodecOp) (start quantity : Half) (values : List Half) :
    Statement (.pduReq10 op start quantity values) := by
  intro h
  apply pdu_size
  rw [packPayload_length]
  simp only [WellFormed, decide_eq_true_eq] at h
  have hl : Config.payloadMax = 252 := rfl
  simp only
  omega

theorem pduRsp10 (op : CodecOp) (start quantity : Half) :
    Statement (.pduRsp10 op start quantity) := by
  intro _
  apply pdu_size
  rw [packPayload_length]
  exact Nat.le_of_ble_eq_true rfl

theorem pduReq14 (op : CodecOp) (subs : List FileRef) :
    Statement (.pduReq14 op subs) := by
  intro h
  apply pdu_size
  rw [packPayload_length]
  simp only [WellFormed, decide_eq_true_eq] at h
  have hl : Config.payloadMax = 252 := rfl
  simp only
  omega

theorem pduRsp14 (op : CodecOp) (subs : List FileData) :
    Statement (.pduRsp14 op subs) := by
  intro h
  apply pdu_size
  rw [packPayload_length]
  simp only [WellFormed, decide_eq_true_eq] at h
  have hl : Config.payloadMax = 252 := rfl
  simp only
  omega

theorem pduReq15 (op : CodecOp) (subs : List FileWrite) :
    Statement (.pduReq15 op subs) := by
  intro h
  apply pdu_size
  rw [packPayload_length]
  simp only [WellFormed, fileWritesOk, decide_eq_true_eq] at h
  have hl : Config.payloadMax = 252 := rfl
  simp only
  omega

theorem pduRsp15 (op : CodecOp) (subs : List FileWrite) :
    Statement (.pduRsp15 op subs) := by
  intro h
  apply pdu_size
  rw [packPayload_length]
  simp only [WellFormed, fileWritesOk, decide_eq_true_eq] at h
  have hl : Config.payloadMax = 252 := rfl
  simp only
  omega

theorem pduReq16 (op : CodecOp) (address andMask orMask : Half) :
    Statement (.pduReq16 op address andMask orMask) := by
  intro _
  apply pdu_size
  rw [packPayload_length]
  exact Nat.le_of_ble_eq_true rfl

theorem pduRsp16 (op : CodecOp) (address andMask orMask : Half) :
    Statement (.pduRsp16 op address andMask orMask) := by
  intro _
  apply pdu_size
  rw [packPayload_length]
  exact Nat.le_of_ble_eq_true rfl

theorem pduReq17 (op : CodecOp) (readStart readQuantity writeStart writeQuantity : Half) (values : List Half) :
    Statement (.pduReq17 op readStart readQuantity writeStart writeQuantity values) := by
  intro h
  apply pdu_size
  rw [packPayload_length]
  simp only [WellFormed, decide_eq_true_eq] at h
  have hl : Config.payloadMax = 252 := rfl
  simp only
  omega

theorem pduRsp17 (op : CodecOp) (values : List Half) :
    Statement (.pduRsp17 op values) := by
  intro h
  apply pdu_size
  rw [packPayload_length]
  simp only [WellFormed, registersOk, decide_eq_true_eq] at h
  have hl : Config.payloadMax = 252 := rfl
  simp only
  omega

theorem pduReq18 (op : CodecOp) (address : Half) :
    Statement (.pduReq18 op address) := by
  intro _
  apply pdu_size
  rw [packPayload_length]
  exact Nat.le_of_ble_eq_true rfl

theorem pduRsp18 (op : CodecOp) (values : List Half) :
    Statement (.pduRsp18 op values) := by
  intro h
  apply pdu_size
  rw [packPayload_length]
  simp only [WellFormed, decide_eq_true_eq] at h
  have hl : Config.payloadMax = 252 := rfl
  simp only
  omega

theorem pduRspExc (op : CodecOp) (fc7 : BitVec 7) (code : Byte) :
    Statement (.pduRspExc op fc7 code) := by
  intro _
  apply pdu_size
  rw [packPayload_length]
  exact Nat.le_of_ble_eq_true rfl

end Sys2Proof.Laws.EncodedSize
end

