-- ==== Sys2Proof/Laws/Reject.lean ====
section
/-! SUPPORT. How DECODE rejects a PDU: every rejection of the unpacker but that of an unsupported function code
is MALFORMED (spec/40_codec.md R161, spec/60_exceptions.md R371). -/

namespace Sys2Proof.Machine

/-- A rejection whose error code is MALFORMED (60_exceptions.md R371). -/
def IsMalformed (e : DecodeError) : Prop := e ≠ .unsupportedCode ∧ decodeErrCode e = .malformed

theorem wrongLength_malformed : IsMalformed .wrongLength := ⟨by decide, rfl⟩

theorem unpackCoils_error {c r e} (h : unpackCoils c r = .error e) : IsMalformed e := by
  unfold unpackCoils at h; split at h <;> cases h; exact wrongLength_malformed

theorem unpackRegisters_error {c r e} (h : unpackRegisters c r = .error e) : IsMalformed e := by
  unfold unpackRegisters at h; repeat' split at h
  all_goals cases h
  · exact wrongLength_malformed
  · exact ⟨by decide, rfl⟩

theorem unpackFileData_error {f bs e} (h : unpackFileData f bs = .error e) : IsMalformed e := by
  induction f generalizing bs e with
  | zero => cases bs <;> cases h; exact ⟨by decide, rfl⟩
  | succ f ih =>
    cases bs with
    | nil => cases h
    | cons b bs =>
      simp only [unpackFileData] at h
      split at h
      · cases h; exact ⟨by decide, rfl⟩
      · split at h
        · rename_i hh; cases h; exact ih hh
        · cases h

theorem unpackFileWrites_error {f bs e} (h : unpackFileWrites f bs = .error e) : IsMalformed e := by
  induction f generalizing bs e with
  | zero => cases bs <;> cases h; exact ⟨by decide, rfl⟩
  | succ f ih =>
    unfold unpackFileWrites at h
    split at h
    · cases h
    · cases h; exact ⟨by decide, rfl⟩
    · rename_i hn
      simp only at h
      split at h
      · cases h; exact ⟨by decide, rfl⟩
      · split at h
        · rename_i hh; cases hn; cases h; exact ih hh
        · cases h
    · cases h; exact ⟨by decide, rfl⟩

/-- A mapped failure is a failure. -/
theorem map_error {α β : Type} {x : Except DecodeError α} {f : α → β} {e : DecodeError}
    (h : x.map f = .error e) : x = .error e := by
  cases x <;> cases h; rfl

/-- Every failure of a variant's Unpack is MALFORMED (R161). -/
theorem unpackPayload_error {l p e} (h : unpackPayload l p = .error e) : IsMalformed e := by
  cases l <;> simp only [unpackPayload] at h <;> (repeat' split at h) <;>
    first
    | (cases h; exact wrongLength_malformed)
    | (cases h; exact ⟨by decide, rfl⟩)
    | cases h
    | exact unpackCoils_error (map_error h)
    | exact unpackRegisters_error (map_error h)
    | exact unpackFileData_error (map_error h)
    | exact unpackFileWrites_error (map_error h)

/-- DECODE rejects a PDU as unsupported or as malformed, and in no other way (R161). -/
theorem unpackPdu_error {dir pdu e} (h : unpackPdu dir pdu = .error e) :
    e = .unsupportedCode ∨ IsMalformed e := by
  unfold unpackPdu at h
  split at h
  · cases h; exact .inr ⟨by decide, rfl⟩
  · split at h
    · cases h; exact .inl rfl
    · exact .inr (unpackPayload_error (map_error h))

end Sys2Proof.Machine
end

