-- ==== Sys2Proof/Laws/Timing.lean ====
section
/-! SUPPORT. What the two halves of a Tick do: the RTU time check (spec/42_framing.md R282), case by case,
and all that the transmitter's step can change (R300). -/

namespace Sys2Proof.Machine

/-! ## The RTU time check -/

/-- `gap_eof`, in numbers (R281). -/
theorem gapEof_iff (s : State) (d : Nat) :
    s.gapEof d = true ↔ 9 * (1000000 * s.charBits.toNat) ≤ 2 * d * s.baud.toNat := by
  rw [State.gapEof, State.charK, decide_eq_true_eq]

/-- Before the end-of-frame silence nothing happens. -/
theorem rtuTimeCheck_before {s : State}
    (h : 2 * (s.t - s.tRxLast) * s.baud.toNat < 9 * (1000000 * s.charBits.toNat)) :
    rtuTimeCheck s = s :=
  if_neg fun hc => by have := (gapEof_iff s _).1 hc.2; omega

/-- In ASCII and STREAM modes nothing happens. -/
theorem rtuTimeCheck_mode {s : State} (h : s.mode ≠ .rtu) : rtuTimeCheck s = s :=
  if_neg fun hc => h hc.1

/-- Outside a frame, and outside ERROR, nothing happens. -/
theorem rtuTimeCheck_idle {s : State} (h1 : s.rxs ≠ .receiving) (h2 : s.rxs ≠ .error) :
    rtuTimeCheck s = s := by
  unfold rtuTimeCheck
  split
  · split <;> first | rfl | contradiction
  · rfl

/-- A frame is complete at the end-of-frame silence. -/
theorem rtuTimeCheck_receiving {s : State} (hm : s.mode = .rtu) (hx : s.rxs = .receiving)
    (h : 9 * (1000000 * s.charBits.toNat) ≤ 2 * (s.t - s.tRxLast) * s.baud.toNat) :
    rtuTimeCheck s = { completeRtu s with rxs := .idle } := by
  rw [rtuTimeCheck, if_pos ⟨hm, (gapEof_iff s _).2 h⟩]
  simp only [hx]

/-- ERROR ends at the end-of-frame silence. -/
theorem rtuTimeCheck_error {s : State} (hm : s.mode = .rtu) (hx : s.rxs = .error)
    (h : 9 * (1000000 * s.charBits.toNat) ≤ 2 * (s.t - s.tRxLast) * s.baud.toNat) :
    rtuTimeCheck s = { s with rxs := .idle } := by
  rw [rtuTimeCheck, if_pos ⟨hm, (gapEof_iff s _).2 h⟩]
  simp only [hx]

/-! ## The transmitter's step -/

theorem txStart_upTo (s : State) : UpToTransmitter (txStart s) s := by
  unfold UpToTransmitter txStart
  split
  · rfl
  · split <;> rfl
  · rfl

theorem txSendStep_upTo (s : State) : UpToTransmitter (txSendStep s) s := by
  unfold UpToTransmitter txSendStep
  split
  · rfl
  · rfl
  · simp only
    split <;> rfl

/-- The transmitter's step changes the transmitter's items only. -/
theorem txStep_upTo (s : State) : UpToTransmitter (txStep s) s := by
  have h1 := txStart_upTo s
  have h2 := txSendStep_upTo (txStart s)
  unfold UpToTransmitter at *
  rw [txStep, h2, h1]

/-- The RAM bytes are not the transmitter's. -/
theorem UpToTransmitter.readByte {t r : State} (h : UpToTransmitter t r) (a : Nat) :
    t.readByte a = r.readByte a := by
  rw [h]
  rfl

end Sys2Proof.Machine
end

