-- ==== Sys2Proof/Tests/Slice0.lean ====
section
/-! SUPPORT. The model's tests: ill-formed terms, decoding of every row, one step per instruction, and a
witness for the hypotheses of every statement. The expected values are those of spec/95_test_vectors.md
(V-CMD, V-CHK, V-ENC, V-DEC, E1-E12) or are read off the rule named. -/

namespace Sys2Proof.Tests

open Sys2Proof Sys2Proof.Machine

/-! ## Ill-formed terms -/

/-- R133: eight bits a byte. -/
theorem test_wf_coils_ragged : WellFormed (.pduRsp01 .pack [true]) = false := by decide
theorem test_wf_coils_ragged_02 : WellFormed (.pduRsp02 .pack [true]) = false := by decide
theorem test_wf_coils_ragged_0F : WellFormed (.pduReq0F .pack 0 1 [true]) = false := by decide

/-- V-ENC: N = 2009 is RANGE. -/
theorem test_wf_coils_long : WellFormed (.pduRsp01 .pack (List.replicate 2016 false)) = false := by
  simp only [WellFormed, coilsOk, wholeBytes, List.length_replicate]
  decide
/-- V-ENC: Q = 1977 is RANGE. -/
theorem test_wf_writeCoils_long :
    WellFormed (.pduReq0F .pack 0 1977 (List.replicate 1984 false)) = false := by
  simp only [WellFormed, wholeBytes, List.length_replicate]
  decide
/-- V-ENC: N = 126 is RANGE. -/
theorem test_wf_registers_long : WellFormed (.pduRsp03 .pack (List.replicate 126 0)) = false := by
  simp [WellFormed, registersOk, Config.payloadMax]
/-- V-ENC: Q = 124 is RANGE. -/
theorem test_wf_writeRegs_long :
    WellFormed (.pduReq10 .pack 0 124 (List.replicate 124 0)) = false := by
  simp [WellFormed, Config.payloadMax]
/-- V-ENC: S = 36 is RANGE. -/
theorem test_wf_fileRefs_long :
    WellFormed (.pduReq14 .pack (List.replicate 36 ⟨0, 0, 0, 0⟩)) = false := by
  simp [WellFormed, Config.payloadMax]
/-- R181: 2 + 2*125 bytes and the data length exceed 252. -/
theorem test_wf_fileData_long :
    WellFormed (.pduRsp14 .pack [⟨6, List.replicate 125 0⟩]) = false := by
  simp [WellFormed, fileDataSize, Config.payloadMax]
/-- R182: 7 + 2*123 bytes and the data length exceed 252. -/
theorem test_wf_fileWrites_long :
    WellFormed (.pduReq15 .pack [⟨6, 0, 0, List.replicate 123 0⟩]) = false := by
  simp [WellFormed, fileWritesOk, fileWriteSize, Config.payloadMax]
/-- V-ENC: Q = 122 is RANGE. -/
theorem test_wf_readWrite_long :
    WellFormed (.pduReq17 .pack 0 0 0 122 (List.replicate 122 0)) = false := by
  simp [WellFormed, Config.payloadMax]
/-- V-ENC: N = 125 is RANGE. -/
theorem test_wf_fifo_long : WellFormed (.pduRsp18 .pack (List.replicate 125 0)) = false := by
  simp [WellFormed, Config.payloadMax]

/-! ## Decoding, one word or PDU per row (V-CMD, V-DEC) -/

/-- V-CMD, the fourteen command words. -/
theorem test_decode_commands :
    [0x00000000, 0x00000001, 0x00000102, 0x00000003, 0x00000104, 0x00000010, 0x00010010,
      0x00000011, 0x00010011, 0x00000020, 0x00000030, 0x00000031, 0x00000032, 0x000000FF].map
        (fun v => decode (.command v))
      = [.nop, .crcInit, .crcFeed 0x01, .lrcInit, .lrcFeed 0x01, .encodeReq, .encodeRsp,
          .decodeReq, .decodeRsp, .txSend, .rxEnable, .rxDisable, .rxRelease, .resetSoft].map
        Except.ok := by decide

/-- V-CMD, the illegal words, each rejected by name. -/
theorem test_decode_illegal_commands :
    [0x00010002, 0x00000110, 0x00010020, 0x000100FF, 0x00000005, 0x00000012, 0x000000FE,
      0x00020000, 0x80000001].map (fun v => decode (.command v))
      = [.strayDir, .strayData, .strayDir, .strayDir, .reservedOp, .reservedOp, .reservedOp,
          .reservedBits, .reservedBits].map Except.error := by decide

/-- What DECODE reads from a PDU. -/
def read (dir : Dir) (bytes : List Byte) : Except DecodeError Instr :=
  decode (.pdu .unpack dir bytes)

theorem test_decode_req01 : read .request [0x01, 0, 0x13, 0, 0x0A] = .ok (.pduReq01 .unpack 19 10) := by
  decide
theorem test_decode_rsp01 : read .response [0x01, 1, 0xCD]
    = .ok (.pduRsp01 .unpack [true, false, true, true, false, false, true, true]) := by decide
theorem test_decode_req02 : read .request [0x02, 0, 0, 0, 0] = .ok (.pduReq02 .unpack 0 0) := by decide
theorem test_decode_rsp02 : read .response [0x02, 0] = .ok (.pduRsp02 .unpack []) := by decide
theorem test_decode_req03 : read .request [0x03, 0, 0, 0, 1] = .ok (.pduReq03 .unpack 0 1) := by decide
theorem test_decode_rsp03 : read .response [0x03, 2, 0, 0xFB] = .ok (.pduRsp03 .unpack [251]) := by
  decide
theorem test_decode_req04 : read .request [0x04, 1, 2, 3, 4]
    = .ok (.pduReq04 .unpack 0x0102 0x0304) := by decide
theorem test_decode_rsp04 : read .response [0x04, 0] = .ok (.pduRsp04 .unpack []) := by decide
theorem test_decode_req05 : read .request [0x05, 0, 0xAC, 0xFF, 0]
    = .ok (.pduReq05 .unpack 0xAC 0xFF00) := by decide
theorem test_decode_rsp05 : read .response [0x05, 0, 0xAC, 0x12, 0x34]
    = .ok (.pduRsp05 .unpack 0xAC 0x1234) := by decide
theorem test_decode_req06 : read .request [0x06, 0, 1, 0, 3] = .ok (.pduReq06 .unpack 1 3) := by decide
theorem test_decode_rsp06 : read .response [0x06, 0, 1, 0xFF, 0xFF]
    = .ok (.pduRsp06 .unpack 1 0xFFFF) := by decide
theorem test_decode_req0F : read .request [0x0F, 0, 0x13, 0, 0x0A, 1, 0x05]
    = .ok (.pduReq0F .unpack 19 10 [true, false, true, false, false, false, false, false]) := by
  decide
theorem test_decode_rsp0F : read .response [0x0F, 0, 0x13, 0, 0x0A] = .ok (.pduRsp0F .unpack 19 10) := by
  decide
theorem test_decode_req10 : read .request [0x10, 0, 0x0A, 0, 3, 6, 0, 1, 0, 2, 0, 3]
    = .ok (.pduReq10 .unpack 10 3 [1, 2, 3]) := by decide
theorem test_decode_rsp10 : read .response [0x10, 0, 0x0A, 0, 3] = .ok (.pduRsp10 .unpack 10 3) := by
  decide
theorem test_decode_req14 : read .request [0x14, 7, 6, 0, 4, 0, 1, 0, 2]
    = .ok (.pduReq14 .unpack [⟨6, 4, 1, 2⟩]) := by decide
theorem test_decode_rsp14 : read .response [0x14, 6, 5, 6, 0x0D, 0xFE, 0, 0x20]
    = .ok (.pduRsp14 .unpack [⟨6, [0x0DFE, 0x0020]⟩]) := by decide
theorem test_decode_req15 : read .request [0x15, 9, 6, 0, 4, 0, 7, 0, 1, 0x06, 0xAF]
    = .ok (.pduReq15 .unpack [⟨6, 4, 7, [0x06AF]⟩]) := by decide
theorem test_decode_rsp15 : read .response [0x15, 0] = .ok (.pduRsp15 .unpack []) := by decide
theorem test_decode_req16 : read .request [0x16, 0, 4, 0, 0xF2, 0, 0x25]
    = .ok (.pduReq16 .unpack 4 0xF2 0x25) := by decide
theorem test_decode_rsp16 : read .response [0x16, 0, 4, 0, 0xF2, 0, 0x25]
    = .ok (.pduRsp16 .unpack 4 0xF2 0x25) := by decide
theorem test_decode_req17 : read .request [0x17, 0, 3, 0, 6, 0, 0x0E, 0, 3, 2, 0, 0xFF]
    = .ok (.pduReq17 .unpack 3 6 0x0E 3 [0xFF]) := by decide
theorem test_decode_rsp17 : read .response [0x17, 2, 0, 0x2A] = .ok (.pduRsp17 .unpack [0x2A]) := by
  decide
theorem test_decode_req18 : read .request [0x18, 0x04, 0xDE] = .ok (.pduReq18 .unpack 0x04DE) := by
  decide
theorem test_decode_rsp18 : read .response [0x18, 0, 6, 0, 2, 0x01, 0xB8, 0x12, 0x84]
    = .ok (.pduRsp18 .unpack [0x01B8, 0x1284]) := by decide
theorem test_decode_rspExc : read .response [0xFF, 0x0B] = .ok (.pduRspExc .unpack 0x7F 0x0B) := by
  decide

/-- V-DEC, the malformed PDUs and the reserved codes. -/
theorem test_decode_malformed :
    read .request [0x03, 0, 0, 0] = .error .wrongLength
      ∧ read .request [0x03, 0, 0, 0, 1, 0] = .error .wrongLength
      ∧ read .response [0x03, 3, 0, 0xFB, 0] = .error .oddByteCount
      ∧ read .request [0x14, 6, 6, 0, 4, 0, 1, 0] = .error .raggedGroup
      ∧ read .response [0x14, 6, 4, 6, 0x0D, 0xFE, 0, 0x20] = .error .badSubLength
      ∧ read .response [0x18, 0, 6, 0, 3, 0x01, 0xB8, 0x12, 0x84] = .error .countMismatch
      ∧ read .request [0x83, 2] = .error .unsupportedCode
      ∧ read .request [] = .error .emptyPdu := by decide

/-- The numbering of the opcode table, and the fetch of a table word. -/
theorem test_table_words :
    decodeTableWord 32 0x00010010 = some .encodeRsp
      ∧ decodeTableWord 8 0x16 = some (.pduReq16 .unpack 0 0 0)
      ∧ decodeTableWord 8 0x07 = none := by decide

/-! ## One step per instruction -/

/-- The state after reset with one event to come. -/
def before (e : Event) : State := { State.reset with inputs := [e] }

/-- The state after reset with a command word to be written. -/
def issue (v : Word) : State := before (.busWrite .word 0x010 v)

/-- A part of the state that a step leaves. -/
def after {α : Type} (part : State → α) (s : State) : Option α :=
  match step s with
  | .next t => some (part t)
  | .fault _ => none
  | .refused _ => none

/-- A part of the state that an instruction leaves. -/
def done {α : Type} (part : State → α) (i : Instr) (s : State) : Option α :=
  match exec i s with
  | .next t => some (part t)
  | .fault _ => none
  | .refused _ => none

/-- The first entries of TXBUF, and TXLEN. -/
def packed (s : State) : List Byte × Nat := ((List.range s.txLen.toNat).map s.txbuf, s.txLen.toNat)

/-- The words of MSG at some indexes. -/
def words (ks : List Nat) (s : State) : List Nat := ks.map fun k => (s.msg k).toNat

/-- A descriptor in MSG: the header, the fixed fields, the elements. -/
def descriptor (fields els : List Word) : State := (State.reset.fillMsg 0 fields).fillMsg 8 els

/-- A held PDU. -/
def held (pdu : List Byte) : State :=
  { State.reset.fillRxbuf 0 pdu with rxLen := BitVec.ofNat 9 pdu.length, rxValid := true }

/-- A state in which the host can write TX.SEND: unit 1, the PDU `03 00 00 00 01`. -/
def ready (mode : Mode) : State :=
  { State.reset.fillTxbuf 0 [0x03, 0, 0, 0, 1] with mode := mode, txUnit := 1, txLen := 5, txTid := 1 }

/-- R340. -/
theorem test_nop : after (·.err) { issue 0x00000000 with err := .range } = some .ok := by decide
/-- R123: ERR = 1. -/
theorem test_illegal_word : after (·.err) (issue 0x00000005) = some .illegalCmd := by decide
/-- V-CHK: CRC.INIT after a FEED. -/
theorem test_crcInit : after (·.crcAcc) { issue 0x00000001 with crcAcc := 0x807E } = some 0xFFFF := by
  decide
/-- V-CHK: CRC.FEED 0x01 from reset. -/
theorem test_crcFeed : after (·.crcAcc) (issue 0x00000102) = some 0x807E := by decide
/-- R255, R244: the second byte of E2. -/
theorem test_crcFeed_second : after (·.crcAcc) { issue 0x00000302 with crcAcc := 0x807E }
    = some 0x2140 := by decide
theorem test_lrcInit : after (·.lrcSum) { issue 0x00000003 with lrcSum := 5 } = some 0 := by decide
/-- V-CHK: FEED.LRC 80,80 wraps. -/
theorem test_lrcFeed_wraps : after (·.lrcSum) { issue 0x00008004 with lrcSum := 0x80 } = some 0 := by
  decide
/-- V-CHK: the LRC register after LRC.FEED 0xFF. -/
theorem test_lrcFeed_register : after (readRegister .lrc) (issue 0x0000FF04) = some 0x0000FF01 := by
  decide
/-- V-ENC, E1. -/
theorem test_encodeReq : done packed .encodeReq (descriptor [0x10, 10, 3] [1, 2, 3])
    = some ([0x10, 0, 0x0A, 0, 3, 6, 0, 1, 0, 2, 0, 3], 12) := by decide
/-- V-ENC: header bits are judged before the function code. -/
theorem test_encodeReq_range : done (·.err) .encodeReq (descriptor [0x107] []) = some .range := by
  decide
/-- V-ENC: ten coils. -/
theorem test_encodeRsp : done packed .encodeRsp (descriptor [0x01, 10] [1, 0, 1, 1, 0, 0, 1, 1, 1, 0])
    = some ([0x01, 2, 0xCD, 0x01], 4) := by decide
/-- V-ENC: an element that is no bit. -/
theorem test_encodeRsp_range : done (·.err) .encodeRsp (descriptor [0x01, 3] [1, 2, 0])
    = some .range := by decide
/-- V-DEC, R165: a register count that disagrees is delivered as it is. -/
theorem test_decodeReq :
    done (words [0, 1, 2, 3, 8, 9]) .decodeReq (held [0x10, 0, 0x0A, 0, 3, 4, 0, 1, 0, 2])
      = some [0x10, 10, 3, 4, 1, 2] := by decide
/-- V-DEC: NO_FRAME. -/
theorem test_decodeReq_noFrame : done (·.err) .decodeReq State.reset = some .noFrame := by decide
/-- V-DEC: a sub-response. -/
theorem test_decodeRsp :
    done (words [0, 1, 8, 9, 10, 11]) .decodeRsp (held [0x14, 6, 5, 6, 0x0D, 0xFE, 0, 0x20])
      = some [0x14, 1, 2, 6, 0x0DFE, 0x0020] := by decide
/-- V-DEC: an odd byte count. -/
theorem test_decodeRsp_malformed : done (·.err) .decodeRsp (held [0x03, 3, 0, 0xFB, 0])
    = some .malformed := by decide
/-- E9: the STREAM frame. -/
theorem test_txSend_stream : done (fun t => (t.lineOut.map Prod.snd, t.txDone)) .txSend (ready .stream)
    = some ([0, 1, 0, 0, 0, 6, 1, 3, 0, 0, 0, 1], true) := by decide
/-- R299: a transmission in progress. -/
theorem test_txSend_busy : done (·.err) .txSend { ready .rtu with txs := .wait [] 0 } = some .busy := by
  decide
/-- R341: in RTU mode the receiver starts in ERROR. -/
theorem test_rxEnable_rtu : after (·.rxs) (issue 0x00000030) = some .error := by decide
theorem test_rxEnable_ascii : after (·.rxs) { issue 0x00000030 with mode := .ascii } = some .idle := by
  decide
/-- R343: a partial frame is dropped, nothing is counted. -/
theorem test_rxDisable :
    after (fun t => (t.rxs, t.rxAsm, t.cntFrameErr)) { issue 0x00000031 with rxs := .receiving, rxAsm := [1] }
      = some (.disabled, [], 0) := by decide
theorem test_rxRelease : after (·.rxValid) { issue 0x00000032 with rxValid := true } = some false := by
  decide
/-- R344: the counters go, `t` and the RAMs stay. -/
theorem test_resetSoft :
    after (fun t => (t.cntRxOk, t.t, t.tLine, t.mem))
      { issue 0x000000FF with cntRxOk := 7, t := 5, mem := [(0x1000, 9)] }
      = some (0, 5, 5, [(0x1000, 9)]) := by decide

/-- V-ENC and V-DEC, the PDU rows: the bytes stored. -/
theorem test_pack_fixed :
    [Instr.pduReq01 .pack 0x13 0x0A, .pduReq02 .pack 0 0, .pduReq03 .pack 0 1, .pduReq04 .pack 0 1,
      .pduReq05 .pack 0xAC 0xFF00, .pduRsp05 .pack 0xAC 0x1234, .pduReq06 .pack 1 3,
      .pduRsp06 .pack 1 0xFFFF, .pduRsp0F .pack 0x13 0x0A, .pduRsp10 .pack 10 3, .pduReq18 .pack 0x04DE,
      .pduRspExc .pack 3 2].map (fun i => done packed i State.reset)
      = [([0x01, 0, 0x13, 0, 0x0A], 5), ([0x02, 0, 0, 0, 0], 5), ([0x03, 0, 0, 0, 1], 5),
          ([0x04, 0, 0, 0, 1], 5), ([0x05, 0, 0xAC, 0xFF, 0], 5), ([0x05, 0, 0xAC, 0x12, 0x34], 5),
          ([0x06, 0, 1, 0, 3], 5), ([0x06, 0, 1, 0xFF, 0xFF], 5), ([0x0F, 0, 0x13, 0, 0x0A], 5),
          ([0x10, 0, 0x0A, 0, 3], 5), ([0x18, 0x04, 0xDE], 3), ([0x83, 2], 2)].map some := by decide

theorem test_pack_lists :
    [Instr.pduRsp03 .pack [251], .pduRsp04 .pack [], .pduRsp17 .pack [0x2A],
      .pduReq10 .pack 10 3 [1, 2, 3], .pduReq17 .pack 3 6 0x0E 3 [0xFF],
      .pduRsp18 .pack [0x01B8, 0x1284]].map (fun i => done packed i State.reset)
      = [([0x03, 2, 0, 0xFB], 4), ([0x04, 0], 2), ([0x17, 2, 0, 0x2A], 4),
          ([0x10, 0, 0x0A, 0, 3, 6, 0, 1, 0, 2, 0, 3], 12),
          ([0x17, 0, 3, 0, 6, 0, 0x0E, 0, 3, 2, 0, 0xFF], 12),
          ([0x18, 0, 6, 0, 2, 0x01, 0xB8, 0x12, 0x84], 9)].map some := by decide

theorem test_pack_files :
    [Instr.pduReq14 .pack [⟨6, 4, 1, 2⟩], .pduRsp14 .pack [⟨6, []⟩, ⟨6, [7]⟩],
      .pduReq15 .pack [⟨6, 4, 7, [0x06AF]⟩], .pduRsp15 .pack [], .pduReq16 .pack 4 0xF2 0x25,
      .pduRsp16 .pack 4 0xF2 0x25].map (fun i => done packed i State.reset)
      = [([0x14, 7, 6, 0, 4, 0, 1, 0, 2], 9), ([0x14, 6, 1, 6, 3, 6, 0, 7], 8),
          ([0x15, 9, 6, 0, 4, 0, 7, 0, 1, 0x06, 0xAF], 11), ([0x15, 0], 2),
          ([0x16, 0, 4, 0, 0xF2, 0, 0x25], 7), ([0x16, 0, 4, 0, 0xF2, 0, 0x25], 7)].map some := by decide

theorem test_pack_coils :
    done packed (.pduRsp01 .pack [true, false, true, true, false, false, true, true]) State.reset
        = some ([0x01, 1, 0xCD], 3)
      ∧ done packed (.pduRsp02 .pack []) State.reset = some ([0x02, 0], 2)
      ∧ done packed (.pduReq0F .pack 19 3 [true, false, true, false, false, false, false, false])
          State.reset = some ([0x0F, 0, 0x13, 0, 3, 1, 0x05], 7) := by decide

/-- V-DEC: the words stored. -/
theorem test_unpack_rows :
    done (words [0, 1, 2]) (.pduReq03 .unpack 0 1) State.reset = some [3, 0, 1]
      ∧ done (words [0, 1, 8]) (.pduRsp03 .unpack [251]) State.reset = some [3, 1, 251]
      ∧ done (words [0, 1, 8, 9, 10, 11]) (.pduReq14 .unpack [⟨6, 4, 1, 2⟩]) State.reset
          = some [0x14, 1, 6, 4, 1, 2]
      ∧ done (words [1, 8, 9, 10, 11, 12]) (.pduRsp15 .unpack [⟨6, 4, 7, [0x06AF]⟩]) State.reset
          = some [1, 6, 4, 7, 1, 0x06AF]
      ∧ done (words [1, 2, 3, 4, 5, 8]) (.pduReq17 .unpack 3 6 14 1 [0xFF]) State.reset
          = some [3, 6, 14, 1, 2, 0xFF]
      ∧ done (words [0, 1]) (.pduRspExc .unpack 3 2) State.reset = some [0x83, 2] := by decide

/-! ## Events other than commands -/

/-- R33: MODE 3 and CHARBITS 13 keep their fields, each judged alone. -/
theorem test_cfg_fields : after (fun t => (t.mode, t.charBits)) (before (.busWrite .word 0x004 0xD1))
    = some (.ascii, 11) := by decide
/-- R53. -/
theorem test_reserved_read : after (·.hostResp) (before (.busRead .word 0x054)) = some (.data 0) := by
  decide
/-- R92. -/
theorem test_outside_aperture : after (·.hostResp) (before (.busWrite .word 0x8000 1)) = some .noResponse := by
  decide
/-- R92. -/
theorem test_bus_error : after (·.hostResp) (before (.busRead .halfword 0x000)) = some .busError := by
  decide
/-- A5: an odd digit count is F6 at the LF. -/
theorem test_ascii_odd_digits :
    after (fun t => (t.rxs, t.cntFrameErr, t.rxErr))
      { before (.rxChar 0x0A) with mode := .ascii, rxs := .gotCr, rxAsm := [1, 3], rxNib := some 0 }
      = some (.idle, 1, true) := by decide
/-- A2: a wrong LRC is F8 at the LF. -/
theorem test_ascii_lrc_error :
    after (fun t => (t.cntCrcErr, t.rxValid))
      { before (.rxChar 0x0A) with mode := .ascii, rxs := .gotCr, rxAsm := [1, 3, 0, 0, 0, 1, 0xFC] }
      = some (1, false) := by decide
/-- T2 and T3: the last gap that continues a frame, and the first that breaks it. -/
theorem test_rtu_gap :
    after (·.rxAsm) { before (.rxChar 3) with rxs := .receiving, rxAsm := [1], t := 12864, tRxLast := 10000 }
        = some [1, 3]
      ∧ after (fun t => (t.rxs, t.cntFrameErr))
        { before (.rxChar 3) with rxs := .receiving, rxAsm := [1], t := 12865, tRxLast := 10000 }
        = some (.error, 1) := by decide
set_option maxRecDepth 4000 in
/-- T8: `01 07 41 E2` is delivered 5157 microseconds after its last character, and no earlier. -/
theorem test_rtu_frame_end :
    after (fun t => (t.rxs, t.rxValid)) { before .tick with
        rxs := .receiving, rxAsm := [0x01, 0x07, 0x41, 0xE2], t := 18593, tRxLast := 13438 }
        = some (.receiving, false)
      ∧ after (fun t => (t.rxs, t.rxValid, t.rxUnit, t.rxLen, t.rxbuf 0)) { before .tick with
        rxs := .receiving, rxAsm := [0x01, 0x07, 0x41, 0xE2], t := 18594, tRxLast := 13438 }
        = some (.idle, true, 1, 1, 0x07) := by decide
/-- R296: a short read. -/
theorem test_stream_end :
    after (fun t => (t.rxtErr, t.rxs))
      { before .rxEos with mode := .stream, rxs := .receiving, rxAsm := [0, 1] }
      = some (true, .idle) := by decide
/-- R152: FILL is a write per byte and a write of TXLEN. -/
theorem test_assembler_fill :
    (assembleLine "FILL TXBUF, 0x06, 7 ; two bytes".toList).map (fun l => l.2.events)
      = some [.busWrite .word 0x1000 6, .busWrite .word 0x1004 7, .busWrite .word 0x028 2] := by decide

/-! ## Witnesses: a state and operands that meet the hypotheses of each statement -/

theorem witness_DecodeEncodeRoundTrip :
    WellFormed (.pduRsp01 .pack (List.replicate 2008 true)) = true := by
  simp only [WellFormed, coilsOk, wholeBytes, List.length_replicate]
  decide

theorem witness_CommandWordsHaveOneEncoding :
    decode (.command 0x0000FF04) = .ok (.lrcFeed 0xFF) := by decide

theorem witness_PdusHaveOneEncoding :
    decode (.pdu .unpack .response [0x18, 0, 2, 0, 0]) = .ok (.pduRsp18 .unpack [])
      ∧ [(0x18 : Byte), 0, 2, 0, 0].length ≤ 253 := by decide

theorem witness_CoilBitsPackByPosition :
    15 < 8 * (([true, false, true, true, false, false, true, true, true].length + 7) / 8)
      ∧ 15 < 8 * [(0xCD : Byte), 1].length := by decide

/-- One illegal word for each of the four grounds, and one legal word. -/
theorem witness_IllegalWordOnlySetsErr :
    (∀ v ∈ [(0x00000005 : Word), 0x00020000, 0x00000110, 0x00010020],
      v.toNat % 256 ∉ [0x00, 0x01, 0x02, 0x03, 0x04, 0x10, 0x11, 0x20, 0x30, 0x31, 0x32, 0xFF]
        ∨ v.toNat / 131072 ≠ 0
        ∨ (v.toNat / 256 % 256 ≠ 0 ∧ v.toNat % 256 ∉ [0x02, 0x04])
        ∨ (v.toNat / 65536 % 2 ≠ 0 ∧ v.toNat % 256 ∉ [0x10, 0x11]))
      ∧ writesNext (issue 5) 0x010 5 []
      ∧ ¬ ((0x0000FF02 : Word).toNat % 256
            ∉ [0x00, 0x01, 0x02, 0x03, 0x04, 0x10, 0x11, 0x20, 0x30, 0x31, 0x32, 0xFF]
        ∨ (0x0000FF02 : Word).toNat / 131072 ≠ 0
        ∨ ((0x0000FF02 : Word).toNat / 256 % 256 ≠ 0
          ∧ (0x0000FF02 : Word).toNat % 256 ∉ [0x02, 0x04])
        ∨ ((0x0000FF02 : Word).toNat / 65536 % 2 ≠ 0
          ∧ (0x0000FF02 : Word).toNat % 256 ∉ [0x10, 0x11])) :=
  ⟨by simp, rfl, by simp⟩

theorem witness_StepRunsDecodedCommand :
    writesNext (issue 0x20) 0x010 0x20 [] ∧ decode (.command 0x20) = .ok .txSend :=
  ⟨rfl, by decide⟩

set_option maxRecDepth 4000 in
/-- No frame, a PDU that decodes, one of an unsupported code, an empty one, and one a byte too long. -/
theorem witness_DecodeRunsDecodedPdu :
    State.reset.rxValid = false ∧ (held [0x83, 2]).rxValid = true
      ∧ decode (.pdu .unpack .response (held [0x83, 2]).rxPdu) = .ok (.pduRspExc .unpack 3 2)
      ∧ decode (.pdu .unpack .request (held [0x83, 2]).rxPdu) = .error .unsupportedCode
      ∧ (held []).rxValid = true ∧ (held []).rxPdu = []
      ∧ (held [0x83, 2, 0]).rxPdu = 0x83 :: [2, 0] ∧ layoutOf .response 0x83 = some .exception
      ∧ [(2 : Byte), 0].length ≠ payloadLength .exception [2, 0] := by decide

theorem witness_EncodeRunsPackedPdu :
    readDescriptor .request (descriptor [0x06, 1, 0x10000] []).msg = .error .range
      ∧ readDescriptor .request (descriptor [0x06, 1, 3] []).msg = .ok ⟨0x06, .pair 1 3⟩ := by decide

theorem witness_EveryEventInsideCompletes :
    (∀ size off, nextEvent (before (.busRead .word 0x7FFF)) = .busRead size off → off < 0x8000)
      ∧ ∀ size off v, nextEvent (before (.busRead .word 0x7FFF)) = .busWrite size off v →
          off < 0x8000 := by
  refine ⟨fun size off h => ?_, fun size off v h => ?_⟩
  · cases h; decide
  · cases h

theorem witness_ResetTableValues : (before .reset).inputs = .reset :: [] := rfl

theorem witness_ReadChangesNothing :
    legalOffset 0x7FFC ∧ (before (.busRead .word 0x7FFC)).inputs = .busRead .word 0x7FFC :: [] :=
  ⟨⟨rfl, by decide⟩, rfl⟩

/-- The last TXBUF, RXBUF and MSG entries, which `RegisterReadValues` reads. -/
theorem witness_RegisterReadValues : 255 < 256 ∧ 2047 < 2048 := by decide

theorem witness_BusErrorChangesNothing :
    (0x7FFF < 0x8000 ∧ (0x7FFF % 4 ≠ 0)
        ∧ (before (.busRead .word 0x7FFF)).inputs = .busRead .word 0x7FFF :: [])
      ∧ (0 < 0x8000 ∧ AccessSize.byte ≠ .word
        ∧ (before (.busWrite .byte 0 1)).inputs = .busWrite .byte 0 1 :: [])
      ∧ (0x7FFC < 0x8000 ∧ 0x7FFC % 4 = 0
        ∧ (before (.busWrite .word 0x7FFC 1)).inputs = .busWrite .word 0x7FFC 1 :: []) := by decide

theorem witness_OutsideApertureChangesNothing :
    0x8000 ≤ 0x8000 ∧ (before (.busRead .word 0x8000)).inputs = .busRead .word 0x8000 :: []
      ∧ (before (.busWrite .byte 0x8000 0)).inputs = .busWrite .byte 0x8000 0 :: [] := by decide

/-- Both ends of the three reserved ranges. -/
theorem witness_ReservedOffsetsReadZero :
    ∀ off ∈ [0x054, 0x0FFC, 0x1800, 0x3FFC, 0x6000, 0x7FFC],
      off % 4 = 0
        ∧ ((0x054 ≤ off ∧ off ≤ 0x0FFC) ∨ (0x1800 ≤ off ∧ off ≤ 0x3FFC)
          ∨ (0x6000 ≤ off ∧ off ≤ 0x7FFC))
        ∧ (before (.busRead .word off)).inputs = .busRead .word off :: []
        ∧ (before (.busWrite .word off 1)).inputs = .busWrite .word off 1 :: [] := by decide

/-- Locked by the receiver, locked by the transmitter, unlocked, and a register that is not lockable. -/
theorem witness_LockedRegisterWrites :
    (∀ off ∈ [0x004, 0x01C, 0x020],
      writesNext { before (.busWrite .word off 1) with rxs := .idle } off 1 []
        ∧ writesNext { before (.busWrite .word off 1) with txs := .wait [1] 0 } off 1 []
        ∧ writesNext (before (.busWrite .word off 1)) off 1 [])
      ∧ RxState.idle ≠ .disabled ∧ TxState.wait [1] 0 ≠ .idle
      ∧ State.reset.rxs = .disabled ∧ State.reset.txs = .idle
      ∧ ∃ t, step (before (.busWrite .word 0x024 1)) = .next t :=
  ⟨fun _ _ => ⟨rfl, rfl, rfl⟩, by decide, by decide, rfl, rfl, _, rfl⟩

theorem witness_ConfigurationWrites :
    ∀ off ∈ [0x004, 0x01C, 0x020],
      (before (.busWrite .word off 0xB1)).rxs = .disabled
        ∧ (before (.busWrite .word off 0xB1)).txs = .idle
        ∧ writesNext (before (.busWrite .word off 0xB1)) off 0xB1 [] :=
  fun _ _ => ⟨rfl, rfl, rfl⟩

theorem witness_StatusWriteClearsOnlyOnes :
    writesNext (before (.busWrite .word 0x008 0x3C)) 0x008 0x3C [] := rfl

theorem witness_PlainRegisterWrites :
    ∀ off ∈ [0x00C, 0x024, 0x028, 0x02C, 0x044, 0x048, 0x04C, 0x050, 0x000, 0x014, 0x018, 0x030,
        0x034, 0x038, 0x03C, 0x040],
      writesNext (before (.busWrite .word off 0xFFFFFFFF)) off 0xFFFFFFFF [] := fun _ _ => rfl

theorem witness_RamWritesReadBack :
    (255 < 256 ∧ writesNext (before (.busWrite .word (0x1000 + 4 * 255) 0x1FF)) (0x1000 + 4 * 255) 0x1FF [])
      ∧ (255 < 256
        ∧ writesNext (before (.busWrite .word (0x1400 + 4 * 255) 1)) (0x1400 + 4 * 255) 1 [])
      ∧ (2047 < 2048
        ∧ writesNext (before (.busWrite .word (0x4000 + 4 * 2047) 1)) (0x4000 + 4 * 2047) 1 []) :=
  ⟨⟨by decide, rfl⟩, ⟨by decide, rfl⟩, by decide, rfl⟩

theorem witness_FedBytesGiveChecksums :
    ({ State.reset with inputs := [.busWrite .word 0x010 0x1, .busWrite .word 0x010 0x0000FF02] }).inputs
        = .busWrite .word 0x010 0x00000001
          :: ([(0xFF : Byte)].map fun b =>
            Event.busWrite .word 0x010 (BitVec.ofNat 32 (2 + 256 * b.toNat))) ++ []
      ∧ ({ State.reset with inputs := [.busWrite .word 0x010 0x3, .busWrite .word 0x010 0x0000FF04] }).inputs
        = .busWrite .word 0x010 0x00000003
          :: ([(0xFF : Byte)].map fun b =>
            Event.busWrite .word 0x010 (BitVec.ofNat 32 (4 + 256 * b.toNat))) ++ [] := by decide

theorem witness_CrcResidueIsZero : 2 ≤ [(0xFF : Byte), 0xFF].length := by decide

theorem witness_LrcMakesTheSumZero : 1 ≤ [(0x00 : Byte)].length := by decide

theorem witness_AccumulatorsChangeOnlyByCommand :
    (∃ t, step (issue 0) = .next t) ∧ nextEvent (issue 0) ≠ .reset ∧ ¬ issuesSoftReset (issue 0)
      ∧ ∀ v, nextEvent (issue 0) = .busWrite .word 0x010 v →
          (decode (.command v) ≠ .ok .crcInit ∧ ∀ b, decode (.command v) ≠ .ok (.crcFeed b))
            ∧ decode (.command v) ≠ .ok .lrcInit ∧ ∀ b, decode (.command v) ≠ .ok (.lrcFeed b) := by
  refine ⟨⟨_, rfl⟩, by decide, by unfold issuesSoftReset; decide, fun v h => ?_⟩
  cases h
  have hd : decode (.command 0) = .ok .nop := by decide
  rw [hd]
  simp

theorem witness_ControlCommandEffects :
    (issue 0x30).rxs = .disabled ∧ (issue 0x30).mode = .rtu
      ∧ { issue 0x30 with mode := .stream }.mode ≠ .rtu ∧ { issue 0x30 with rxs := .error }.rxs ≠ .disabled := by
  decide

theorem witness_EncodeStoresThePdu :
    readDescriptor .response (descriptor [0x03, 1] [251]).msg = .ok ⟨0x03, .registers [251]⟩ := by decide

theorem witness_DecodeStoresTheDescriptor :
    (held [0x03, 2, 0, 0xFB]).rxValid = true
      ∧ unpackPdu .response (held [0x03, 2, 0, 0xFB]).rxPdu = .ok ⟨0x03, .registers [251]⟩ := by decide

/-- The longest list of each row. -/
theorem witness_RegisterListRows :
    (List.replicate 125 (0 : Half)).length ≤ 125 ∧ (List.replicate 123 (0 : Half)).length ≤ 123
      ∧ (List.replicate 121 (0 : Half)).length ≤ 121 ∧ (List.replicate 124 (0 : Half)).length ≤ 124 := by
  simp only [List.length_replicate]
  decide

theorem witness_CoilRows :
    ((List.replicate 2008 true).length % 8 = 0 ∧ (List.replicate 2008 true).length / 8 ≤ 251)
      ∧ (List.replicate 1976 true).length % 8 = 0 ∧ (List.replicate 1976 true).length / 8 ≤ 247 := by
  simp only [List.length_replicate]
  decide

theorem witness_FileRows :
    WellFormed (.pduReq14 .pack (List.replicate 35 ⟨6, 4, 1, 2⟩)) = true
      ∧ WellFormed (.pduRsp14 .pack [⟨6, List.replicate 124 0⟩]) = true
      ∧ WellFormed (.pduReq15 .pack [⟨6, 4, 7, List.replicate 122 0⟩]) = true := by
  simp only [WellFormed, fileWritesOk, fileDataSize, fileWriteSize, List.length_replicate]
  decide

/-- A descriptor for each case of the statement. -/
theorem witness_DescriptorRoundTrip :
    readDescriptor .response (descriptor [0x01, 1] [1]).msg
        = .ok ⟨0x01, .coils [true, false, false, false, false, false, false, false]⟩
      ∧ readDescriptor .request (descriptor [0x0F, 5, 1] [1]).msg
        = .ok ⟨0x0F, .writeCoils 5 1 [true, false, false, false, false, false, false, false]⟩
      ∧ readDescriptor .request (descriptor [0x10, 5, 1] [9]).msg = .ok ⟨0x10, .writeRegs 5 1 [9]⟩
      ∧ readDescriptor .request (descriptor [0x17, 5, 1, 6, 1] [9]).msg
        = .ok ⟨0x17, .readWrite 5 1 6 1 [9]⟩
      ∧ readDescriptor .response (descriptor [0x83, 2] []).msg = .ok ⟨0x83, .exception 2⟩ := by decide

theorem witness_PayloadLengthMatchesTable :
    unpackPayload .registers [2, 0, 0xFB] = .ok (.registers [251])
      ∧ readDescriptor .request (descriptor [0x18, 0x04DE] []).msg = .ok ⟨0x18, .fifoPointer 0x04DE⟩ := by
  decide

theorem witness_ReservedFunctionCodes :
    reservedCode .request 0x80 ∧ reservedCode .response 0x7F
      ∧ (descriptor [0x7F] []).msg 0 = (0x7F : Byte).setWidth 32
      ∧ (held [0x7F]).rxValid = true ∧ (held [0x7F]).rxPdu.head? = some 0x7F
      ∧ 0x80 ≤ (0x80 : Byte).toNat := by
  simp only [reservedCode]
  decide

/-- A descriptor of each layout just beyond a limit, and two that fit. -/
theorem witness_EncodeRejectsWideFields :
    0x100 ≤ ((descriptor [0x100] []).msg 0).toNat
      ∧ (layoutOf .request 0x06 = some .pair ∧ PackFails (descriptor [0x06, 0x10000] []).msg .pair)
      ∧ (layoutOf .response 0x01 = some .coils ∧ PackFails (descriptor [0x01, 2009] []).msg .coils)
      ∧ (layoutOf .response 0x03 = some .registers
        ∧ PackFails (descriptor [0x03, 126] []).msg .registers)
      ∧ (layoutOf .request 0x0F = some .writeCoils
        ∧ PackFails (descriptor [0x0F, 0, 1977] []).msg .writeCoils)
      ∧ (layoutOf .request 0x10 = some .writeRegs
        ∧ PackFails (descriptor [0x10, 0, 124] []).msg .writeRegs)
      ∧ (layoutOf .request 0x14 = some .fileRefs ∧ PackFails (descriptor [0x14, 36] []).msg .fileRefs)
      ∧ (layoutOf .response 0x14 = some .fileData
        ∧ PackFails (descriptor [0x14, 1] [125, 0x100]).msg .fileData)
      ∧ (layoutOf .request 0x15 = some .fileWrites
        ∧ PackFails (descriptor [0x15, 1] [6, 0, 0x10000, 0]).msg .fileWrites)
      ∧ (layoutOf .request 0x16 = some .maskWrite
        ∧ PackFails (descriptor [0x16, 0, 0, 0x10000] []).msg .maskWrite)
      ∧ (layoutOf .request 0x17 = some .readWrite
        ∧ PackFails (descriptor [0x17, 0, 0, 0, 122] []).msg .readWrite)
      ∧ (layoutOf .request 0x18 = some .fifoPointer
        ∧ PackFails (descriptor [0x18, 0x10000] []).msg .fifoPointer)
      ∧ (layoutOf .response 0x18 = some .fifoValues
        ∧ PackFails (descriptor [0x18, 125] []).msg .fifoValues)
      ∧ (layoutOf .response 0x83 = some .exception
        ∧ PackFails (descriptor [0x83, 0x100] []).msg .exception)
      ∧ (descriptor [0x01, 2] [1, 0]).msg 0 = (0x01 : Byte).setWidth 32
      ∧ ¬ PackFails (descriptor [0x01, 2] [1, 0]).msg .coils
      ∧ ¬ PackFails (descriptor [0x15, 1] [6, 4, 7, 1, 0xFFFF]).msg .fileWrites := by
  simp only [PackFails]
  repeat' apply And.intro
  all_goals decide

/-- Coil bits with their padding, a register list, and file sub-requests. -/
theorem witness_FittingDescriptorPacks :
    (WellFormed (.pduRsp01 .pack [true, false, true, false, false, false, false, false]) = true
        ∧ encode (.pduRsp01 .pack [true, false, true, false, false, false, false, false])
          = .pdu .pack .response [0x01, 1, 0x05]
        ∧ unpackPdu .response [0x01, 1, 0x05]
          = .ok ⟨0x01, .coils [true, false, true, false, false, false, false, false]⟩
        ∧ Describes (descriptor [0x01, 3] [1, 0, 1]).msg
          ⟨0x01, .coils [true, false, true, false, false, false, false, false]⟩)
      ∧ (WellFormed (.pduReq10 .pack 5 2 [9, 0xFFFF]) = true
        ∧ encode (.pduReq10 .pack 5 2 [9, 0xFFFF])
          = .pdu .pack .request [0x10, 0, 5, 0, 2, 4, 0, 9, 0xFF, 0xFF]
        ∧ unpackPdu .request [0x10, 0, 5, 0, 2, 4, 0, 9, 0xFF, 0xFF]
          = .ok ⟨0x10, .writeRegs 5 2 [9, 0xFFFF]⟩
        ∧ Describes (descriptor [0x10, 5, 2] [9, 0xFFFF]).msg ⟨0x10, .writeRegs 5 2 [9, 0xFFFF]⟩)
      ∧ WellFormed (.pduReq15 .pack [⟨6, 4, 7, [0x06AF]⟩]) = true
      ∧ encode (.pduReq15 .pack [⟨6, 4, 7, [0x06AF]⟩])
        = .pdu .pack .request [0x15, 9, 6, 0, 4, 0, 7, 0, 1, 0x06, 0xAF]
      ∧ unpackPdu .request [0x15, 9, 6, 0, 4, 0, 7, 0, 1, 0x06, 0xAF]
        = .ok ⟨0x15, .fileWrites [⟨6, 4, 7, [0x06AF]⟩]⟩
      ∧ Describes (descriptor [0x15, 1] [6, 4, 7, 1, 0x06AF]).msg
        ⟨0x15, .fileWrites [⟨6, 4, 7, [0x06AF]⟩]⟩ := by
  simp only [Describes, elementsAre_iff]
  refine ⟨⟨by decide, by decide, by decide, by decide, by decide, fun k b h => ?_⟩, by decide, by decide,
    by decide, by decide, by decide⟩
  match k with
  | 0 | 1 | 2 | 3 | 4 | 5 | 6 | 7 => revert b; decide
  | k + 8 => cases h

theorem ready_registers (mode : Mode) : RegisterInv (ready mode) :=
  ⟨⟨show 7 ≤ Config.charBitsReset.toNat by decide, show Config.charBitsReset.toNat ≤ 12 by decide⟩,
    show Config.baudReset ≠ 0 by decide, show (0 : BitVec 6) &&& ieMask = 0 by decide, Nat.zero_le _, fun h => by cases h⟩

/-- Busy, a length out of range at both ends, STREAM, and RTU with and without enough silence. -/
theorem witness_TxSendLatchesTheFrame :
    { ready .rtu with txs := .wait [] 0 }.txs ≠ .idle
      ∧ ({ ready .rtu with txLen := 0 }.txs = .idle ∧ { ready .rtu with txLen := 0 }.txLen.toNat < 1)
      ∧ 253 < { ready .rtu with txLen := 254 }.txLen.toNat
      ∧ ((ready .stream).txs = .idle ∧ 1 ≤ (ready .stream).txLen.toNat
        ∧ (ready .stream).txLen.toNat ≤ 253 ∧ (ready .stream).mode = .stream)
      ∧ (ready .rtu).mode ≠ .stream ∧ RegisterInv (ready .rtu)
      ∧ ¬ ((ready .rtu).txDly.toNat ≤ (ready .rtu).t - (ready .rtu).tLine)
      ∧ (2000 ≤ 4011 - 0 ∧ 7 * (1000000 * 11) ≤ 2 * (4011 - 0) * 9600)
      ∧ ¬ 7 * (1000000 * 11) ≤ 2 * (4010 - 0) * 9600 :=
  ⟨by decide, by decide, by decide, by decide, by decide, ready_registers _, by decide, by decide,
    by decide⟩

theorem witness_FrameLayouts :
    1 ≤ (ready .rtu).txLen.toNat ∧ { ready .rtu with txLen := 253 }.txLen.toNat ≤ 253 := by decide

theorem witness_TickStartsWaitingTransmission :
    RegisterInv { ready .rtu with txs := .wait [1, 2] 0, t := 4010, inputs := [.tick] }
      ∧ { ready .rtu with txs := .wait [1, 2] 0, t := 4010, inputs := [.tick] }.txs = .wait (1 :: [2]) 0
      ∧ { ready .rtu with txs := .wait [1, 2] 0, t := 4010, inputs := [.tick] }.inputs = .tick :: [] :=
  ⟨ready_registers .rtu, rfl, rfl⟩

theorem witness_TransmissionRunsToItsEnd :
    RegisterInv { ready .rtu with txs := .send [1] 0, inputs := List.replicate 1146 .tick }
      ∧ [(1 : Byte)] ≠ [] ∧ (1 * (1000000 * 11) + 9600 - 1) / 9600 = 1146
      ∧ { ready .rtu with txs := .send [1] 0, inputs := List.replicate 1146 .tick }.inputs
        = List.replicate 1146 .tick ++ [] :=
  ⟨ready_registers .rtu, by decide, by decide, (List.append_nil _).symm⟩

/-- E10: the last and the first value of each class. -/
theorem witness_GapClassesAreExclusive :
    7 ≤ State.reset.charBits.toNat ∧ State.reset.gapOk 2864 = true ∧ State.reset.gapErr 2865 = true
      ∧ State.reset.gapErr 5156 = true ∧ State.reset.gapEof 5157 = true := by decide

/-- A state in the middle of an RTU frame. -/
def midRtu (asm : List Byte) (d : Nat) : State :=
  { before (.rxChar 3) with rxs := .receiving, rxAsm := asm, t := 10000 + d, tRxLast := 10000 }

theorem midRtu_registers (asm : List Byte) (d : Nat) : RegisterInv (midRtu asm d) :=
  ready_registers .rtu

theorem witness_RtuReceiveCases :
    RegisterInv (midRtu [1] 0) ∧ (midRtu [1] 0).mode = .rtu ∧ (midRtu [1] 0).inputs = .rxChar 3 :: []
      ∧ (before (.rxChar 3)).rxs = .disabled ∧ { before (.rxChar 3) with rxs := .idle }.rxs = .idle
      ∧ (midRtu [1] 0).rxs = .receiving ∧ { midRtu [1] 0 with rxs := .error }.rxs = .error
      ∧ 2 * ((midRtu [1] 2864).t - (midRtu [1] 2864).tRxLast) * 9600 ≤ 5 * (1000000 * 11)
      ∧ (List.replicate 255 (1 : Byte)).length ≠ 256 ∧ (List.replicate 256 (1 : Byte)).length = 256
      ∧ 5 * (1000000 * 11) < 2 * ((midRtu [1] 2865).t - (midRtu [1] 2865).tRxLast) * 9600
      ∧ 2 * ((midRtu [1] 5156).t - (midRtu [1] 5156).tRxLast) * 9600 < 9 * (1000000 * 11)
      ∧ 9 * (1000000 * 11) ≤ 2 * ((midRtu [1] 5157).t - (midRtu [1] 5157).tRxLast) * 9600 := by
  refine ⟨midRtu_registers _ _, ?_⟩
  simp only [List.length_replicate]
  decide

set_option maxRecDepth 4000 in
/-- Before the end, then a short frame, a wrong CRC, and a good frame with and without one held. -/
theorem witness_RtuFrameCompletesAfterSilence :
    { midRtu [1] 5155 with inputs := [.tick] }.mode = .rtu
      ∧ { midRtu [1] 5155 with inputs := [.tick] }.rxs = .receiving
      ∧ [(1 : Byte)].length ≤ 256 ∧ (List.replicate 256 (1 : Byte)).length ≤ 256
      ∧ { midRtu [1] 5155 with inputs := [.tick] }.inputs = .tick :: []
      ∧ 2 * (15155 + 1 - 10000) * 9600 < 9 * (1000000 * 11)
      ∧ 9 * (1000000 * 11) ≤ 2 * (15156 + 1 - 10000) * 9600
      ∧ [(1 : Byte), 2, 3].length < 4
      ∧ crcOk [0x01, 0x07, 0x41, 0xE3] = false ∧ crcOk [0x01, 0x07, 0x41, 0xE2] = true
      ∧ 4 ≤ [(0x01 : Byte), 0x07, 0x41, 0xE2].length
      ∧ { midRtu [1] 0 with rxValid := true }.rxValid = true ∧ (midRtu [1] 0).rxValid = false := by
  simp only [List.length_replicate]
  decide

/-- ERROR at the last Tick before its end and at the Tick that ends it, ASCII mode, and an idle receiver. -/
theorem witness_TickOutsideAnRtuFrame :
    let error : Nat → State := fun d => { midRtu [] d with rxs := .error, inputs := [.tick] }
    let idle : State := { error 0 with rxs := .idle }
    (error 5155).mode = .rtu ∧ (error 5155).rxs = .error ∧ (error 5155).inputs = .tick :: []
      ∧ 2 * ((error 5155).t + 1 - (error 5155).tRxLast) * 9600 < 9 * (1000000 * 11)
      ∧ 9 * (1000000 * 11) ≤ 2 * ((error 5156).t + 1 - (error 5156).tRxLast) * 9600
      ∧ { error 0 with mode := .ascii }.mode ≠ .rtu
      ∧ idle.rxs ≠ .error ∧ idle.rxs ≠ .receiving := by decide

/-- A state in the middle of an ASCII frame. -/
def midAscii (rxs : RxState) (asm : List Byte) (nib : Option (BitVec 4)) (c : Byte) : State :=
  { before (.rxChar c) with mode := .ascii, rxs := rxs, rxAsm := asm, rxNib := nib }

theorem witness_AsciiReceiveCases :
    (midAscii .idle [] none 0x30).mode = .ascii
      ∧ (midAscii .idle [] none 0x30).inputs = .rxChar 0x30 :: []
      ∧ (midAscii .disabled [] none 0x30).rxs = .disabled ∧ (midAscii .idle [] none 0x30).rxs = .idle
      ∧ (midAscii .receiving [] none 0x3A).rxs = .receiving
      ∧ (midAscii .gotCr [] none 0x3A).rxs = .gotCr
      ∧ (∀ c ∈ [(0x30 : Byte), 0x39, 0x41, 0x46],
        (0x30 ≤ c.toNat ∧ c.toNat ≤ 0x39) ∨ (0x41 ≤ c.toNat ∧ c.toNat ≤ 0x46))
      ∧ (∀ c ∈ [(0x2F : Byte), 0x3B, 0x40, 0x47, 0x66],
        ¬ ((0x30 ≤ c.toNat ∧ c.toNat ≤ 0x39) ∨ (0x41 ≤ c.toNat ∧ c.toNat ≤ 0x46))
          ∧ c ≠ 0x0D ∧ c ≠ 0x3A ∧ c ≠ 0x0A)
      ∧ (midAscii .receiving [1] (some 5) 0x30).rxNib = some 5
      ∧ (List.replicate 254 (1 : Byte)).length ≠ 255 ∧ (List.replicate 255 (1 : Byte)).length = 255
      ∧ (midAscii .gotCr [1, 2, 3] (some 5) 0x0A).rxNib ≠ none ∧ [(1 : Byte), 2].length < 3
      ∧ 3 ≤ [(0x01 : Byte), 0x00, 0xFF].length ∧ lrcOk [0x01, 0x00, 0xFE] = false
      ∧ lrcOk [0x01, 0x00, 0xFF] = true := by
  simp only [List.length_replicate]
  decide

/-- A STREAM state with an event to come. -/
def midStream (rxs : RxState) (asm : List Byte) (e : Event) : State :=
  { before e with mode := .stream, rxs := rxs, rxAsm := asm }

/-- The length field below 2, at 2, at 254 and above it; the byte before the last, and the last. -/
theorem witness_StreamReceiveCases :
    (midStream .idle [] (.rxChar 1)).mode = .stream
      ∧ (midStream .idle [] (.rxChar 1)).inputs = .rxChar 1 :: []
      ∧ (midStream .error [] (.rxChar 1)).rxs = .error ∧ (midStream .disabled [] (.rxChar 1)).rxs = .disabled
      ∧ (midStream .receiving [0] (.rxChar 1)).rxs = .receiving
      ∧ ([(0 : Byte), 1, 0, 0] ++ [0]).length < 6
      ∧ (([(0 : Byte), 1, 0, 0, 0] ++ [1]).length = 6
        ∧ 256 * (([(0 : Byte), 1, 0, 0, 0] ++ [1]).getD 4 0).toNat
          + (([(0 : Byte), 1, 0, 0, 0] ++ [1]).getD 5 0).toNat < 2)
      ∧ 254 < 256 * (([(0 : Byte), 1, 0, 0, 0] ++ [255]).getD 4 0).toNat
          + (([(0 : Byte), 1, 0, 0, 0] ++ [255]).getD 5 0).toNat
      ∧ (256 * (([(0 : Byte), 1, 0, 0, 0] ++ [254]).getD 4 0).toNat
          + (([(0 : Byte), 1, 0, 0, 0] ++ [254]).getD 5 0).toNat ≤ 254)
      ∧ (6 ≤ ([(0 : Byte), 1, 0, 0, 0, 2] ++ [9]).length
        ∧ 2 ≤ 256 * (([(0 : Byte), 1, 0, 0, 0, 2] ++ [9]).getD 4 0).toNat
          + (([(0 : Byte), 1, 0, 0, 0, 2] ++ [9]).getD 5 0).toNat
        ∧ ([(0 : Byte), 1, 0, 0, 0, 2] ++ [9]).length < 6 + 2
        ∧ ([(0 : Byte), 1, 0, 0, 0, 2, 9] ++ [7]).length = 6 + 2)
      ∧ (midStream .receiving [0] .rxEos).inputs = .rxEos :: []
      ∧ (midStream .idle [] .rxEos).rxs ≠ .receiving
      ∧ { midStream .receiving [0] .rxEos with mode := .rtu }.mode ≠ .stream := by decide

theorem witness_DeliveryOrOverrun :
    1 ≤ [(7 : Byte)].length ∧ [(7 : Byte)].length ≤ 253 ∧ State.reset.rxValid = false
      ∧ (held [7]).rxValid = true := by decide

theorem witness_RtuLoopback :
    let s : State := { State.reset with
      rxs := .idle, inputs := (rtuFrame [1, 7]).map .rxChar ++ List.replicate 5157 .tick ++ [] }
    s.mode = .rtu ∧ s.rxs = .idle ∧ s.rxValid = false ∧ s.txs = .idle ∧ 7 ≤ s.charBits.toNat
      ∧ 1 ≤ [(7 : Byte)].length ∧ [(7 : Byte)].length ≤ 253
      ∧ 9 * (1000000 * s.charBits.toNat) ≤ 2 * 5157 * s.baud.toNat
      ∧ 2 * (5157 - 1) * s.baud.toNat < 9 * (1000000 * s.charBits.toNat)
      ∧ s.inputs = (rtuFrame (1 :: [7])).map .rxChar ++ List.replicate 5157 .tick ++ [] :=
  ⟨rfl, rfl, rfl, rfl, by decide, by decide, by decide, by decide, by decide, rfl⟩

theorem witness_AsciiLoopback :
    let s : State := { State.reset with
      mode := .ascii, rxs := .idle, inputs := (asciiFrame [1, 7]).map .rxChar ++ [] }
    s.mode = .ascii ∧ s.rxs = .idle ∧ s.rxValid = false ∧ 1 ≤ [(7 : Byte)].length
      ∧ [(7 : Byte)].length ≤ 253 ∧ s.inputs = (asciiFrame (1 :: [7])).map .rxChar ++ [] :=
  ⟨rfl, rfl, rfl, by decide, by decide, rfl⟩

theorem witness_StreamLoopback :
    let s : State := { State.reset with
      mode := .stream, rxs := .idle, inputs := (streamFrame 5 [1, 7]).map .rxChar ++ [] }
    s.mode = .stream ∧ s.rxs = .idle ∧ s.rxValid = false ∧ 1 ≤ [(7 : Byte)].length
      ∧ [(7 : Byte)].length ≤ 253 ∧ s.inputs = (streamFrame 5 (1 :: [7])).map .rxChar ++ [] :=
  ⟨rfl, rfl, rfl, by decide, by decide, rfl⟩

/-- A state in the middle of a frame, with a held one and a waiting transmission, meets the invariant. -/
def midway (txs : TxState) : State :=
  { held [7] with rxs := .receiving, rxAsm := [1], t := 10, txs := txs, mem := [(0x1400, 7)] }

theorem midway_inv {txs : TxState} (h1 : TimeInv (midway txs)) (h2 : TransmitterInv (midway txs)) :
    BlockInv (midway txs) :=
  ⟨⟨rfl, rfl⟩, ⟨⟨show 7 ≤ Config.charBitsReset.toNat by decide,
      show Config.charBitsReset.toNat ≤ 12 by decide⟩,
    show Config.baudReset ≠ 0 by decide, show (0 : BitVec 6) &&& ieMask = 0 by decide, show (1 : BitVec 9).toNat ≤ 253 by decide,
    fun _ => show 1 ≤ (1 : BitVec 9).toNat by decide⟩, h1,
    ⟨fun h => absurd rfl h, show 1 ≤ [(1 : Byte)].length ∧ [(1 : Byte)].length ≤ 256 by decide⟩, h2⟩

theorem midway_wait : BlockInv (midway (.wait [1, 2, 3, 4] 3)) :=
  midway_inv (show 0 ≤ 10 ∧ 0 ≤ 10 ∧ 3 ≤ 10 by decide)
    (show Mode.rtu ≠ .stream ∧ 4 ≤ [(1 : Byte), 2, 3, 4].length ∧ [(1 : Byte), 2, 3, 4].length ≤ 513
      by decide)

theorem midway_send : BlockInv (midway (.send [1, 2, 3, 4] 3)) :=
  midway_inv (show 0 ≤ 10 ∧ 0 ≤ 10 ∧ 3 ≤ 10 by decide)
    ⟨show Mode.rtu ≠ .stream by decide, by decide, by decide, by decide⟩

theorem witness_StepKeepsTheInvariant :
    BlockInv (midway (.wait [1, 2, 3, 4] 3)) ∧ ∃ t, step (midway (.wait [1, 2, 3, 4] 3)) = .next t :=
  ⟨midway_wait, _, rfl⟩

theorem witness_TimeAdvancesByTicksOnly :
    (∃ t, step State.reset = .next t) ∧ nextEvent State.reset ≠ .reset := ⟨⟨_, rfl⟩, by decide⟩

theorem witness_HeldFrameIsStable :
    (∃ t, step (held [7]) = .next t) ∧ (held [7]).rxValid = true ∧ nextEvent (held [7]) ≠ .reset
      ∧ ¬ issuesSoftReset (held [7]) :=
  ⟨⟨_, rfl⟩, rfl, by decide, by unfold issuesSoftReset; decide⟩

theorem witness_ConfigurationIsLockedWhileActive :
    (∃ t, step (midway .idle) = .next t) ∧ (midway .idle).rxs ≠ .disabled
      ∧ nextEvent (midway .idle) ≠ .reset ∧ ¬ issuesSoftReset (midway .idle)
      ∧ (midway (.wait [1] 0)).txs ≠ .idle :=
  ⟨⟨_, rfl⟩, by decide, by decide, by unfold issuesSoftReset; decide, by decide⟩

theorem witness_LatchedFrameIsKept :
    (BlockInv (midway (.wait [1, 2, 3, 4] 3)) ∧ (∃ t, step (midway (.wait [1, 2, 3, 4] 3)) = .next t)
        ∧ nextEvent (midway (.wait [1, 2, 3, 4] 3)) ≠ .reset
        ∧ ¬ issuesSoftReset (midway (.wait [1, 2, 3, 4] 3)))
      ∧ BlockInv (midway (.send [1, 2, 3, 4] 3)) ∧ (∃ t, step (midway (.send [1, 2, 3, 4] 3)) = .next t)
        ∧ nextEvent (midway (.send [1, 2, 3, 4] 3)) ≠ .reset
        ∧ ¬ issuesSoftReset (midway (.send [1, 2, 3, 4] 3)) :=
  ⟨⟨midway_wait, ⟨_, rfl⟩, by decide, by unfold issuesSoftReset; decide⟩,
    midway_send, ⟨_, rfl⟩, by decide, by unfold issuesSoftReset; decide⟩

end Sys2Proof.Tests
end

section
/-! PROOF. The statements of 00_scope.md: a PDU that decodes is its instruction's one encoding, and every
event completes. -/

namespace Sys2Proof

/-! ## The PDU decoder -/

/-- Coil bits of a PDU unpack in whole bytes (30_encoding.md R133). -/
theorem coilsWhole_of_unpackPdu {dir : Dir} {pdu : List Byte} {m : Message}
    (h : unpackPdu dir pdu = .ok m) : coilsWhole m.body := by
  unfold unpackPdu at h
  split at h
  · cases h
  · rename_i fc p
    split at h
    · cases h
    · rename_i l hl
      cases hp : unpackPayload l p with
      | error e => rw [hp] at h; cases h
      | ok body =>
        rw [hp] at h; cases h
        exact coilsWhole_of_unpackPayload hp

/-- The message of a PDU within the size limit of 253 bytes fits its layout (00_scope.md R8). -/
theorem payloadFits_of_unpackPdu {dir : Dir} {pdu : List Byte} {m : Message}
    (h : unpackPdu dir pdu = .ok m) (hlen : pdu.length ≤ 253) : payloadFits m.body := by
  refine ⟨?_, coilsWhole_of_unpackPdu h⟩
  rw [← (packMessage_of_unpackPdu h).1, packMessage, List.length_cons] at hlen
  omega

/-- What a PDU decodes to is the row of the message it unpacks to. -/
theorem decode_pdu_ok {op : CodecOp} {dir : Dir} {pdu : List Byte} {i : Instr}
    (h : decode (.pdu op dir pdu) = .ok i) : ∃ m, unpackPdu dir pdu = .ok m ∧ IsRowOf op dir m i := by
  simp only [decode, decodePdu] at h
  split at h
  · cases h
  · rename_i m hm
    obtain ⟨j, hj⟩ := rowOf_spec op (packMessage_of_unpackPdu hm).2
    obtain rfl : j = i := Except.ok.inj (hj.row.symm.trans h)
    exact ⟨m, hm, hj⟩

/-- Settles O3: the PDU unpacks to a message that packs to it, and the row of that message has the
message's bytes as its code. -/
theorem pdusHaveOneEncoding : Obligations.PdusHaveOneEncoding := by
  intro op dir bytes i h
  obtain ⟨m, hm, hrow⟩ := decode_pdu_ok h
  exact ⟨by rw [hrow.code, (packMessage_of_unpackPdu hm).1],
    fun hlen => hrow.wellFormed (payloadFits_of_unpackPdu hm hlen)⟩

namespace Machine

/-! ## Every event completes -/

/-- Every instruction answers a next state (60_exceptions.md R370). -/
theorem exec_completes (i : Instr) (s : State) : ∃ t, exec i s = .next t := by
  cases i <;> exact ⟨_, rfl⟩

/-- A write to CMD completes, whether its word is legal or not (30_encoding.md R123). -/
theorem issueCommand_completes (v : Word) (s : State) : ∃ t, issueCommand v s = .next t := by
  unfold issueCommand
  split
  · exact ⟨_, rfl⟩
  · exact exec_completes _ s

/-- Of the registers only CMD runs an instruction; a write to any other one is one update. -/
theorem writeRegister_completes (r : RegName) (v : Word) (s : State) :
    ∃ t, writeRegister r v s = .next t := by
  cases r
  case cmd => exact issueCommand_completes v s
  all_goals exact ⟨_, rfl⟩

theorem writeTarget_completes (g : Target) (v : Word) (s : State) :
    ∃ t, writeTarget g v s = .next t := by
  cases g
  case reg r => exact writeRegister_completes r v s
  all_goals exact ⟨_, rfl⟩

/-- A read completes as data, as a bus error, or, outside the aperture, without a response
(20_memory.md R90, R92). -/
theorem busRead_completes (size : AccessSize) (off : Nat) (s : State) :
    ∃ t, busRead size off s = .next t := by
  unfold busRead
  split
  · exact ⟨_, rfl⟩
  · split <;> exact ⟨_, rfl⟩

/-- A write completes as its target's write, as a bus error, or, outside the aperture, without a response
(20_memory.md R91, R92). -/
theorem busWrite_completes (size : AccessSize) (off : Nat) (v : Word) (s : State) :
    ∃ t, busWrite size off v s = .next t := by
  unfold busWrite
  split
  · exact ⟨_, rfl⟩
  · split
    · exact writeTarget_completes _ v _
    · exact ⟨_, rfl⟩

theorem handleEvent_completes (e : Event) (s : State) : ∃ t, handleEvent e s = .next t := by
  cases e
  case busRead size off => exact busRead_completes size off s
  case busWrite size off v => exact busWrite_completes size off v s
  all_goals exact ⟨_, rfl⟩

/-- Every step answers a next state, an access outside the aperture included (00_scope.md R17). -/
theorem step_completes (s : State) : ∃ t, step s = .next t := handleEvent_completes _ _

/-- Settles O10: every step answers a next state. The two premises of the statement are not needed, since
an access outside the aperture completes as well. -/
theorem everyEventInsideCompletes : Obligations.EveryEventInsideCompletes :=
  fun s _ _ => step_completes s

end Machine
end Sys2Proof
end

section
/-! PROOF. The statements of 10_state.md. First what one step can do, event by event, write by write and
command by command; then the block's invariant, the four rules on what a step leaves as it was, and what each
register and RAM entry reads as and how a host write changes it. -/

namespace Sys2Proof.Machine

/-- What holds of the state that a result answers holds of the state it is known to answer. -/
theorem of_next_eq {P : State → Prop} {t u : State} (h : (.next u : Result) = .next t) (hu : P u) : P t := by
  cases h
  exact hu

/-! ## What a command can do -/

/-- What the instruction `i` can leave of the state `s`. -/
inductive CommandResult (i : Instr) (s : State) : State → Prop
  /-- ERR is all that changes: NOP, and a command that the codec rejects (43_control.md R345). -/
  | ended (code : ErrCode) : CommandResult i s (raiseCmdError code s)
  /-- CRC.INIT and CRC.FEED (41_checksum.md R250, R251). -/
  | crc (c : Half) (h : i = .crcInit ∨ ∃ b, i = .crcFeed b) :
    CommandResult i s (commandDone { s with crcAcc := c })
  /-- LRC.INIT and LRC.FEED (41_checksum.md R252, R253). -/
  | lrc (b : Byte) (h : i = .lrcInit ∨ ∃ b, i = .lrcFeed b) :
    CommandResult i s (commandDone { s with lrcSum := b })
  /-- The codec runs a message's row (40_codec.md R162, R163). -/
  | message (op : CodecOp) (m : Message) : CommandResult i s (runMessage op m s)
  /-- TX.SEND (42_framing.md R299). -/
  | sent : CommandResult i s (runSend s)
  /-- RX.ENABLE of a disabled receiver, and RX.DISABLE (43_control.md R341, R343). -/
  | receiver (x : RxState) (l : Nat)
    (hx : x = .disabled ∨ x = .idle ∨ (x = .error ∧ s.mode ≠ .ascii))
    (hl : l = s.tRxLast ∨ l = s.t) :
    CommandResult i s (commandDone { s with rxAsm := [], rxNib := none, rxs := x, tRxLast := l })
  /-- RX.RELEASE (43_control.md R342). -/
  | released : CommandResult i s (commandDone { s with rxValid := false })
  /-- RESET.SOFT (43_control.md R344). -/
  | softReset (t : State) (h : i = .resetSoft) (ht : execResetSoft s = .next t) : CommandResult i s t

theorem runEncode_result (i : Instr) (dir : Dir) (s : State) : CommandResult i s (runEncode dir s) := by
  unfold runEncode
  split
  · exact .ended _
  · exact .message _ _

theorem runDecode_result (i : Instr) (dir : Dir) (s : State) : CommandResult i s (runDecode dir s) := by
  unfold runDecode
  split
  · split
    · exact .ended _
    · exact .message _ _
  · exact .ended _

theorem execRxEnable_result {i : Instr} {s t : State} (h : execRxEnable s = .next t) :
    CommandResult i s t := by
  obtain rfl := Host.Outcome.next.inj h
  split
  · split
    · exact .receiver .error s.t (.inr (.inr ⟨rfl, by simp [*]⟩)) (.inr rfl)
    · exact .receiver .idle s.tRxLast (.inr (.inl rfl)) (.inl rfl)
    · exact .receiver .idle s.tRxLast (.inr (.inl rfl)) (.inl rfl)
  · exact .ended .ok

/-- Every instruction has one of these results. -/
theorem exec_result {i : Instr} {s t : State} (h : exec i s = .next t) : CommandResult i s t := by
  cases i
  case nop => exact of_next_eq h (.ended .ok)
  case crcInit => exact of_next_eq h (.crc _ (.inl rfl))
  case crcFeed b => exact of_next_eq h (.crc _ (.inr ⟨b, rfl⟩))
  case lrcInit => exact of_next_eq h (.lrc _ (.inl rfl))
  case lrcFeed b => exact of_next_eq h (.lrc _ (.inr ⟨b, rfl⟩))
  case encodeReq => exact of_next_eq h (runEncode_result _ .request s)
  case encodeRsp => exact of_next_eq h (runEncode_result _ .response s)
  case decodeReq => exact of_next_eq h (runDecode_result _ .request s)
  case decodeRsp => exact of_next_eq h (runDecode_result _ .response s)
  case txSend => exact of_next_eq h .sent
  case rxEnable => exact execRxEnable_result h
  case rxDisable => exact of_next_eq h (.receiver .disabled s.tRxLast (.inl rfl) (.inl rfl))
  case rxRelease => exact of_next_eq h .released
  case resetSoft => exact .softReset t rfl h
  all_goals exact of_next_eq h (.message _ _)

/-! ## What a host write can do -/

/-- A legal write of the configuration: the four fields of CFG, BAUD and TXDLY alone, and no illegal value
(R33, R39, R40). -/
def ConfigWrite (s t : State) : Prop :=
  t = { s with mode := t.mode, charBits := t.charBits, baud := t.baud, txDly := t.txDly }
    ∧ (t.charBits = s.charBits ∨ (7 ≤ t.charBits.toNat ∧ t.charBits.toNat ≤ 12))
    ∧ (t.baud = s.baud ∨ t.baud ≠ 0)

theorem writeCfg_config (v : Word) (s : State) : ConfigWrite s (writeCfg v s) := by
  refine ⟨rfl, ?_, .inl rfl⟩
  simp only [writeCfg]
  split
  · exact .inr ‹_›
  · exact .inl rfl

theorem writeBaud_config (v : Word) (s : State) : ConfigWrite s (writeBaud v s) := by
  unfold writeBaud
  split
  · exact ⟨rfl, .inl rfl, .inl rfl⟩
  · exact ⟨rfl, .inl rfl, .inr ‹_›⟩

theorem writeTxDly_config (v : Word) (s : State) : ConfigWrite s (writeTxDly v s) :=
  ⟨rfl, .inl rfl, .inl rfl⟩

/-- The offsets of CFG, BAUD and TXDLY (R31). -/
def IsConfigOffset (off : Nat) : Prop := off = 0x004 ∨ off = 0x01C ∨ off = 0x020

/-- What an accepted write of `v` at `off` can leave of the state `s`. -/
inductive WriteResult (off : Nat) (v : Word) (s : State) : State → Prop
  /-- A register that is neither locked nor CMD, a reserved offset or RXBUF (R32, R35-R38, R41-R49, R53). -/
  | plain (t : State)
    (ht : t = { s with
      txDone := t.txDone, rxErr := t.rxErr, overrun := t.overrun, rxtErr := t.rxtErr, ie := t.ie
      txUnit := t.txUnit, txLen := t.txLen, txTid := t.txTid, cntRxOk := t.cntRxOk
      cntFrameErr := t.cntFrameErr, cntCrcErr := t.cntCrcErr, cntOverrun := t.cntOverrun })
    (hie : t.ie = s.ie ∨ t.ie &&& ieMask = t.ie) : WriteResult off v s t
  /-- A locked register (R54). -/
  | locked (hoff : IsConfigOffset off) : WriteResult off v s (raiseCmdError .locked s)
  /-- A register that is not locked (R54). -/
  | configured (u : State) (hoff : IsConfigOffset off) (hl : s.locked = false)
    (hu : ConfigWrite s u) : WriteResult off v s (commandDone u)
  /-- An entry of TXBUF (R50). -/
  | txbuf (i : Nat) (b : Byte) : WriteResult off v s (s.setTxbuf i b)
  /-- A word of MSG (R52). -/
  | msg (i : Nat) (w : Word) : WriteResult off v s (s.setMsg i w)
  /-- An illegal command word (30_encoding.md R123). -/
  | illegal (code : ErrCode) (hoff : off = 0x010) : WriteResult off v s (raiseCmdError code s)
  /-- A command (R34). -/
  | command (i : Instr) (t : State) (hoff : off = 0x010) (hd : decode (.command v) = .ok i)
    (ht : CommandResult i s t) : WriteResult off v s t

theorem issueCommand_result {v : Word} {s t : State} (h : issueCommand v s = .next t) :
    WriteResult 0x010 v s t := by
  unfold issueCommand at h
  split at h
  · exact of_next_eq h (.illegal _ rfl)
  · exact .command _ t rfl ‹_› (exec_result h)

theorem lockable_result {off : Nat} {v : Word} {s : State} {f : State → State}
    (hoff : IsConfigOffset off) (hf : ConfigWrite s (f s)) : WriteResult off v s (lockable f s) := by
  unfold lockable
  split
  · exact .locked hoff
  · exact .configured (f s) hoff (Bool.eq_false_of_not_eq_true ‹_›) hf

theorem ieMask_idem (b : BitVec 6) : b &&& ieMask &&& ieMask = b &&& ieMask := by
  rw [BitVec.and_assoc, BitVec.and_self]

theorem writeRegister_result {r : RegName} {v : Word} {s t : State}
    (h : writeRegister r v s = .next t) : WriteResult r.offset v s t := by
  cases r
  case cfg => exact of_next_eq h (lockable_result (.inl rfl) (writeCfg_config v s))
  case baud => exact of_next_eq h (lockable_result (.inr (.inl rfl)) (writeBaud_config v s))
  case txdly => exact of_next_eq h (lockable_result (.inr (.inr rfl)) (writeTxDly_config v s))
  case cmd => exact issueCommand_result h
  case ie => exact of_next_eq h (.plain _ rfl (.inr (ieMask_idem _)))
  all_goals exact of_next_eq h (.plain _ rfl (.inl rfl))

/-- What an offset names as a register is at that register's offset (R31). -/
theorem offset_of_targetAt {off : Nat} {r : RegName} (h : targetAt off = .reg r) : off = r.offset := by
  unfold targetAt at h
  split at h
  · cases h
    exact registerAt_some ‹_›
  · repeat' split at h
    all_goals cases h

theorem writeTarget_result {off : Nat} {v : Word} {s t : State}
    (h : writeTarget (targetAt off) v s = .next t) : WriteResult off v s t := by
  generalize hg : targetAt off = g at h
  cases g
  case reg r => rw [offset_of_targetAt hg]; exact writeRegister_result h
  case txbuf i => exact of_next_eq h (.txbuf i _)
  case msg i => exact of_next_eq h (.msg i v)
  all_goals exact of_next_eq h (.plain _ rfl (.inl rfl))

/-! ## What a step can do -/

/-- What the event `e` can leave of the state `s`. -/
inductive EventResult (e : Event) (s : State) : State → Prop
  /-- A read, a bus error, or an access outside the aperture (20_memory.md R90, R92). -/
  | answered (r : HostResponse) (he : e ≠ .tick) : EventResult e s { s with hostResp := r }
  /-- An accepted write (20_memory.md R91). -/
  | written (off : Nat) (v : Word) (t : State) (he : e = .busWrite .word off v)
    (ht : WriteResult off v { s with hostResp := .done } t) : EventResult e s t
  /-- A received character. -/
  | received (b : Byte) (he : e = .rxChar b) : EventResult e s (rxCharEvent b s)
  /-- The end of a stream. -/
  | streamEnded (he : e = .rxEos) : EventResult e s (rxEosEvent s)
  /-- A Tick. -/
  | ticked (he : e = .tick) : EventResult e s (tickEvent s)
  /-- The hardware reset. -/
  | reset (he : e = .reset) : EventResult e s (hardwareReset s)

theorem busRead_result {size : AccessSize} {off : Nat} {s t : State}
    (h : busRead size off s = .next t) : EventResult (.busRead size off) s t := by
  unfold busRead at h
  repeat' split at h
  all_goals exact of_next_eq h (.answered _ nofun)

theorem busWrite_result {size : AccessSize} {off : Nat} {v : Word} {s t : State}
    (h : busWrite size off v s = .next t) : EventResult (.busWrite size off v) s t := by
  unfold busWrite at h
  split at h
  · exact of_next_eq h (.answered _ nofun)
  · split at h
    · rename_i ha
      have hsize : size = .word := by
        rw [accepted, Bool.and_eq_true, beq_iff_eq] at ha
        exact ha.1
      exact .written off v t (by rw [hsize]) (writeTarget_result h)
    · exact of_next_eq h (.answered _ nofun)

/-- Every step has one of these results. -/
theorem step_result {s t : State} (h : step s = .next t) :
    EventResult (nextEvent s) (consumeEvent s) t := by
  unfold step at h
  generalize nextEvent s = e at h
  cases e
  case busRead size off => exact busRead_result h
  case busWrite size off v => exact busWrite_result h
  case rxChar b => exact of_next_eq h (.received b rfl)
  case rxEos => exact of_next_eq h (.streamEnded rfl)
  case tick => exact of_next_eq h (.ticked rfl)
  case reset => exact of_next_eq h (.reset rfl)

/-! ## The invariant

A Tick advances `t` before the transmitter's step, so that in between a transmission may stand at its end. The
lemmas are therefore about the invariant with a transmission at most `d` microseconds past where
`TransmitterInv` has it; `BlockInv` is the case `d = 0`. -/

/-- `TransmitterInv`, with a transmission that may be `d` microseconds further. -/
def TransmitterWithin (d : Nat) (s : State) : Prop :=
  match s.txs with
  | .idle => True
  | .wait f _ => s.mode ≠ .stream ∧ 4 ≤ f.length ∧ f.length ≤ 513
  | .send f ts =>
    s.mode ≠ .stream ∧ 4 ≤ f.length ∧ f.length ≤ 513 ∧ s.t < ts + s.charStart f.length + d

/-- `BlockInv`, with a transmission that may be `d` microseconds further. -/
def InvWithin (d : Nat) (s : State) : Prop :=
  MemoryInv s ∧ RegisterInv s ∧ TimeInv s ∧ ReceiverInv s ∧ TransmitterWithin d s

theorem invWithin_zero (s : State) : InvWithin 0 s ↔ BlockInv s := Iff.rfl

section
variable {d : Nat} {s t u : State}

theorem InvWithin.lastSeen (h : InvWithin d s) : s.tRxLast ≤ s.t := h.2.2.1.1

theorem InvWithin.receiverInv (h : InvWithin d s) : ReceiverInv s := h.2.2.2.1

/-! ### The receiver -/

/-- A receiver's move that ends no frame. -/
theorem InvWithin.receiver {x : RxState} {a : List Byte} {n : Option (BitVec 4)} {l : Nat}
    (h : InvWithin d s) (hl : l ≤ s.t) (hr : ReceiverInv { s with rxs := x, rxAsm := a, rxNib := n }) :
    InvWithin d { s with rxs := x, rxAsm := a, rxNib := n, tRxLast := l } := by
  obtain ⟨hmem, hreg, ⟨-, hline, htxs⟩, -, htx⟩ := h
  exact ⟨hmem, hreg, ⟨hl, hline, htxs⟩, hr, htx⟩

theorem FrameEnded.rxAsm (h : FrameEnded s u) : u.rxAsm = [] := by
  obtain ⟨m, n, l, i, p, v, o, k, c, e, f, g, rfl⟩ := h.fields
  rfl

theorem FrameEnded.rxNib (h : FrameEnded s u) : u.rxNib = none := by
  obtain ⟨m, n, l, i, p, v, o, k, c, e, f, g, rfl⟩ := h.fields
  rfl

theorem FrameEnded.tRxLast (h : FrameEnded s u) : u.tRxLast = s.tRxLast := by
  obtain ⟨m, n, l, i, p, v, o, k, c, e, f, g, rfl⟩ := h.fields
  rfl

/-- The frame that ended may have grown by the last byte first. -/
theorem FrameEnded.of_assembly {a : List Byte} (h : FrameEnded { s with rxAsm := a } u) :
    FrameEnded s u := ⟨h.fields, h.memory, h.held⟩

/-- A receiver's move that ends a frame. -/
theorem FrameEnded.inv {x : RxState} {a : List Byte} {l : Nat} (he : FrameEnded s u)
    (h : InvWithin d s) (hl : l ≤ s.t)
    (hr : ReceiverInv { s with rxs := x, rxAsm := a, rxNib := none }) :
    InvWithin d { u with rxs := x, rxAsm := a, tRxLast := l } := by
  obtain ⟨hmem, ⟨hbits, hbaud, hie, hheld⟩, ⟨-, hline, htxs⟩, -, htx⟩ := h
  obtain ⟨⟨m, n, i, p, q, v, o, k, c, e, f, g, rfl⟩, hm, hn⟩ := he
  exact ⟨hm hmem, ⟨hbits, hbaud, hie, hn hheld⟩, ⟨hl, hline, htxs⟩, hr, htx⟩

/-- The receiver is idle after a frame. -/
theorem FrameEnded.inv_idle (he : FrameEnded s u) (h : InvWithin d s) :
    InvWithin d { u with rxs := .idle } := by
  have hl : u.tRxLast ≤ s.t := by
    rw [he.tRxLast]
    exact h.lastSeen
  exact he.inv (x := .idle) h hl ⟨fun hn => absurd rfl hn, he.rxAsm, rfl⟩

/-- The RTU receiver meets the invariant after a character (42_framing.md R280). -/
theorem rtuChar_inv (b : Byte) (hm : s.mode = .rtu) (h : InvWithin d s) : InvWithin d (rtuChar b s) := by
  have hr := h.receiverInv
  have hnib : s.rxNib = none := by
    by_contra hc
    exact absurd (hm.symm.trans (hr.1 hc)) (by decide)
  have herror : ReceiverInv { s with rxs := .error, rxAsm := [], rxNib := none } :=
    ⟨fun hn => absurd rfl hn, rfl, rfl, by simp [hm]⟩
  have hframe : ∀ a : List Byte, 1 ≤ a.length → a.length ≤ 256 → ∀ n,
      n = none → ReceiverInv { s with rxs := .receiving, rxAsm := a, rxNib := n } := by
    rintro a h1 h2 n rfl
    refine ⟨fun hn => absurd rfl hn, ?_⟩
    simp only [AssemblyLimit, hm]
    exact ⟨h1, h2⟩
  unfold rtuChar
  split
  · exact h
  · exact h.receiver (Nat.le_refl _) (hframe [b] (by simp) (by simp) _ hnib)
  · rename_i hx
    have hlen : 1 ≤ s.rxAsm.length ∧ s.rxAsm.length ≤ 256 := by
      simpa only [hx, AssemblyLimit, hm] using hr.2
    dsimp only
    split
    · split
      · exact (FrameEnded_discard .overflow s).inv h (Nat.le_refl _) herror
      · rename_i hfull
        refine h.receiver (x := s.rxs) (Nat.le_refl _) ?_
        rw [hx]
        refine hframe _ ?_ ?_ _ hnib
        all_goals
          simp only [List.length_append, List.length_singleton]
          simp only [Config.rtuMax] at hfull
          omega
    · split
      · exact (FrameEnded_discard .gap s).inv h (Nat.le_refl _) herror
      · exact (FrameEnded_rtu hlen.2).inv h (Nat.le_refl _) (hframe [b] (by simp) (by simp) _ rfl)
  · split
    · exact h.receiver (Nat.le_refl _) (hframe [b] (by simp) (by simp) _ hnib)
    · exact h.receiver (Nat.le_refl _) hr
  · exact h

/-- The RTU time check keeps the invariant (42_framing.md R282). -/
theorem rtuTimeCheck_inv (h : InvWithin d s) : InvWithin d (rtuTimeCheck s) := by
  have hr := h.receiverInv
  unfold rtuTimeCheck
  split
  · rename_i hc
    split
    · rename_i hx
      have hlen : 1 ≤ s.rxAsm.length ∧ s.rxAsm.length ≤ 256 := by
        simpa only [hx, AssemblyLimit, hc.1] using hr.2
      exact (FrameEnded_rtu hlen.2).inv_idle h
    · rename_i hx
      have herr : s.rxAsm = [] ∧ s.rxNib = none ∧ s.mode ≠ .ascii := by
        simpa only [hx] using hr.2
      exact h.receiver h.lastSeen ⟨hr.1, herr.1, herr.2.1⟩
    · exact h
    · exact h
    · exact h
  · exact h

/-- A ':' starts a frame (42_framing.md R285). -/
theorem asciiStart_inv (hm : s.mode = .ascii) (h : InvWithin d s) : InvWithin d (asciiStart s) := by
  have hstart : ReceiverInv { s with rxs := .receiving, rxAsm := [], rxNib := none } := by
    refine ⟨fun hn => absurd rfl hn, ?_⟩
    simp only [AssemblyLimit, hm]
    exact Nat.zero_le _
  unfold asciiStart
  dsimp only
  split
  · exact (FrameEnded_discard .restart s).inv h h.lastSeen hstart
  · exact h.receiver h.lastSeen hstart

/-- A hex digit inside a frame (42_framing.md R285). -/
theorem asciiDigit_inv (v : BitVec 4) (hm : s.mode = .ascii) (hx : s.rxs = .receiving)
    (h : InvWithin d s) : InvWithin d (asciiDigit v s) := by
  have hlen : s.rxAsm.length ≤ 255 := by
    simpa only [hx, AssemblyLimit, hm] using h.receiverInv.2
  have hframe : ∀ (a : List Byte) n, a.length ≤ 255 →
      ReceiverInv { s with rxAsm := a, rxNib := n } := by
    intro a n ha
    refine ⟨fun _ => hm, ?_⟩
    simp only [hx, AssemblyLimit, hm]
    exact ha
  unfold asciiDigit
  split
  · exact h.receiver h.lastSeen (hframe _ _ hlen)
  · split
    · exact (FrameEnded_discard .badAscii s).inv_idle h
    · rename_i hfull
      refine h.receiver h.lastSeen (hframe _ _ ?_)
      simp only [List.length_append, List.length_singleton]
      simp only [Config.asciiMax] at hfull
      omega

/-- The ASCII receiver meets the invariant after a character (42_framing.md R285, R286). -/
theorem asciiChar_inv (c : Byte) (hm : s.mode = .ascii) (h : InvWithin d s) :
    InvWithin d (asciiChar c s) := by
  have hr := h.receiverInv
  unfold asciiChar
  split
  · exact h
  · split
    · exact asciiStart_inv hm h
    · exact h
  · rename_i hx
    have hlimit : AssemblyLimit s := by simpa only [hx] using hr.2
    split
    · exact asciiStart_inv hm h
    · split
      · exact asciiDigit_inv _ hm hx h
      · split
        · exact h.receiver h.lastSeen ⟨hr.1, hm, hlimit⟩
        · exact (FrameEnded_discard .nonHex s).inv_idle h
  · rename_i hx
    have hlen : s.rxAsm.length ≤ 255 := by
      have hlimit : s.mode = .ascii ∧ AssemblyLimit s := by simpa only [hx] using hr.2
      simpa only [AssemblyLimit, hm] using hlimit.2
    split
    · exact asciiStart_inv hm h
    · split
      · exact (FrameEnded_ascii hlen).inv_idle h
      · exact (FrameEnded_discard .badAscii s).inv_idle h
  · split
    · exact asciiStart_inv hm h
    · exact h

/-- A STREAM frame's length field does not change as the frame grows. -/
theorem rd16_append {xs : List Byte} (ys : List Byte) {p : Nat} (h : p + 2 ≤ xs.length) :
    rd16 (xs ++ ys) p = rd16 xs p := by
  simp only [rd16]
  rw [List.getD_append _ _ _ _ (by omega), List.getD_append _ _ _ _ (by omega)]

/-- The STREAM receiver meets the invariant after a byte (42_framing.md R288, R289). -/
theorem streamChar_inv (b : Byte) (hm : s.mode = .stream) (h : InvWithin d s) :
    InvWithin d (streamChar b s) := by
  have hr := h.receiverInv
  have hnib : s.rxNib = none := by
    by_contra hc
    exact absurd (hm.symm.trans (hr.1 hc)) (by decide)
  unfold streamChar
  split
  · exact h
  · exact h
  · refine h.receiver h.lastSeen ⟨hr.1, ?_⟩
    simp [AssemblyLimit, hm]
  · rename_i hx
    have hlimit : 1 ≤ s.rxAsm.length ∧ (6 ≤ s.rxAsm.length →
        2 ≤ (rd16 s.rxAsm 4).toNat ∧ (rd16 s.rxAsm 4).toNat ≤ 254
          ∧ s.rxAsm.length < 6 + (rd16 s.rxAsm 4).toNat) := by
      simpa only [hx, AssemblyLimit, hm] using hr.2
    have hgrown : 6 ≤ s.rxAsm.length → rd16 (s.rxAsm ++ [b]) 4 = rd16 s.rxAsm 4 :=
      fun hl => rd16_append _ hl
    have hlen : (s.rxAsm ++ [b]).length = s.rxAsm.length + 1 := List.length_append
    dsimp only
    split
    · refine (FrameEnded_discard .badLength _).of_assembly.inv h h.lastSeen ?_
      exact ⟨fun hn => absurd rfl hn, rfl, rfl, by simp [hm]⟩
    · rename_i hgood
      have hfield : 6 ≤ s.rxAsm.length + 1 → 2 ≤ (rd16 (s.rxAsm ++ [b]) 4).toNat
          ∧ (rd16 (s.rxAsm ++ [b]) 4).toNat ≤ 254
          ∧ s.rxAsm.length < 6 + (rd16 (s.rxAsm ++ [b]) 4).toNat := by
        intro hl
        rcases Nat.lt_or_ge s.rxAsm.length 6 with h5 | h6
        · simp only [hlen, Config.lenMax] at hgood
          omega
        · rw [hgrown h6]
          exact hlimit.2 h6
      split
      · rename_i hend
        rw [hlen] at hend
        obtain ⟨h2, h254, -⟩ := hfield hend.1
        exact (FrameEnded_stream (s := { s with rxAsm := s.rxAsm ++ [b] }) h2 h254
          (hlen.trans hend.2)).of_assembly.inv_idle h
      · rename_i hmore
        rw [hlen] at hmore
        refine h.receiver (x := s.rxs) h.lastSeen ⟨hr.1, ?_⟩
        simp only [hx, AssemblyLimit, hm, hlen]
        exact ⟨by omega, fun hl => by have := hfield hl; omega⟩
  · exact h

/-- A received character keeps the invariant, `t_line` moved or not (42_framing.md R291). -/
theorem rxCharEvent_inv (b : Byte) (h : InvWithin d s) : InvWithin d (rxCharEvent b s) := by
  have hline : InvWithin d { s with tLine := s.t } := by
    obtain ⟨hmem, hreg, ⟨hlast, -, htxs⟩, hrx, htx⟩ := h
    exact ⟨hmem, hreg, ⟨hlast, Nat.le_refl _, htxs⟩, hrx, htx⟩
  unfold rxCharEvent
  split
  · exact rtuChar_inv b ‹_› hline
  · exact asciiChar_inv b ‹_› hline
  · exact streamChar_inv b ‹_› h

/-- The end of a stream keeps the invariant (42_framing.md R296). -/
theorem rxEosEvent_inv (h : InvWithin d s) : InvWithin d (rxEosEvent s) := by
  unfold rxEosEvent
  split
  · exact h.receiver (x := .idle) h.lastSeen ⟨fun hn => absurd rfl hn, rfl, rfl⟩
  · exact h

/-! ### The transmitter -/

/-- A waiting transmission that starts has all of its characters before it (42_framing.md R300). -/
theorem txStart_inv (h : InvWithin 1 s) : InvWithin 1 (txStart s) := by
  obtain ⟨hmem, hreg, htime, hrx, htx⟩ := h
  unfold txStart
  split
  · exact ⟨hmem, hreg, htime, hrx, htx⟩
  · rename_i f tCmd hf
    split
    · have hwait : s.mode ≠ .stream ∧ 4 ≤ f.length ∧ f.length ≤ 513 := by
        simpa only [TransmitterWithin, hf] using htx
      obtain ⟨hmode, h4, h513⟩ := hwait
      exact ⟨hmem, hreg, ⟨htime.1, htime.2.1, Nat.le_refl _⟩, hrx, hmode, h4, h513,
        Nat.lt_succ_of_le (Nat.le_add_right _ _)⟩
    · exact ⟨hmem, hreg, htime, hrx, htx⟩
  · exact ⟨hmem, hreg, htime, hrx, htx⟩

/-- A transmission that stands at its end is over (42_framing.md R300). -/
theorem txSendStep_inv (h : InvWithin 1 s) : InvWithin 0 (txSendStep s) := by
  obtain ⟨hmem, hreg, htime, hrx, htx⟩ := h
  unfold txSendStep
  split
  · rename_i hf
    exact ⟨hmem, hreg, htime, hrx, by simp only [TransmitterWithin, hf]⟩
  · rename_i hf
    exact ⟨hmem, hreg, htime, hrx, by simpa only [TransmitterWithin, hf] using htx⟩
  · rename_i f ts hf
    have hsend : s.mode ≠ .stream ∧ 4 ≤ f.length ∧ f.length ≤ 513
        ∧ s.t < ts + s.charStart f.length + 1 := by
      simpa only [TransmitterWithin, hf] using htx
    obtain ⟨hmode, h4, h513, hend⟩ := hsend
    dsimp only
    split
    · exact ⟨hmem, hreg, ⟨htime.1, Nat.le_refl _, trivial⟩, hrx, trivial⟩
    · refine ⟨hmem, hreg, htime, hrx, ?_⟩
      simp only [TransmitterWithin, emitAll_txs, hf]
      exact ⟨hmode, h4, h513, Nat.lt_of_le_of_ne (Nat.le_of_lt_succ hend) ‹_›⟩

theorem txStep_inv (h : InvWithin 1 s) : InvWithin 0 (txStep s) := txSendStep_inv (txStart_inv h)

/-- A Tick keeps the invariant (60_exceptions.md R381). -/
theorem tickEvent_inv (h : InvWithin 0 s) : InvWithin 0 (tickEvent s) := by
  obtain ⟨hmem, hreg, ⟨hlast, hline, htxs⟩, hrx, htx⟩ := h
  refine txStep_inv (rtuTimeCheck_inv ⟨hmem, hreg, ⟨Nat.le_succ_of_le hlast, Nat.le_succ_of_le hline, ?_⟩,
    hrx, ?_⟩)
  · cases hx : s.txs <;> simp only [hx] at htxs ⊢ <;> omega
  · unfold TransmitterWithin at htx ⊢
    dsimp only
    split
    · trivial
    · rename_i hf
      simpa only [hf] using htx
    · rename_i hf
      simp only [hf] at htx
      obtain ⟨hmode, h4, h513, hend⟩ := htx
      exact ⟨hmode, h4, h513, Nat.succ_lt_succ hend⟩

/-! ### Commands and writes -/

/-- An RTU or ASCII frame of a legal TXLEN has 4 to 513 characters (42_framing.md R271, R273). -/
theorem frame_length (hm : s.mode ≠ .stream) (h1 : 1 ≤ s.txLen.toNat) (h2 : s.txLen.toNat ≤ 253) :
    4 ≤ s.frame.length ∧ s.frame.length ≤ 513 := by
  unfold State.frame
  split
  · rw [rtuFrame_length, txBody_length]
    omega
  · rw [asciiFrame_length, txBody_length]
    omega
  · contradiction

/-- A frame that TX.SEND latches takes its first step (42_framing.md R299). -/
theorem latch_inv (hm : s.mode ≠ .stream) (hlen : ¬(s.txLen.toNat < 1 ∨ Config.pduMax < s.txLen.toNat))
    (h : InvWithin 0 s) : InvWithin 0 (txStep { commandDone s with txs := .wait s.frame s.t }) := by
  obtain ⟨hmem, hreg, ⟨hlast, hline, -⟩, hrx, -⟩ := h
  have hpdu : Config.pduMax = 253 := rfl
  exact txStep_inv ⟨hmem, hreg, ⟨hlast, hline, Nat.le_refl _⟩, hrx, hm,
    frame_length hm (by omega) (by omega)⟩

theorem runSend_inv (h : InvWithin 0 s) : InvWithin 0 (runSend s) := by
  unfold runSend
  split
  · exact h
  · split
    · exact h
    · rename_i hlen
      split
      · exact h
      · exact latch_inv (by simp [*]) hlen h
      · exact latch_inv (by simp [*]) hlen h

theorem reset_registers : RegisterInv State.reset := by decide

theorem execResetSoft_inv (ht : execResetSoft s = .next t) (h : InvWithin 0 s) : InvWithin 0 t := by
  obtain rfl := Host.Outcome.next.inj ht
  exact ⟨h.1, reset_registers, ⟨Nat.le_refl _, Nat.le_refl _, trivial⟩,
    ⟨fun hn => absurd rfl hn, rfl, rfl⟩, trivial⟩

theorem hardwareReset_inv (s : State) : InvWithin 0 (hardwareReset s) :=
  ⟨MemoryOk_nil, reset_registers, ⟨Nat.le_refl _, Nat.le_refl _, trivial⟩,
    ⟨fun hn => absurd rfl hn, rfl, rfl⟩, trivial⟩

theorem CommandResult.inv {i : Instr} (hc : CommandResult i s t) (h : InvWithin 0 s) :
    InvWithin 0 t := by
  cases hc
  case ended => exact h
  case crc => exact h
  case lrc => exact h
  case message op m =>
    have hmem := MemoryOk_runMessage h.1 op m
    obtain ⟨w, n, hw⟩ := runMessage_fields op m s
    rw [hw] at hmem ⊢
    exact ⟨hmem, h.2⟩
  case sent => exact runSend_inv h
  case receiver x l hx hl =>
    have hlast : l ≤ s.t := by
      rcases hl with rfl | rfl
      · exact h.lastSeen
      · exact Nat.le_refl _
    refine h.receiver hlast ⟨fun hn => absurd rfl hn, ?_⟩
    rcases hx with rfl | rfl | ⟨rfl, hm⟩
    · exact ⟨rfl, rfl⟩
    · exact ⟨rfl, rfl⟩
    · exact ⟨rfl, rfl, hm⟩
  case released =>
    obtain ⟨hmem, ⟨hbits, hbaud, hie, hlen, -⟩, hrest⟩ := h
    exact ⟨hmem, ⟨hbits, hbaud, hie, hlen, nofun⟩, hrest⟩
  case softReset hi ht => exact execResetSoft_inv ht h

theorem locked_eq_false (s : State) : s.locked = false ↔ s.rxs = .disabled ∧ s.txs = .idle := by
  simp [State.locked, State.txBusy]

/-- While the receiver is disabled and the transmitter idle, MODE bears on nothing else of the state (R54). -/
theorem ConfigWrite.inv (hu : ConfigWrite s u) (hx : s.rxs = .disabled) (hidle : s.txs = .idle)
    (h : InvWithin 0 s) : InvWithin 0 u := by
  obtain ⟨hmem, ⟨hbits, hbaud, hrest⟩, htime, hrx, -⟩ := h
  obtain ⟨hu, hbits', hbaud'⟩ := hu
  have hoff : s.rxAsm = [] ∧ s.rxNib = none := by simpa only [hx] using hrx.2
  have hregs : (7 ≤ u.charBits.toNat ∧ u.charBits.toNat ≤ 12) ∧ u.baud ≠ 0 := by
    constructor
    · rcases hbits' with heq | hok
      · rw [heq]
        exact hbits
      · exact hok
    · rcases hbaud' with heq | hok
      · rw [heq]
        exact hbaud
      · exact hok
  rw [hu]
  refine ⟨hmem, ⟨hregs.1, hregs.2, hrest⟩, htime, ⟨fun hn => absurd hoff.2 hn, ?_⟩, ?_⟩
  · simp only [hx]
    exact hoff
  · simp only [TransmitterWithin, hidle]

theorem WriteResult.inv {off : Nat} {v : Word} (hw : WriteResult off v s t) (h : InvWithin 0 s) :
    InvWithin 0 t := by
  cases hw
  case plain ht hie =>
    obtain ⟨hmem, ⟨hbits, hbaud, hmask, hheld⟩, hrest⟩ := h
    have hmask' : t.ie &&& ieMask = t.ie := by
      rcases hie with heq | hm
      · rw [heq, hmask]
      · exact hm
    rw [ht]
    exact ⟨hmem, ⟨hbits, hbaud, hmask', hheld⟩, hrest⟩
  case locked => exact h
  case configured u hoff hl hu =>
    obtain ⟨hx, hidle⟩ := (locked_eq_false s).1 hl
    exact hu.inv hx hidle h
  case txbuf i b => exact ⟨MemoryOk_setTx h.1 i b, h.2⟩
  case msg i w => exact ⟨MemoryOk_setMsg h.1 i w, h.2⟩
  case illegal => exact h
  case command i hoff hd hc => exact hc.inv h

theorem EventResult.inv {e : Event} (he : EventResult e s t) (h : InvWithin 0 s) : InvWithin 0 t := by
  cases he
  case answered => exact h
  case written hw => exact hw.inv h
  case received b he => exact rxCharEvent_inv b h
  case streamEnded => exact rxEosEvent_inv h
  case ticked => exact tickEvent_inv h
  case reset => exact hardwareReset_inv s

end

/-- Settles O56: each result that a step can have meets the invariant. -/
theorem stepKeepsTheInvariant : Obligations.StepKeepsTheInvariant := by
  intro s t h hstep
  exact (invWithin_zero t).1 ((step_result hstep).inv h)

/-! ## What a step leaves as it was

Time, the accumulators, the configuration and a held frame change for one reason each. `Quiet s t` says that
none of them changed; `StepEffect` adds the reasons. -/

/-- The held frame of `s` is that of `t` (R51, R100). -/
def SameHeldFrame (s t : State) : Prop :=
  (∀ i, i < 256 → t.rxbuf i = s.rxbuf i) ∧ t.rxUnit = s.rxUnit ∧ t.rxLen = s.rxLen
    ∧ t.rxTid = s.rxTid ∧ t.rxPid = s.rxPid

/-- From `s` to `t` neither time, nor an accumulator, nor the configuration, nor a held frame changed. -/
def Quiet (s t : State) : Prop :=
  t.t = s.t ∧ t.crcAcc = s.crcAcc ∧ t.lrcSum = s.lrcSum
    ∧ (t.mode = s.mode ∧ t.charBits = s.charBits ∧ t.baud = s.baud ∧ t.txDly = s.txDly)
    ∧ (s.rxValid = true → SameHeldFrame s t)

/-- `t` is `u` but for the items that hold none of what `Quiet` speaks of. -/
def SameCore (u t : State) : Prop :=
  t = { u with
    rxValid := t.rxValid, txDone := t.txDone, rxErr := t.rxErr, overrun := t.overrun
    rxtErr := t.rxtErr, err := t.err, ie := t.ie, txUnit := t.txUnit, txLen := t.txLen
    txTid := t.txTid, cntRxOk := t.cntRxOk, cntFrameErr := t.cntFrameErr, cntCrcErr := t.cntCrcErr
    cntOverrun := t.cntOverrun, rxs := t.rxs, rxAsm := t.rxAsm, rxNib := t.rxNib
    tRxLast := t.tRxLast, tLine := t.tLine, txs := t.txs, inputs := t.inputs, lineOut := t.lineOut
    hostResp := t.hostResp }

section
variable {s t u : State}

theorem Quiet.time (h : Quiet s t) : t.t = s.t := h.1

theorem Quiet.crcAcc (h : Quiet s t) : t.crcAcc = s.crcAcc := h.2.1

theorem Quiet.lrcSum (h : Quiet s t) : t.lrcSum = s.lrcSum := h.2.2.1

theorem Quiet.config (h : Quiet s t) :
    t.mode = s.mode ∧ t.charBits = s.charBits ∧ t.baud = s.baud ∧ t.txDly = s.txDly := h.2.2.2.1

theorem Quiet.held (h : Quiet s t) (hv : s.rxValid = true) : SameHeldFrame s t := h.2.2.2.2 hv

theorem Quiet.core (h : Quiet s u) (ht : SameCore u t) : Quiet s t := by
  rw [ht]
  exact h

theorem Quiet.of_core (ht : SameCore s t) : Quiet s t :=
  Quiet.core ⟨rfl, rfl, rfl, ⟨rfl, rfl, rfl, rfl⟩, fun _ => ⟨fun _ _ => rfl, rfl, rfl, rfl, rfl⟩⟩ ht

/-! ### The receiver and the transmitter -/

theorem discardFrame_quiet (cause : DiscardCause) (s : State) : Quiet s (discardFrame cause s) := by
  obtain ⟨f, c, h⟩ := discardFrame_fields cause s
  rw [h]
  exact .of_core rfl

/-- Delivery leaves a held frame alone (42_framing.md R290). -/
theorem deliver_quiet (unit : Byte) (pdu : List Byte) (tid pid : Half) (s : State) :
    Quiet s (deliver unit pdu tid pid s) := by
  unfold deliver
  split
  · exact .of_core rfl
  · exact ⟨rfl, rfl, rfl, ⟨rfl, rfl, rfl, rfl⟩, fun hv => absurd hv ‹_›⟩

theorem completeRtu_quiet (s : State) : Quiet s (completeRtu s) := by
  unfold completeRtu
  dsimp only
  split
  · exact discardFrame_quiet _ s
  · split
    · exact deliver_quiet _ _ _ _ s
    · exact discardFrame_quiet _ s

theorem completeAscii_quiet (s : State) : Quiet s (completeAscii s) := by
  unfold completeAscii
  dsimp only
  split
  · exact discardFrame_quiet _ s
  · split
    · exact deliver_quiet _ _ _ _ s
    · exact discardFrame_quiet _ s

theorem rtuChar_quiet (b : Byte) (s : State) : Quiet s (rtuChar b s) := by
  unfold rtuChar
  split
  · exact .of_core rfl
  · exact .of_core rfl
  · dsimp only
    split
    · split <;> exact .of_core rfl
    · split
      · exact .of_core rfl
      · exact (completeRtu_quiet s).core rfl
  · split <;> exact .of_core rfl
  · exact .of_core rfl

theorem rtuTimeCheck_quiet (s : State) : Quiet s (rtuTimeCheck s) := by
  unfold rtuTimeCheck
  split
  · split
    · exact (completeRtu_quiet s).core rfl
    all_goals exact .of_core rfl
  · exact .of_core rfl

theorem asciiStart_quiet (s : State) : Quiet s (asciiStart s) := by
  unfold asciiStart
  dsimp only
  split <;> exact .of_core rfl

theorem asciiDigit_quiet (v : BitVec 4) (s : State) : Quiet s (asciiDigit v s) := by
  unfold asciiDigit
  split
  · exact .of_core rfl
  · split <;> exact .of_core rfl

theorem asciiChar_quiet (c : Byte) (s : State) : Quiet s (asciiChar c s) := by
  unfold asciiChar
  split
  · exact .of_core rfl
  · split
    · exact asciiStart_quiet s
    · exact .of_core rfl
  · split
    · exact asciiStart_quiet s
    · split
      · exact asciiDigit_quiet _ s
      · split <;> exact .of_core rfl
  · split
    · exact asciiStart_quiet s
    · split
      · exact (completeAscii_quiet s).core rfl
      · exact .of_core rfl
  · split
    · exact asciiStart_quiet s
    · exact .of_core rfl

theorem streamChar_quiet (b : Byte) (s : State) : Quiet s (streamChar b s) := by
  have hdeliver : ∀ unit pdu tid pid,
      Quiet s (deliver unit pdu tid pid { s with rxAsm := s.rxAsm ++ [b] }) :=
    fun unit pdu tid pid => deliver_quiet unit pdu tid pid { s with rxAsm := s.rxAsm ++ [b] }
  unfold streamChar
  split
  · exact .of_core rfl
  · exact .of_core rfl
  · exact .of_core rfl
  · dsimp only
    split
    · exact .of_core rfl
    · split
      · exact (hdeliver _ _ _ _).core rfl
      · exact .of_core rfl
  · exact .of_core rfl

theorem rxCharEvent_quiet (b : Byte) (s : State) : Quiet s (rxCharEvent b s) := by
  unfold rxCharEvent
  split
  · exact rtuChar_quiet b { s with tLine := s.t }
  · exact asciiChar_quiet b { s with tLine := s.t }
  · exact streamChar_quiet b s

theorem rxEosEvent_quiet (s : State) : Quiet s (rxEosEvent s) := by
  unfold rxEosEvent
  split <;> exact .of_core rfl

theorem UpToTransmitter.core (h : UpToTransmitter t u) : SameCore u t := by
  rw [h]
  rfl

/-- A Tick changes no more than `t` of what `Quiet` speaks of. -/
theorem tickEvent_quiet (s : State) : Quiet { s with t := s.t + 1 } (tickEvent s) :=
  (rtuTimeCheck_quiet { s with t := s.t + 1 }).core (txStep_upTo _).core

/-! ### Commands and writes -/

/-- Filling a RAM changes no byte outside that RAM. -/
theorem Memory.lookup_fillEntries_outside {addr : Nat → Nat} {limit a : Nat} (bs : List Byte) {i : Nat}
    {m : Memory} (h : ∀ k, k < limit → a ≠ addr k) :
    Memory.lookup (Memory.fillEntries addr limit i m bs) a = Memory.lookup m a := by
  induction bs generalizing i m with
  | nil => rfl
  | cons b bs ih =>
    rw [Memory.fillEntries, ih, Memory.storeEntry]
    split
    · exact Memory.lookup_store_other (h i ‹_›)
    · rfl

/-- RXBUF is no part of TXBUF (R31). -/
theorem rxbuf_fillTxbuf {i j : Nat} (bs : List Byte) (hi : i < 256) :
    (s.fillTxbuf j bs).rxbuf i = s.rxbuf i := by
  refine State.readByte_eq_of_lookup rfl (Memory.lookup_fillEntries_outside bs fun k hk => ?_)
  simp only [rxbufAddr, txbufAddr]
  simp only [Config.bufN] at hk
  omega

/-- RXBUF is no part of MSG (R31). -/
theorem rxbuf_fillMsg {i j : Nat} (ws : List Word) (hi : i < 256) :
    (s.fillMsg j ws).rxbuf i = s.rxbuf i := by
  refine State.readByte_fillMsg_other fun k _ _ => ?_
  simp only [rxbufAddr, msgAddr]
  omega

/-- A change of the memory that leaves RXBUF alone. -/
theorem Quiet.of_memory {m : Memory} {n : BitVec 9} {c : ErrCode}
    (h : ∀ i, i < 256 → { s with mem := m }.rxbuf i = s.rxbuf i) :
    Quiet s { s with mem := m, txLen := n, err := c } :=
  ⟨rfl, rfl, rfl, ⟨rfl, rfl, rfl, rfl⟩, fun _ => ⟨h, rfl, rfl, rfl, rfl⟩⟩

/-- Running a message's row leaves RXBUF alone (40_codec.md R162, R163). -/
theorem runMessage_quiet (op : CodecOp) (m : Message) (s : State) : Quiet s (runMessage op m s) := by
  cases op
  · exact .of_memory fun i hi => rxbuf_fillTxbuf _ hi
  · have hrx : ∀ i, i < 256 → (filled m s).rxbuf i = s.rxbuf i := by
      intro i hi
      rw [filled, rxbuf_fillMsg _ hi, rxbuf_fillMsg _ hi]
      exact rxbuf_fillMsg (s := s) (j := 0) [m.fc.setWidth 32] hi
    obtain ⟨w, hw⟩ := filled_eq m s
    rw [hw] at hrx
    rw [runMessage_unpack_eq, hw]
    exact .of_memory hrx

theorem runSend_quiet (s : State) : Quiet s (runSend s) := by
  unfold runSend
  split
  · exact .of_core rfl
  · split
    · exact .of_core rfl
    · split
      · exact .of_core rfl
      all_goals
        refine Quiet.core ?_ (txStep_upTo _).core
        exact .of_core rfl

end

/-- What the event `e` can change from `s` to `t` of what `Quiet` speaks of. -/
inductive StepEffect (e : Event) (s t : State) : Prop
  | quiet (he : e ≠ .tick) (h : Quiet s t)
  /-- CRC.INIT or CRC.FEED. -/
  | crc (v : Word) (he : e = .busWrite .word 0x010 v)
    (hd : decode (.command v) = .ok .crcInit ∨ ∃ b, decode (.command v) = .ok (.crcFeed b))
    (h : Quiet { s with crcAcc := t.crcAcc } t)
  /-- LRC.INIT or LRC.FEED. -/
  | lrc (v : Word) (he : e = .busWrite .word 0x010 v)
    (hd : decode (.command v) = .ok .lrcInit ∨ ∃ b, decode (.command v) = .ok (.lrcFeed b))
    (h : Quiet { s with lrcSum := t.lrcSum } t)
  /-- An unlocked write of CFG, BAUD or TXDLY. -/
  | configured (he : e ≠ .tick) (hl : s.locked = false)
    (h : Quiet { s with
      mode := t.mode, charBits := t.charBits, baud := t.baud, txDly := t.txDly } t)
  | ticked (he : e = .tick) (h : Quiet { s with t := s.t + 1 } t)
  | softReset (he : e = .busWrite .word 0x010 0x000000FF) (h : t.t = s.t)
  | reset (he : e = .reset)

section
variable {s t u : State}

/-- A plain command takes no DATA and no DIR (30_encoding.md R123). -/
theorem plainCommand_ok {v : Word} {i j : Instr} (h : plainCommand v i = .ok j) :
    dataField v = 0 ∧ dirField v = false ∧ i = j := by
  unfold plainCommand at h
  split at h
  · cases h
  · split at h
    · cases h
    · exact ⟨not_not.mp ‹_›, Bool.eq_false_of_not_eq_true ‹_›, Except.ok.inj h⟩

/-- RESET.SOFT has one command word (30_encoding.md R121, R123). -/
theorem decode_resetSoft {v : Word} (h : decode (.command v) = .ok .resetSoft) : v = 0x000000FF := by
  simp only [decode, decodeCommand] at h
  split at h
  · cases h
  · rename_i hres
    by_cases hop : (opField v).toNat = 0xFF
    · simp only [hop] at h
      obtain ⟨hdata, hdir, -⟩ := plainCommand_ok h
      rw [not_not, reservedField_eq_zero] at hres
      rw [dataField_eq_zero] at hdata
      rw [dirField_eq, decide_eq_false_iff_not] at hdir
      rw [opField_toNat] at hop
      apply BitVec.eq_of_toNat_eq
      change v.toNat = 255
      omega
    · simp only [plainCommand, dataCommand, dirCommand] at h
      repeat' split at h
      all_goals simp_all

theorem CommandResult.effect {v : Word} {i : Instr} (hd : decode (.command v) = .ok i)
    (hc : CommandResult i s t) : StepEffect (.busWrite .word 0x010 v) s t := by
  cases hc
  case ended => exact .quiet nofun (.of_core rfl)
  case crc c hi =>
    refine .crc v rfl ?_ (.of_core rfl)
    rcases hi with rfl | ⟨b, rfl⟩
    · exact .inl hd
    · exact .inr ⟨b, hd⟩
  case lrc c hi =>
    refine .lrc v rfl ?_ (.of_core rfl)
    rcases hi with rfl | ⟨b, rfl⟩
    · exact .inl hd
    · exact .inr ⟨b, hd⟩
  case message op m => exact .quiet nofun (runMessage_quiet op m s)
  case sent => exact .quiet nofun (runSend_quiet s)
  case receiver => exact .quiet nofun (.of_core rfl)
  case released => exact .quiet nofun (.of_core rfl)
  case softReset hi ht =>
    subst hi
    obtain rfl := Host.Outcome.next.inj ht
    exact .softReset (by rw [decode_resetSoft hd]) rfl

theorem WriteResult.effect {off : Nat} {v : Word} (hw : WriteResult off v s t) :
    StepEffect (.busWrite .word off v) s t := by
  cases hw
  case plain ht hie =>
    refine .quiet nofun ?_
    rw [ht]
    exact .of_core rfl
  case locked => exact .quiet nofun (.of_core rfl)
  case configured u hoff hl hu =>
    refine .configured nofun hl ?_
    rw [hu.1]
    exact .of_core rfl
  case txbuf i b => exact .quiet nofun (.of_memory fun _ hi => rxbuf_fillTxbuf [b] hi)
  case msg i w => exact .quiet nofun (.of_memory fun _ hi => rxbuf_fillMsg [w] hi)
  case illegal => exact .quiet nofun (.of_core rfl)
  case command i hoff hd hc =>
    subst hoff
    exact hc.effect hd

/-- The model's own fields are not among what `Quiet` speaks of. -/
theorem StepEffect.of_event {e : Event} {es : List Event} {r : HostResponse}
    (h : StepEffect e { s with inputs := es, hostResp := r } t) : StepEffect e s t := by
  cases h
  case quiet he hq => exact .quiet he hq
  case crc v he hd hq => exact .crc v he hd hq
  case lrc v he hd hq => exact .lrc v he hd hq
  case configured he hl hq => exact .configured he hl hq
  case ticked he hq => exact .ticked he hq
  case softReset he ht => exact .softReset he ht
  case reset he => exact .reset he

theorem EventResult.effect {e : Event} (h : EventResult e s t) : StepEffect e s t := by
  cases h
  case answered he => exact .quiet he (.of_core rfl)
  case written off v he hw =>
    subst he
    exact hw.effect.of_event
  case received b he => exact .quiet (by rw [he]; nofun) (rxCharEvent_quiet b s)
  case streamEnded he => exact .quiet (by rw [he]; nofun) (rxEosEvent_quiet s)
  case ticked he => exact .ticked he (tickEvent_quiet s)
  case reset he => exact .reset he

theorem step_effect (h : step s = .next t) : StepEffect (nextEvent s) s t :=
  (step_result h).effect.of_event

end

/-! ### The four rules -/

/-- Settles O28: of the effects of a step only the two accumulators' own commands change them. -/
theorem accumulatorsChangeOnlyByCommand : Obligations.AccumulatorsChangeOnlyByCommand := by
  intro s t hstep hreset hsoft
  cases step_effect hstep
  case quiet he hq => exact ⟨fun _ => hq.crcAcc, fun _ => hq.lrcSum⟩
  case crc v he hd hq =>
    refine ⟨fun hno => ?_, fun _ => hq.lrcSum⟩
    obtain ⟨hinit, hfeed⟩ := hno v he
    rcases hd with hd | ⟨b, hd⟩
    · exact absurd hd hinit
    · exact absurd hd (hfeed b)
  case lrc v he hd hq =>
    refine ⟨fun _ => hq.crcAcc, fun hno => ?_⟩
    obtain ⟨hinit, hfeed⟩ := hno v he
    rcases hd with hd | ⟨b, hd⟩
    · exact absurd hd hinit
    · exact absurd hd (hfeed b)
  case configured he hl hq => exact ⟨fun _ => hq.crcAcc, fun _ => hq.lrcSum⟩
  case ticked he hq => exact ⟨fun _ => hq.crcAcc, fun _ => hq.lrcSum⟩
  case softReset he ht => exact absurd he hsoft
  case reset he => exact absurd he hreset

/-- Settles O57: of the effects of a step only a Tick's and the hardware reset's change `t`. -/
theorem timeAdvancesByTicksOnly : Obligations.TimeAdvancesByTicksOnly := by
  intro s t hstep hreset
  cases step_effect hstep
  case quiet he hq => rw [if_neg he, hq.time]
  case crc v he hd hq => rw [he, if_neg nofun, hq.time]
  case lrc v he hd hq => rw [he, if_neg nofun, hq.time]
  case configured he hl hq => rw [if_neg he, hq.time]
  case ticked he hq => rw [if_pos he, hq.time]
  case softReset he ht => rw [he, if_neg nofun, ht]
  case reset he => exact absurd he hreset

/-- Settles O58: no effect of a step but a reset's reaches a held frame. -/
theorem heldFrameIsStable : Obligations.HeldFrameIsStable := by
  intro s t hstep hvalid hreset hsoft
  cases step_effect hstep
  case softReset he ht => exact absurd he hsoft
  case reset he => exact absurd he hreset
  case quiet hq => exact hq.held hvalid
  case crc hq => exact hq.held hvalid
  case lrc hq => exact hq.held hvalid
  case configured hq => exact hq.held hvalid
  case ticked hq => exact hq.held hvalid

/-- Settles O59: the one effect of a step that changes the configuration is that of an unlocked write. -/
theorem configurationIsLockedWhileActive : Obligations.ConfigurationIsLockedWhileActive := by
  intro s t hstep hactive hreset hsoft
  cases step_effect hstep
  case softReset he ht => exact absurd he hsoft
  case reset he => exact absurd he hreset
  case configured he hl hq =>
    obtain ⟨hx, hidle⟩ := (locked_eq_false s).1 hl
    rcases hactive with h | h
    · exact absurd hx h
    · exact absurd hidle h
  case quiet hq => exact hq.config
  case crc hq => exact hq.config
  case lrc hq => exact hq.config
  case ticked hq => exact hq.config

/-! ## The registers

What each register and RAM entry reads as, in numbers, and what a host write does to it. -/

/-! ### Reads -/

/-- Concatenation of fields, as arithmetic. -/
theorem toNat_append_eq {m n : Nat} (x : BitVec m) (y : BitVec n) :
    (x ++ y).toNat = 2 ^ n * x.toNat + y.toNat := by
  rw [BitVec.toNat_append, ← Nat.shiftLeft_add_eq_or_of_lt y.isLt, Nat.shiftLeft_eq, Nat.mul_comm]

theorem Mode.code_toNat (m : Mode) :
    m.code.toNat = match m with | .rtu => 0 | .ascii => 1 | .stream => 2 := by
  cases m <;> rfl

theorem RxState.code_toNat (x : RxState) :
    x.code.toNat = match x with
      | .disabled => 0 | .idle => 1 | .receiving => 2 | .gotCr => 2 | .error => 3 := by
  cases x <;> rfl

theorem ErrCode.code_toNat (e : ErrCode) :
    e.code.toNat = match e with
      | .ok => 0 | .illegalCmd => 1 | .busy => 2 | .malformed => 3 | .range => 4
      | .unsupportedFc => 5 | .noFrame => 6 | .locked => 7 := by
  cases e <;> rfl

theorem txBusy_eq (s : State) : s.txBusy = decide (s.txs ≠ .idle) := by
  simp [State.txBusy, bne, BEq.beq]

/-- The flags of STATUS, bit by bit (R37). -/
theorem statusLow_toNat (s : State) :
    s.statusLow.toNat = s.rxValid.toNat + 2 * s.txBusy.toNat + 4 * s.txDone.toNat
      + 8 * s.rxErr.toNat + 16 * s.overrun.toNat + 32 * s.rxtErr.toNat := by
  simp only [State.statusLow, toNat_append_eq, BitVec.toNat_ofBool]
  omega

theorem statusWord_toNat (s : State) :
    s.statusWord.toNat = s.statusLow.toNat + 64 * s.rxs.code.toNat + 256 * s.err.code.toNat := by
  simp only [State.statusWord, toNat_append_eq, BitVec.toNat_ofNat]
  omega

theorem lrcOfSum_toNat (b : Byte) : (lrcOfSum b).toNat = (256 - b.toNat) % 256 := by
  simp [lrcOfSum]

/-- A field narrower than a word reads as its value. -/
theorem toNat_setWidth_word {n : Nat} (x : BitVec n) (h : n ≤ 32) : (x.setWidth 32).toNat = x.toNat :=
  BitVec.toNat_setWidth_of_le h

theorem readCfg_toNat (s : State) :
    (readRegister .cfg s).toNat = s.mode.code.toNat + 16 * s.charBits.toNat := by
  simp only [readRegister, toNat_append_eq, BitVec.toNat_ofNat]
  omega

theorem readLrc_toNat (s : State) :
    (readRegister .lrc s).toNat = 256 * s.lrcSum.toNat + (256 - s.lrcSum.toNat) % 256 := by
  simp only [readRegister, toNat_append_eq, BitVec.toNat_ofNat, lrcOfSum_toNat]
  omega

/-- Settles O14: the register map, then each register's fields as arithmetic. -/
theorem registerReadValues : Obligations.RegisterReadValues := by
  intro s value
  have hreg : ∀ r : RegName, value r.offset = (readRegister r s).toNat := fun r =>
    congrArg (fun g => (readTarget g s).toNat) (targetAt_reg r)
  have hentry : ∀ {off : Nat} {g : Target}, targetAt off = g → value off = (readTarget g s).toNat :=
    fun h => congrArg (fun g => (readTarget g s).toNat) h
  have hstatus : (readRegister .status s).toNat = _ := statusWord_toNat s
  rw [statusLow_toNat, txBusy_eq, RxState.code_toNat, ErrCode.code_toNat] at hstatus
  have hcfg := readCfg_toNat s
  rw [Mode.code_toNat] at hcfg
  refine ⟨hreg .id, (hreg .cfg).trans hcfg, (hreg .status).trans hstatus,
    (hreg .ie).trans (toNat_setWidth_word _ (by decide)), hreg .cmd,
    (hreg .crc).trans (toNat_setWidth_word _ (by decide)), (hreg .lrc).trans (readLrc_toNat s),
    hreg .baud, hreg .txdly, (hreg .txunit).trans (toNat_setWidth_word _ (by decide)),
    (hreg .txlen).trans (toNat_setWidth_word _ (by decide)),
    (hreg .txtid).trans (toNat_setWidth_word _ (by decide)),
    (hreg .rxunit).trans (toNat_setWidth_word _ (by decide)),
    (hreg .rxlen).trans (toNat_setWidth_word _ (by decide)),
    (hreg .rxtid).trans (toNat_setWidth_word _ (by decide)),
    (hreg .rxpid).trans (toNat_setWidth_word _ (by decide)),
    (hreg .now).trans (BitVec.toNat_ofNat s.t 32), hreg .cntRxok, hreg .cntFrameerr, hreg .cntCrcerr,
    hreg .cntOverrun, fun i hi => ?_, fun i hi => ?_, fun i hi => hentry (targetAt_msg hi)⟩
  · exact (hentry (targetAt_txbuf hi)).trans (toNat_setWidth_word _ (by decide))
  · exact (hentry (targetAt_rxbuf hi)).trans (toNat_setWidth_word _ (by decide))

/-! ### Writes -/

/-- The state in which an accepted write runs: its event is consumed and it is acknowledged. -/
def acknowledged (s : State) (rest : List Event) : State := { s with inputs := rest, hostResp := .done }

theorem step_writeTarget {s : State} {off : Nat} {v : Word} {rest : List Event}
    (h : writesNext s off v rest) (ha : off % 4 = 0) (hl : off < 0x8000) :
    step s = writeTarget (targetAt off) v (acknowledged s rest) := step_write h ha hl

/-- An accepted write to a register is that register's write rule (20_memory.md R91). -/
theorem step_writeRegister {s : State} {v : Word} {rest : List Event} (r : RegName)
    (h : writesNext s r.offset v rest) :
    step s = writeRegister r v (acknowledged s rest) := by
  rw [step_writeTarget h (by cases r <;> decide) (by cases r <;> decide), targetAt_reg, writeTarget]

/-- The low bits of a word, as arithmetic. -/
theorem setWidth_eq_ofNat_mod (v : Word) (w : Nat) : v.setWidth w = BitVec.ofNat w (v.toNat % 2 ^ w) := by
  apply BitVec.eq_of_toNat_eq
  simp

/-- Settles O7: the write reaches CMD, and CMD runs what the word decodes to. -/
theorem stepRunsDecodedCommand : Obligations.StepRunsDecodedCommand := by
  intro s v rest i h hd
  rw [step_writeRegister .cmd h, writeRegister, issueCommand, hd]
  rfl

/-- Settles O17: a reserved offset names nothing. -/
theorem reservedOffsetsReadZero : Obligations.ReservedOffsetsReadZero := by
  intro s off v rest h4 hr
  have hl : off < 0x8000 := by omega
  have hg : targetAt off = .reserved := targetAt_reserved (by omega)
  refine ⟨fun h => ?_, fun h => ?_⟩
  · rw [step_read h h4 hl, hg, readTarget]
  · rw [step_writeTarget h h4 hl, hg]
    rfl

theorem lockable_unlocked {s : State} (hx : s.rxs = .disabled) (ht : s.txs = .idle)
    (f : State → State) : lockable f s = commandDone (f s) := by
  rw [lockable, (locked_eq_false s).2 ⟨hx, ht⟩]
  rfl

theorem lockable_locked {s : State} (h : s.rxs ≠ .disabled ∨ s.txs ≠ .idle) (f : State → State) :
    lockable f s = raiseCmdError .locked s := by
  have hl : s.locked = true := by
    by_contra hc
    obtain ⟨hx, ht⟩ := (locked_eq_false s).1 (Bool.eq_false_of_not_eq_true hc)
    rcases h with h | h
    · exact h hx
    · exact h ht
  rw [lockable, if_pos hl]

/-- A write to one of the three lockable registers goes through the lock (R54). -/
theorem step_lockable {s : State} {off : Nat} {v : Word} {rest : List Event} (hoff : IsConfigOffset off)
    (h : writesNext s off v rest) :
    ∃ f, step s = .next (lockable f (acknowledged s rest)) := by
  rcases hoff with rfl | rfl | rfl
  · exact ⟨_, step_writeRegister .cfg h⟩
  · exact ⟨_, step_writeRegister .baud h⟩
  · exact ⟨_, step_writeRegister .txdly h⟩

/-- A write of a register that is neither lockable nor CMD leaves ERR as it was (R54). -/
theorem WriteResult.err_eq {off : Nat} {v : Word} {s t : State} (hw : WriteResult off v s t)
    (hoff : ¬ IsConfigOffset off) (hcmd : off ≠ 0x010) : t.err = s.err := by
  cases hw
  case plain ht hie => rw [ht]
  case locked h => exact absurd h hoff
  case configured h _ _ => exact absurd h hoff
  case txbuf => rfl
  case msg => rfl
  case illegal h => exact absurd h hcmd
  case command h _ _ => exact absurd h hcmd

/-- Settles O18: the lock's two sides, and the writes that do not go through it. -/
theorem lockedRegisterWrites : Obligations.LockedRegisterWrites := by
  intro s off v rest h
  refine ⟨fun hoff => ?_, fun h1 h2 h3 hcmd t hstep => ?_⟩
  · obtain ⟨f, hf⟩ := step_lockable hoff h
    refine ⟨fun hactive => ?_, fun hidle => ?_⟩
    · rw [hf, lockable_locked (s := acknowledged s rest) hactive]
      rfl
    · rw [hf, lockable_unlocked (s := acknowledged s rest) hidle.1 hidle.2]
      exact ⟨_, rfl, rfl⟩
  · have he : nextEvent s = .busWrite .word off v := by rw [nextEvent, h]
    have hres := step_result hstep
    rw [he] at hres
    cases hres
    case answered => rfl
    case written he hw =>
      cases he
      exact hw.err_eq (by rintro (h | h | h) <;> contradiction) hcmd
    all_goals contradiction

theorem modeOfField_getD (v : Word) (m : Mode) :
    (modeOfField (v.extractLsb' 0 2)).getD m
      = if v.toNat % 4 = 0 then .rtu else if v.toNat % 4 = 1 then .ascii
        else if v.toNat % 4 = 2 then .stream else m := by
  have hv : (v.extractLsb' 0 2).toNat = v.toNat % 4 := by simp
  rw [modeOfField, hv]
  split <;> simp_all

theorem charBitsField_toNat (v : Word) :
    (BitVec.ofNat 4 (v.toNat / 16 % 16)).toNat = v.toNat / 16 % 16 := by
  simp

/-- The field of CHARBITS in a word written to CFG (R33). -/
theorem charBitsField_eq (v : Word) : v.extractLsb' 4 4 = BitVec.ofNat 4 (v.toNat / 16 % 16) := by
  apply BitVec.eq_of_toNat_eq
  simp [Nat.shiftRight_eq_div_pow]

/-- Settles O19: the unlocked write of each of the three registers. -/
theorem configurationWrites : Obligations.ConfigurationWrites := by
  intro s v rest hx ht
  refine ⟨fun h => ?_, fun h => ?_, fun h => ?_⟩
  · rw [step_writeRegister .cfg h, writeRegister, lockable_unlocked (s := acknowledged s rest) hx ht,
      writeCfg, modeOfField_getD, charBitsField_eq, charBitsField_toNat]
    rfl
  · rw [step_writeRegister .baud h, writeRegister, lockable_unlocked (s := acknowledged s rest) hx ht, writeBaud]
    split <;> rfl
  · rw [step_writeRegister .txdly h, writeRegister, lockable_unlocked (s := acknowledged s rest) hx ht]
    rfl

/-- Settles O20: bit `k` of a word is bit `k` of its number. -/
theorem statusWriteClearsOnlyOnes : Obligations.StatusWriteClearsOnlyOnes := by
  intro s v rest h
  rw [step_writeRegister .status h]
  rfl

/-- Settles O21, register by register. -/
theorem plainRegisterWrites : Obligations.PlainRegisterWrites := by
  intro s v rest done
  refine ⟨fun h => ?_, fun h => ?_, fun h => ?_, fun h => ?_, step_writeRegister .cntRxok,
    step_writeRegister .cntFrameerr, step_writeRegister .cntCrcerr, step_writeRegister .cntOverrun,
    fun off hoff h => ?_⟩
  · rw [step_writeRegister .ie h, writeRegister, setWidth_eq_ofNat_mod]
    rfl
  · rw [step_writeRegister .txunit h, writeRegister, setWidth_eq_ofNat_mod]
    rfl
  · rw [step_writeRegister .txlen h, writeRegister, setWidth_eq_ofNat_mod]
    rfl
  · rw [step_writeRegister .txtid h, writeRegister, setWidth_eq_ofNat_mod]
    rfl
  · simp only [List.mem_cons, List.not_mem_nil, or_false] at hoff
    rcases hoff with rfl | rfl | rfl | rfl | rfl | rfl | rfl | rfl
    · exact step_writeRegister .id h
    · exact step_writeRegister .crc h
    · exact step_writeRegister .lrc h
    · exact step_writeRegister .rxunit h
    · exact step_writeRegister .rxlen h
    · exact step_writeRegister .rxtid h
    · exact step_writeRegister .rxpid h
    · exact step_writeRegister .now h

/-! ### RAM entries -/

theorem State.txbuf_setTxbuf {s : State} {i : Nat} {b : Byte} (hi : i < 256) :
    (s.setTxbuf i b).txbuf i = b := by
  refine State.readByte_of_lookup ?_
  rw [State.setTxbuf_mem, Memory.storeEntry, Config.bufN, if_pos hi, Memory.lookup_store_same]

theorem State.readByte_setTxbuf_other {s : State} {i a : Nat} {b : Byte} (ha : a ≠ txbufAddr i) :
    (s.setTxbuf i b).readByte a = s.readByte a := by
  refine State.readByte_eq_of_lookup rfl ?_
  rw [State.setTxbuf_mem, Memory.storeEntry]
  split
  · exact Memory.lookup_store_other ha
  · rfl

/-- Settles O22: a store is read back, and every other byte stays. -/
theorem ramWritesReadBack : Obligations.RamWritesReadBack := by
  intro s i v rest
  refine ⟨fun hi h => ?_, fun hi h => ?_, fun hi h => ?_⟩
  · rw [step_writeTarget h (by omega) (by omega), targetAt_txbuf hi]
    refine ⟨(acknowledged s rest).setTxbuf i (v.setWidth 8), rfl, rfl, ?_, fun a ha => ?_⟩
    · rw [setWidth_eq_ofNat_mod]
      exact State.txbuf_setTxbuf hi
    · exact State.readByte_setTxbuf_other ha
  · rw [step_writeTarget h (by omega) (by omega), targetAt_rxbuf hi]
    rfl
  · rw [step_writeTarget h (by omega) (by omega), targetAt_msg hi]
    refine ⟨(acknowledged s rest).setMsg i v, rfl, rfl, State.msg_setMsg hi, fun a ha => ?_⟩
    exact State.readByte_eq_of_lookup rfl (Memory.lookup_storeWord_other ha)

end Sys2Proof.Machine
end

section
/-! PROOF. The statements of 20_memory.md: reads and accesses outside the aperture leave the block as it was,
and a latched frame is kept. The receiver never touches the transmitter, a command or a write never touches a
busy one, and a Tick starts it or ends it. -/

namespace Sys2Proof.Machine

/-! ## Accesses -/

/-- Settles O13: a read answers and consumes its event. -/
theorem readChangesNothing : Obligations.ReadChangesNothing := by
  intro s off rest hoff h
  obtain ⟨ha, hl⟩ := hoff
  exact step_read h ha hl

theorem busRead_outside {size : AccessSize} {off : Nat} (h : 0x8000 ≤ off) (s : State) :
    busRead size off s = .next (noResponse s) := if_pos h

theorem busWrite_outside {size : AccessSize} {off : Nat} {v : Word} (h : 0x8000 ≤ off) (s : State) :
    busWrite size off v s = .next (noResponse s) := if_pos h

/-- Settles O16: a read and a write outside the aperture both end without a response. -/
theorem outsideApertureChangesNothing : Obligations.OutsideApertureChangesNothing := by
  intro s size off v rest hoff h
  rcases h with h | h
  · rw [step_busRead h, busRead_outside hoff]
    rfl
  · rw [step_busWrite h, busWrite_outside hoff]
    rfl

/-! ## The receiver leaves the transmitter alone -/

@[simp] theorem discardFrame_txs (cause : DiscardCause) (s : State) :
    (discardFrame cause s).txs = s.txs := by
  cases cause <;> rfl

@[simp] theorem deliver_txs (unit : Byte) (pdu : List Byte) (tid pid : Half) (s : State) :
    (deliver unit pdu tid pid s).txs = s.txs := by
  unfold deliver
  split <;> rfl

@[simp] theorem completeRtu_txs (s : State) : (completeRtu s).txs = s.txs := by
  unfold completeRtu
  dsimp only
  repeat' split
  all_goals simp

@[simp] theorem completeAscii_txs (s : State) : (completeAscii s).txs = s.txs := by
  unfold completeAscii
  dsimp only
  repeat' split
  all_goals simp

@[simp] theorem completeStream_txs (s : State) : (completeStream s).txs = s.txs := by
  simp [completeStream]

@[simp] theorem rtuChar_txs (b : Byte) (s : State) : (rtuChar b s).txs = s.txs := by
  unfold rtuChar
  dsimp only
  repeat' split
  all_goals simp

@[simp] theorem rtuTimeCheck_txs (s : State) : (rtuTimeCheck s).txs = s.txs := by
  unfold rtuTimeCheck
  repeat' split
  all_goals simp

@[simp] theorem asciiStart_txs (s : State) : (asciiStart s).txs = s.txs := by
  unfold asciiStart
  dsimp only
  split <;> simp

@[simp] theorem asciiDigit_txs (v : BitVec 4) (s : State) : (asciiDigit v s).txs = s.txs := by
  unfold asciiDigit
  repeat' split
  all_goals simp

@[simp] theorem asciiChar_txs (c : Byte) (s : State) : (asciiChar c s).txs = s.txs := by
  unfold asciiChar
  repeat' split
  all_goals simp

@[simp] theorem streamChar_txs (b : Byte) (s : State) : (streamChar b s).txs = s.txs := by
  unfold streamChar
  dsimp only
  repeat' split
  all_goals simp

theorem rxCharEvent_txs (b : Byte) (s : State) : (rxCharEvent b s).txs = s.txs := by
  unfold rxCharEvent
  split <;> simp

theorem rxEosEvent_txs (s : State) : (rxEosEvent s).txs = s.txs := by
  unfold rxEosEvent
  split <;> simp

/-! ## Between Ticks a busy transmitter stays as it is -/

section
variable {s t : State}

/-- TX.SEND answers BUSY (42_framing.md R299). -/
theorem runSend_busy (h : s.txs ≠ .idle) : runSend s = raiseCmdError .busy s := by
  rw [runSend, txBusy_eq, if_pos (decide_eq_true h)]

theorem CommandResult.txs_eq {i : Instr} (hc : CommandResult i s t) (hbusy : s.txs ≠ .idle)
    (hi : i ≠ .resetSoft) : t.txs = s.txs := by
  cases hc
  case message op m =>
    obtain ⟨w, n, hw⟩ := runMessage_fields op m s
    rw [hw]
  case sent => rw [runSend_busy hbusy, raiseCmdError_txs]
  case softReset h ht => exact absurd h hi
  all_goals rfl

theorem WriteResult.txs_eq {off : Nat} {v : Word} (hw : WriteResult off v s t) (hbusy : s.txs ≠ .idle)
    (hsoft : ¬(off = 0x010 ∧ v = 0x000000FF)) : t.txs = s.txs := by
  cases hw
  case plain ht hie => rw [ht]
  case configured u hoff hl hu => exact absurd ((locked_eq_false s).1 hl).2 hbusy
  case command i hoff hd hc =>
    refine hc.txs_eq hbusy fun hi => hsoft ⟨hoff, decode_resetSoft ?_⟩
    rw [hd, hi]
  all_goals rfl

theorem EventResult.txs_eq {e : Event} (he : EventResult e s t) (hbusy : s.txs ≠ .idle)
    (hsoft : e ≠ .busWrite .word 0x010 0x000000FF) (hreset : e ≠ .reset) (htick : e ≠ .tick) :
    t.txs = s.txs := by
  cases he
  case answered => rfl
  case written off v he hw =>
    refine hw.txs_eq hbusy fun ⟨hoff, hv⟩ => hsoft ?_
    rw [he, hoff, hv]
  case received b he => exact rxCharEvent_txs b s
  case streamEnded => exact rxEosEvent_txs s
  case ticked h => exact absurd h htick
  case reset h => exact absurd h hreset

end

/-! ## What a Tick makes of a transmission -/

section
variable {s : State} {f : List Byte}

/-- Before its end a transmission goes on (42_framing.md R300). -/
theorem txSendStep_running {ts : Nat} (h : s.txs = .send f ts) (ht : s.t ≠ ts + s.charStart f.length) :
    (txSendStep s).txs = .send f ts := by
  simp only [txSendStep, h]
  rw [if_neg ht, emitAll_txs, h]

/-- At its end a transmission is over, and TXDONE says so (42_framing.md R300). -/
theorem txSendStep_ended {ts : Nat} (h : s.txs = .send f ts) (ht : s.t = ts + s.charStart f.length) :
    (txSendStep s).txs = .idle ∧ (txSendStep s).txDone = true := by
  simp only [txSendStep, h]
  rw [if_pos ht]
  exact ⟨rfl, rfl⟩

theorem txStep_t (s : State) : (txStep s).t = s.t := by rw [txStep_upTo s]

/-- A transmission that is running goes on or ends. -/
theorem txStep_send {ts : Nat} (h : s.txs = .send f ts) :
    (txStep s).txs = .send f ts ∨ ((txStep s).txs = .idle ∧ (txStep s).txDone = true) := by
  have hstart : txStart s = s := by simp only [txStart, h]
  rw [txStep, hstart]
  by_cases ht : s.t = ts + s.charStart f.length
  · exact .inr (txSendStep_ended h ht)
  · exact .inl (txSendStep_running h ht)

/-- A transmission that is waiting stays or starts now: a frame that takes time does not end where it
starts. -/
theorem txStep_wait {tCmd : Nat} (h : s.txs = .wait f tCmd) (hpos : 0 < s.charStart f.length) :
    (txStep s).txs = .wait f tCmd ∨ (txStep s).txs = .send f s.t := by
  by_cases hm : s.mayStart = true
  · have hstart : txStart s = { s with txs := .send f s.t } := by simp only [txStart, h, if_pos hm]
    rw [txStep, hstart]
    exact .inr (txSendStep_running rfl (Nat.ne_of_lt (Nat.lt_add_of_pos_right hpos)))
  · have hstart : txStart s = s := by simp only [txStart, h, if_neg hm]
    rw [txStep, hstart]
    exact .inl (by simp only [txSendStep, h])

theorem tickEvent_send {ts : Nat} (h : s.txs = .send f ts) :
    (tickEvent s).txs = .send f ts ∨ ((tickEvent s).txs = .idle ∧ (tickEvent s).txDone = true) :=
  txStep_send ((rtuTimeCheck_txs _).trans h)

theorem tickEvent_wait {tCmd : Nat} (hinv : BlockInv s) (h : s.txs = .wait f tCmd) :
    (tickEvent s).txs = .wait f tCmd ∨ (tickEvent s).txs = .send f (tickEvent s).t := by
  obtain ⟨-, ⟨hbits, hbaud, -⟩, -, -, htx⟩ := hinv
  have hlen : 4 ≤ f.length := by
    simp only [TransmitterInv, h] at htx
    exact htx.2.1
  obtain ⟨-, hbits', hbaud', -⟩ := (rtuTimeCheck_quiet { s with t := s.t + 1 }).config
  have hpos : 0 < (rtuTimeCheck { s with t := s.t + 1 }).charStart f.length :=
    charStart_pos (by omega) (by rw [hbits']; exact hbits.1) (by rw [hbaud']; exact hbaud)
  rw [tickEvent, txStep_t]
  exact txStep_wait ((rtuTimeCheck_txs _).trans h) hpos

end

/-- Settles O60: only a Tick moves a busy transmitter, and a Tick starts or ends its transmission. -/
theorem latchedFrameIsKept : Obligations.LatchedFrameIsKept := by
  intro s t hinv hstep hreset hsoft
  have hres := step_result hstep
  by_cases htick : nextEvent s = .tick
  · have ht : t = tickEvent (consumeEvent s) := by
      rw [htick] at hres
      cases hres
      case ticked => rfl
      all_goals contradiction
    subst ht
    exact ⟨fun f tCmd h => tickEvent_wait (s := consumeEvent s) hinv h,
      fun f ts h => (tickEvent_send (s := consumeEvent s) h).imp_right fun ⟨hidle, hdone⟩ =>
        ⟨hidle, hdone, htick⟩⟩
  · have hkept : s.txs ≠ .idle → t.txs = s.txs := fun hbusy =>
      hres.txs_eq hbusy hsoft hreset htick
    exact ⟨fun f tCmd h => .inl (by rw [hkept (by rw [h]; nofun), h]),
      fun f ts h => .inl (by rw [hkept (by rw [h]; nofun), h])⟩

end Sys2Proof.Machine
end

section
/-! PROOF. The statements of 30_encoding.md: decoding inverts encoding for every row, a command word that
decodes is the one encoding of its instruction, any other one only sets ERR, coil bits pack by position, a
payload has the length of its layout, and the reserved function codes have no layout. -/

namespace Sys2Proof

/-! ## Command words -/

/-- A word is the sum of its fields (R120). -/
theorem word_toNat_of_fields {v : Word} (hres : reservedField v = 0) :
    v.toNat = (opField v).toNat + 256 * (dataField v).toNat + 65536 * (dirField v).toNat := by
  have hdir : (dirField v).toNat = v.toNat / 65536 % 2 := by
    obtain h | h := Nat.mod_two_eq_zero_or_one (v.toNat / 65536) <;> simp [dirField_eq, h]
  rw [reservedField_eq_zero] at hres
  rw [opField_toNat, dataField_toNat, hdir]
  omega

theorem word_eq_ofNat {v : Word} {n : Nat} (h : v.toNat = n) : v = BitVec.ofNat 32 n := by
  rw [← h, BitVec.ofNat_toNat, BitVec.setWidth_eq]

/-- The only word of a command without operands is its opcode (R121). -/
theorem word_of_plainCommand {v : Word} {i j : Instr} {n : Nat} (hres : reservedField v = 0)
    (hop : (opField v).toNat = n) (h : plainCommand v i = .ok j) : j = i ∧ v = BitVec.ofNat 32 n := by
  obtain ⟨hdata, hdir, rfl⟩ := Machine.plainCommand_ok h
  have hv := word_toNat_of_fields hres
  rw [hop, hdata, hdir] at hv
  exact ⟨rfl, word_eq_ofNat hv⟩

/-- The only word of a command with a DATA byte holds its opcode and that byte (R121, R122). -/
theorem word_of_dataCommand {v : Word} {f : Byte → Instr} {j : Instr} {n : Nat} (hres : reservedField v = 0)
    (hop : (opField v).toNat = n) (h : dataCommand v f = .ok j) :
    j = f (dataField v) ∧ v = BitVec.ofNat 32 n ||| ((dataField v).setWidth 32 <<< 8) := by
  have hn : n < 256 := hop ▸ (opField v).isLt
  have hw : (BitVec.ofNat 32 n).toNat = n := Nat.mod_eq_of_lt (by omega)
  have hv := word_toNat_of_fields hres
  unfold dataCommand at h
  split at h
  · cases h
  · rename_i hdir
    rw [hop, Bool.eq_false_of_not_eq_true hdir] at hv
    refine ⟨(Except.ok.inj h).symm, BitVec.eq_of_toNat_eq ?_⟩
    rw [dataWord_toNat (hw.symm ▸ hn), hw, hv]
    rfl

/-- The only two words of a command with a DIR bit (R121, R122). -/
theorem word_of_dirCommand {v : Word} {request response j : Instr} {n : Nat}
    (hres : reservedField v = 0) (hop : (opField v).toNat = n)
    (h : dirCommand v request response = .ok j) :
    (j = request ∧ v = BitVec.ofNat 32 n) ∨ (j = response ∧ v = BitVec.ofNat 32 (n + 65536)) := by
  have hv := word_toNat_of_fields hres
  unfold dirCommand at h
  split at h
  · cases h
  · rename_i hdata
    rw [hop, not_not.mp hdata] at hv
    split at h
    · rename_i hdir
      rw [hdir] at hv
      exact .inr ⟨(Except.ok.inj h).symm, word_eq_ofNat hv⟩
    · rename_i hdir
      rw [Bool.eq_false_of_not_eq_true hdir] at hv
      exact .inl ⟨(Except.ok.inj h).symm, word_eq_ofNat hv⟩

/-- Settles O2: with the reserved bits 0, the opcode and the fields its command takes are all of the word. -/
theorem commandWordsHaveOneEncoding : Obligations.CommandWordsHaveOneEncoding := by
  intro v i h
  simp only [decode, decodeCommand] at h
  split at h
  · cases h
  · rename_i hres
    rw [not_not] at hres
    split at h
    case h_3 hop | h_5 hop =>
      obtain ⟨rfl, hv⟩ := word_of_dataCommand hres hop h
      exact congrArg Code.command hv.symm
    case h_6 hop | h_7 hop =>
      obtain ⟨rfl, rfl⟩ | ⟨rfl, rfl⟩ := word_of_dirCommand hres hop h <;> rfl
    case h_13 => cases h
    all_goals
      obtain ⟨rfl, rfl⟩ := word_of_plainCommand hres ‹_› h
      rfl

/-- A word made of an opcode and a DATA byte is decoded by its opcode's arm to that byte's instruction. -/
theorem decode_dataWord {w : Word} {f : Byte → Instr} (hw : w.toNat < 256)
    (harm : ∀ v, reservedField v = 0 → (opField v).toNat = w.toNat →
      decodeCommand v = dataCommand v f) (b : Byte) :
    decode (.command (w ||| (b.setWidth 32 <<< 8))) = .ok (f b) := by
  have hb := b.isLt
  have hv := dataWord_toNat hw b
  generalize w ||| (b.setWidth 32 <<< 8) = v at hv
  have hres : reservedField v = 0 := by rw [reservedField_eq_zero]; omega
  have hop : (opField v).toNat = w.toNat := by rw [opField_toNat]; omega
  have hdata : dataField v = b := BitVec.eq_of_toNat_eq (by rw [dataField_toNat]; omega)
  have hdir : dirField v = false := by rw [dirField_eq, decide_eq_false_iff_not]; omega
  simp only [decode, harm v hres hop, dataCommand, hdir, hdata, Bool.false_eq_true, if_false]

/-! ## PDUs -/

section
variable {a q r m w n o : Half} {bits : List Bool} {values : List Half} {code : Byte}

theorem payloadFits_pair : payloadFits (.pair a q) := ⟨by simp [packPayload_length], trivial⟩

theorem payloadFits_maskWrite : payloadFits (.maskWrite a n o) :=
  ⟨by simp [packPayload_length], trivial⟩

theorem payloadFits_fifoPointer : payloadFits (.fifoPointer a) :=
  ⟨by simp [packPayload_length], trivial⟩

theorem payloadFits_exception : payloadFits (.exception code) :=
  ⟨by simp [packPayload_length], trivial⟩

theorem payloadFits_coils (h : coilsOk bits = true) : payloadFits (.coils bits) := by
  rw [coilsOk, Bool.and_eq_true] at h
  have hwhole : bits.length % 8 = 0 := eq_of_beq h.1
  have hlen : 1 + bits.length / 8 ≤ 252 := of_decide_eq_true h.2
  exact ⟨by simp only [packPayload_length]; omega, hwhole⟩

theorem payloadFits_writeCoils
    (h : (wholeBytes bits && decide (5 + bits.length / 8 ≤ Config.payloadMax)) = true) :
    payloadFits (.writeCoils a q bits) := by
  rw [Bool.and_eq_true] at h
  have hwhole : bits.length % 8 = 0 := eq_of_beq h.1
  have hlen : 5 + bits.length / 8 ≤ 252 := of_decide_eq_true h.2
  exact ⟨by simp only [packPayload_length]; omega, hwhole⟩

theorem payloadFits_registers (h : registersOk values = true) : payloadFits (.registers values) :=
  ⟨by rw [packPayload_length]; exact of_decide_eq_true h, trivial⟩

theorem payloadFits_writeRegs (h : decide (5 + 2 * values.length ≤ Config.payloadMax) = true) :
    payloadFits (.writeRegs a q values) :=
  ⟨by rw [packPayload_length]; exact of_decide_eq_true h, trivial⟩

theorem payloadFits_readWrite (h : decide (9 + 2 * values.length ≤ Config.payloadMax) = true) :
    payloadFits (.readWrite r m w q values) :=
  ⟨by rw [packPayload_length]; exact of_decide_eq_true h, trivial⟩

theorem payloadFits_fifoValues (h : decide (4 + 2 * values.length ≤ Config.payloadMax) = true) :
    payloadFits (.fifoValues values) :=
  ⟨by rw [packPayload_length]; exact of_decide_eq_true h, trivial⟩

theorem payloadFits_fileRefs {subs : List FileRef}
    (h : decide (1 + 7 * subs.length ≤ Config.payloadMax) = true) : payloadFits (.fileRefs subs) :=
  ⟨by rw [packPayload_length]; exact of_decide_eq_true h, trivial⟩

theorem payloadFits_fileData {subs : List FileData}
    (h : decide (1 + fileDataSize subs ≤ Config.payloadMax) = true) : payloadFits (.fileData subs) :=
  ⟨by rw [packPayload_length]; exact of_decide_eq_true h, trivial⟩

theorem payloadFits_fileWrites {subs : List FileWrite} (h : fileWritesOk subs = true) :
    payloadFits (.fileWrites subs) :=
  ⟨by rw [packPayload_length]; exact of_decide_eq_true h, trivial⟩

end

/-- A PDU made of a message that fits its direction's layout decodes to the message's row. -/
theorem decode_pduCode {op : CodecOp} {dir : Dir} {fc : Byte} {body : Payload} {i : Instr}
    (hl : layoutOf dir fc = some (payloadLayout body)) (hrow : rowOf op dir ⟨fc, body⟩ = .ok i)
    (hfits : payloadFits body) : decode (pduCode op dir fc body) = .ok i := by
  simp only [pduCode, decode, decodePdu, unpackPdu_packMessage (m := ⟨fc, body⟩) hl hfits, hrow]

theorem exceptionCode_toNat (fc7 : BitVec 7) : (exceptionCode fc7).toNat = 0x80 + fc7.toNat := by
  have h7 := fc7.isLt
  rw [exceptionCode, BitVec.toNat_append, ← Nat.shiftLeft_add_eq_or_of_lt h7]
  rfl

/-- Every exception code has the layout of R187. -/
theorem layoutOf_exceptionCode (fc7 : BitVec 7) :
    layoutOf .response (exceptionCode fc7) = some .exception := by
  have h7 : (exceptionCode fc7).getLsbD 7 = true := by
    rw [exceptionCode, BitVec.getLsbD_append]
    rfl
  rw [layoutOf, if_pos h7]

theorem extractLsb'_exceptionCode (fc7 : BitVec 7) : (exceptionCode fc7).extractLsb' 0 7 = fc7 := by
  apply BitVec.eq_of_toNat_eq
  have h7 := fc7.isLt
  rw [BitVec.extractLsb'_toNat, exceptionCode_toNat]
  omega

/-- The row of an exception response is found by its layout, not by its code. -/
theorem rowOf_exceptionCode (op : CodecOp) (fc7 : BitVec 7) (code : Byte) :
    rowOf op .response ⟨exceptionCode fc7, .exception code⟩ = .ok (.pduRspExc op fc7 code) := by
  simp only [rowOf, responseRow, extractLsb'_exceptionCode]

/-! ## The round trip -/

/-- Settles O1: the DATA byte is read back from its word, and a well-formed PDU row is the row of a message that
fits its direction's layout. -/
theorem decodeEncodeRoundTrip : Obligations.DecodeEncodeRoundTrip := by
  intro i h
  cases i
  case crcFeed b | lrcFeed b =>
    exact decode_dataWord (by decide) (fun v hres hop => by simp [decodeCommand, hres, hop]) b
  case nop | crcInit | lrcInit | encodeReq | encodeRsp | decodeReq | decodeRsp | txSend | rxEnable
      | rxDisable | rxRelease | resetSoft => rfl
  case pduReq01 | pduReq02 | pduReq03 | pduReq04 | pduReq05 | pduReq06 | pduRsp05 | pduRsp06
      | pduRsp0F | pduRsp10 => exact decode_pduCode rfl rfl payloadFits_pair
  case pduRsp01 | pduRsp02 => exact decode_pduCode rfl rfl (payloadFits_coils h)
  case pduRsp03 | pduRsp04 | pduRsp17 => exact decode_pduCode rfl rfl (payloadFits_registers h)
  case pduReq0F => exact decode_pduCode rfl rfl (payloadFits_writeCoils h)
  case pduReq10 => exact decode_pduCode rfl rfl (payloadFits_writeRegs h)
  case pduReq14 => exact decode_pduCode rfl rfl (payloadFits_fileRefs h)
  case pduRsp14 => exact decode_pduCode rfl rfl (payloadFits_fileData h)
  case pduReq15 | pduRsp15 => exact decode_pduCode rfl rfl (payloadFits_fileWrites h)
  case pduReq16 | pduRsp16 => exact decode_pduCode rfl rfl payloadFits_maskWrite
  case pduReq17 => exact decode_pduCode rfl rfl (payloadFits_readWrite h)
  case pduReq18 => exact decode_pduCode rfl rfl payloadFits_fifoPointer
  case pduRsp18 => exact decode_pduCode rfl rfl (payloadFits_fifoValues h)
  case pduRspExc op fc7 code =>
    exact decode_pduCode (layoutOf_exceptionCode fc7) (rowOf_exceptionCode op fc7 code)
      payloadFits_exception

/-- Settles O4: five of the samples are the codes of well-formed instructions; the sixth has DIR set where TX.SEND
takes none. -/
theorem sampleWordsDecode : Obligations.SampleWordsDecode :=
  ⟨decodeEncodeRoundTrip (.crcFeed 0xFF) rfl, decodeEncodeRoundTrip .decodeRsp rfl, rfl,
    decodeEncodeRoundTrip (.pduReq10 .unpack 10 3 [1, 2, 3]) rfl,
    decodeEncodeRoundTrip (.pduRsp14 .unpack [⟨6, [0x0DFE, 0x0020]⟩]) rfl,
    decodeEncodeRoundTrip (.pduRspExc .pack 0x03 0x02) rfl⟩

/-! ## Coil bits -/

/-- Bit i of a packed list, padding included (R133). -/
theorem packBits_bit (xs : List Bool) {i : Nat} (h : i / 8 < (packBits xs).length) :
    ((packBits xs).getD (i / 8) 0).getLsbD (i % 8) = xs.getD i false := by
  rw [List.getD_eq_getElem _ _ h]
  simp only [packBits, List.getElem_map, List.getElem_range]
  rw [byteOfBits_getLsbD _ (Nat.mod_lt _ (by decide)), Nat.div_add_mod]

/-- Bit i of the unpacked bytes (R133). -/
theorem unpackBits_bit (bs : List Byte) {i : Nat} (h : i < (unpackBits bs).length) :
    (unpackBits bs).getD i false = (bs.getD (i / 8) 0).getLsbD (i % 8) := by
  rw [List.getD_eq_getElem _ _ h]
  simp only [unpackBits, List.getElem_map, List.getElem_range]

/-- Settles O5: both maps take list position i to bit `i mod 8` of byte `i div 8`. -/
theorem coilBitsPackByPosition : Obligations.CoilBitsPackByPosition :=
  ⟨fun xs => ⟨packBits_length xs, fun i hi => packBits_bit xs (by rw [packBits_length]; omega)⟩,
    fun bs => ⟨unpackBits_length bs, fun i hi => unpackBits_bit bs (by rwa [unpackBits_length])⟩⟩

/-! ## Payload lengths -/

/-- What a mapped success was mapped from. -/
theorem map_ok {α β : Type} {x : Except DecodeError α} {f : α → β} {b : β} (h : x.map f = .ok b) :
    ∃ a, x = .ok a := by
  cases x with
  | error e => cases h
  | ok a => exact ⟨a, rfl⟩

theorem length_of_unpackCoils {count : Byte} {rest : List Byte} {f : List Bool → Payload}
    {body : Payload} (h : (unpackCoils count rest).map f = .ok body) : rest.length = count.toNat := by
  obtain ⟨bits, hbits⟩ := map_ok h
  obtain ⟨-, -, hlen⟩ := packBits_of_unpackCoils hbits
  exact hlen

theorem length_of_unpackRegisters {count : Byte} {rest : List Byte} {f : List Half → Payload}
    {body : Payload} (h : (unpackRegisters count rest).map f = .ok body) :
    rest.length = count.toNat := by
  obtain ⟨values, hvalues⟩ := map_ok h
  exact (halfBytes_of_unpackRegisters hvalues).2

/-- A payload that unpacks has the length its layout calls for (R134): each Unpack compares its count with the
bytes that follow. -/
theorem length_of_unpackPayload {l : Layout} {p : List Byte} {body : Payload}
    (h : unpackPayload l p = .ok body) : p.length = payloadLength l p := by
  cases l <;> simp only [unpackPayload] at h
  case pair | maskWrite | fifoPointer | exception =>
    split at h
    · rfl
    · cases h
  case coils | writeCoils =>
    split at h
    · have hlen := length_of_unpackCoils h
      simp only [payloadLength, List.length_cons, List.getD_cons_zero, List.getD_cons_succ]
      omega
    · cases h
  case registers | writeRegs | readWrite =>
    split at h
    · have hlen := length_of_unpackRegisters h
      simp only [payloadLength, List.length_cons, List.getD_cons_zero, List.getD_cons_succ]
      omega
    · cases h
  case fileRefs | fileData | fileWrites =>
    split at h
    · split at h
      · cases h
      · simp only [payloadLength, List.length_cons, List.getD_cons_zero]
        omega
    · cases h
  case fifoValues =>
    split at h
    · split at h
      · cases h
      · simp only [payloadLength, rd16, List.length_cons, List.getD_cons_zero, List.getD_cons_succ]
        omega
    · cases h

/-- Settles O37: what packs fits its layout, so it unpacks again and has the length that unpacking asks for. -/
theorem payloadLengthMatchesTable : Obligations.PayloadLengthMatchesTable := by
  refine ⟨fun l p body h => length_of_unpackPayload h, fun dir M m h => ?_⟩
  obtain ⟨-, -, hl, hfits⟩ := Machine.readDescriptor_ok h
  exact ⟨_, hl, length_of_unpackPayload (unpackPayload_packPayload hfits), hfits.1⟩

namespace Machine

/-! ## Illegal words -/

/-- The grounds of R123 on which a word is illegal, in numbers. -/
abbrev IsIllegal (n : Nat) : Prop :=
  n % 256 ∉ [0x00, 0x01, 0x02, 0x03, 0x04, 0x10, 0x11, 0x20, 0x30, 0x31, 0x32, 0xFF]
    ∨ n / 131072 ≠ 0
    ∨ (n / 256 % 256 ≠ 0 ∧ n % 256 ∉ [0x02, 0x04])
    ∨ (n / 65536 % 2 ≠ 0 ∧ n % 256 ∉ [0x10, 0x11])

section
variable {v : Word} {e : DecodeError}

theorem strayData_illegal (hdata : dataField v ≠ 0) (hop : (opField v).toNat ∉ [0x02, 0x04]) :
    IsIllegal v.toNat :=
  .inr (.inr (.inl ⟨mt (dataField_eq_zero v).mpr hdata, opField_toNat v ▸ hop⟩))

theorem strayDir_illegal (hdir : dirField v = true) (hop : (opField v).toNat ∉ [0x10, 0x11]) :
    IsIllegal v.toNat := by
  rw [dirField_eq, decide_eq_true_eq] at hdir
  exact .inr (.inr (.inr ⟨by omega, opField_toNat v ▸ hop⟩))

theorem plainCommand_error {i : Instr} (h : plainCommand v i = .error e)
    (hop : (opField v).toNat ∉ [0x02, 0x04, 0x10, 0x11]) :
    decodeErrCode e = .illegalCmd ∧ IsIllegal v.toNat := by
  unfold plainCommand at h
  repeat' split at h
  · cases h
    exact ⟨rfl, strayData_illegal ‹_› fun hm => hop (List.mem_append_left [0x10, 0x11] hm)⟩
  · cases h
    exact ⟨rfl, strayDir_illegal ‹_› fun hm => hop (List.mem_append_right [0x02, 0x04] hm)⟩
  · cases h

theorem dataCommand_error {f : Byte → Instr} (h : dataCommand v f = .error e)
    (hop : (opField v).toNat ∉ [0x10, 0x11]) :
    decodeErrCode e = .illegalCmd ∧ IsIllegal v.toNat := by
  unfold dataCommand at h
  split at h
  · cases h
    exact ⟨rfl, strayDir_illegal ‹_› hop⟩
  · cases h

theorem dirCommand_error {request response : Instr} (h : dirCommand v request response = .error e)
    (hop : (opField v).toNat ∉ [0x02, 0x04]) :
    decodeErrCode e = .illegalCmd ∧ IsIllegal v.toNat := by
  unfold dirCommand at h
  repeat' split at h
  · cases h
    exact ⟨rfl, strayData_illegal ‹_› hop⟩
  all_goals cases h

/-- A word that does not decode is illegal on one of the grounds of R123, and its error code says so. -/
theorem decode_command_error (h : decode (.command v) = .error e) :
    decodeErrCode e = .illegalCmd ∧ IsIllegal v.toNat := by
  simp only [decode, decodeCommand] at h
  split at h
  · cases h
    exact ⟨rfl, .inr (.inl (mt (reservedField_eq_zero v).mpr ‹_›))⟩
  · split at h
    case h_3 hop | h_5 hop => exact dataCommand_error h (by rw [hop]; decide)
    case h_6 hop | h_7 hop => exact dirCommand_error h (by rw [hop]; decide)
    case h_13 =>
      cases h
      refine ⟨rfl, .inl ?_⟩
      simp only [← opField_toNat, List.mem_cons, List.not_mem_nil, or_false, not_or]
      exact ⟨‹_›, ‹_›, ‹_›, ‹_›, ‹_›, ‹_›, ‹_›, ‹_›, ‹_›, ‹_›, ‹_›, ‹_›⟩
    all_goals exact plainCommand_error h (by rw [‹(opField v).toNat = _›]; decide)

/-- A word of CRC.FEED or LRC.FEED is legal at every DATA byte. -/
theorem dataWord_legal {w : Word} (hw : w.toNat = 0x02 ∨ w.toNat = 0x04) (b : Byte) :
    ¬ IsIllegal (w ||| (b.setWidth 32 <<< 8)).toNat := by
  have hb := b.isLt
  rw [dataWord_toNat (by omega)]
  simp only [IsIllegal, List.mem_cons, List.not_mem_nil]
  omega

/-- The words of R121 are legal. -/
theorem encode_legal {i : Instr} (h : encode i = .command v) : ¬ IsIllegal v.toNat := by
  cases i
  case crcFeed b =>
    cases h
    exact dataWord_legal (.inl rfl) b
  case lrcFeed b =>
    cases h
    exact dataWord_legal (.inr rfl) b
  all_goals cases h
  all_goals decide

/-- An illegal word does not decode: what it would decode to has a legal word, and only one (O2). -/
theorem decode_illegal (h : IsIllegal v.toNat) :
    ∃ e, decode (.command v) = .error e ∧ decodeErrCode e = .illegalCmd := by
  cases hd : decode (.command v) with
  | error e => exact ⟨e, rfl, (decode_command_error hd).1⟩
  | ok i => exact absurd h (encode_legal (commandWordsHaveOneEncoding v i hd))

end

/-- Settles O6: a word is illegal exactly when it does not decode, and then the write to CMD only sets ERR. -/
theorem illegalWordOnlySetsErr : Obligations.IllegalWordOnlySetsErr := by
  refine fun v => ⟨fun hill s rest hw => ?_, fun hlegal => ?_⟩
  · obtain ⟨e, hd, hcode⟩ := decode_illegal hill
    rw [step_command hw, issueCommand, hd]
    simp only [hcode, raiseCmdError]
  · cases hd : decode (.command v) with
    | error e => exact absurd (decode_command_error hd).2 hlegal
    | ok i => exact ⟨i, rfl⟩

/-! ## Reserved function codes -/

/-- A request code with a layout is in FC_SET (R131). -/
theorem mem_fcSet_of_layoutOf_request {fc : Byte} {l : Layout} (h : layoutOf .request fc = some l) :
    fc.toNat ∈ fcSet := by
  simp only [layoutOf] at h
  split at h
  case h_14 => cases h
  all_goals
    rw [‹fc.toNat = _›]
    decide

/-- A response code with a layout is an exception code or in FC_SET (R131). -/
theorem mem_fcSet_of_layoutOf_response {fc : Byte} {l : Layout}
    (h : layoutOf .response fc = some l) (hfc : fc.toNat < 0x80) : fc.toNat ∈ fcSet := by
  have h7 : fc.getLsbD 7 = false := Nat.testBit_lt_two_pow hfc
  simp only [layoutOf, h7, Bool.false_eq_true, if_false] at h
  split at h
  case h_14 => cases h
  all_goals
    rw [‹fc.toNat = _›]
    decide

theorem layoutOf_reservedCode {dir : Dir} {fc : Byte} (h : reservedCode dir fc) :
    layoutOf dir fc = none := by
  cases hl : layoutOf dir fc with
  | none => rfl
  | some l =>
    cases dir with
    | request => exact absurd (mem_fcSet_of_layoutOf_request hl) h
    | response => exact absurd (mem_fcSet_of_layoutOf_response hl h.1) h.2

/-- A descriptor whose function code has no layout does not pack (40_codec.md R160). -/
theorem readDescriptor_unsupported {dir : Dir} {fc : Byte} {M : Nat → Word}
    (hl : layoutOf dir fc = none) (h0 : M 0 = fc.setWidth 32) :
    readDescriptor dir M = .error .unsupportedFc := by
  have hfc := fc.isLt
  have hlt : ¬ (M 0).toNat ≥ 0x100 := by rw [h0, BitVec.toNat_setWidth]; omega
  have hback : (M 0).setWidth 8 = fc := by rw [h0]; simp
  rw [readDescriptor, if_neg hlt, hback]
  simp only [hl]

/-- A PDU whose function code has no layout does not unpack (40_codec.md R161). -/
theorem unpackPdu_unsupported {dir : Dir} {fc : Byte} {pdu : List Byte}
    (hl : layoutOf dir fc = none) (hhead : pdu.head? = some fc) :
    unpackPdu dir pdu = .error .unsupportedCode := by
  obtain ⟨p, rfl⟩ := List.head?_eq_some_iff.mp hhead
  simp only [unpackPdu, hl]

theorem exec_encodeInstr (dir : Dir) (s : State) : exec (encodeInstr dir) s = .next (runEncode dir s) := by
  cases dir <;> rfl

theorem exec_decodeInstr (dir : Dir) (s : State) : exec (decodeInstr dir) s = .next (runDecode dir s) := by
  cases dir <;> rfl

/-- The codes from 0x80 on are the exception codes (40_codec.md R187). -/
theorem exceptionCode_of_ge {fc : Byte} (h : 0x80 ≤ fc.toNat) :
    exceptionCode (BitVec.ofNat 7 (fc.toNat - 0x80)) = fc := by
  have hfc := fc.isLt
  apply BitVec.eq_of_toNat_eq
  rw [exceptionCode_toNat, BitVec.toNat_ofNat]
  omega

/-- Settles O38: a reserved code has no layout, and a response code from 0x80 on is the code of an exception
response, which decodes (O1). -/
theorem reservedFunctionCodes : Obligations.ReservedFunctionCodes := by
  refine ⟨fun dir fc s hres => ?_, fun op fc code hfc => ?_⟩
  · have hl := layoutOf_reservedCode hres
    refine ⟨fun h0 => ?_, fun hvalid hhead => ?_⟩
    · rw [exec_encodeInstr, runEncode, readDescriptor_unsupported hl h0]
      rfl
    · rw [exec_decodeInstr, runDecode, if_pos hvalid, unpackPdu_unsupported hl hhead]
      rfl
  · have h := decodeEncodeRoundTrip (.pduRspExc op (BitVec.ofNat 7 (fc.toNat - 0x80)) code) rfl
    rwa [encode, exceptionCode_of_ge hfc] at h

end Machine
end Sys2Proof
end

section
/-! PROOF. The statements of 40_codec.md. First what a descriptor that packs describes, and the round trip; then what
ENCODE and DECODE answer, when a descriptor is rejected, and the bytes and words of each row. -/

namespace Sys2Proof.Machine

/-! ## What a descriptor that packs describes -/

section
variable {M : Nat → Word} {n : Nat}

theorem le_of_limit {a b : Nat} {u : Unit} (h : limit (decide (a ≤ b)) = .ok u) : a ≤ b :=
  of_decide_eq_true (limit_ok h)

/-- A count word that passes is the count as a word (40_codec.md R164). -/
theorem eq_ofNat_of_chk16 {w : Word} {v : Half} (h : chk16 w = .ok v) (hn : n = v.toNat) :
    w = BitVec.ofNat 32 n := by
  rw [hn, chk16_toNat h, BitVec.ofNat_toNat, BitVec.setWidth_eq]

theorem elementsAre_of_eq_wordsFrom {ws : List Word} (h : ws = wordsFrom M 0 n) : ElementsAre M ws := by
  rw [elementsAre_iff, h, wordsFrom_length]

theorem bitWord_eq (b : Bool) : (BitVec.ofBool b).setWidth 32 = (if b then 1 else 0 : Word) := by
  cases b <;> rfl

/-- Bits that pass, padded to whole bytes, are the elements and zeros (30_encoding.md R133). -/
theorem bitsAre_of_readBits {bs : List Bool} (h : readBits M 0 n = .ok bs) :
    BitsAre M n (padBits bs) := by
  obtain ⟨hlen, hwords⟩ := readBits_ok h
  refine ⟨by rw [padBits_length, hlen], fun k b hk => ?_⟩
  rw [padBits, List.getElem?_append, hlen] at hk
  by_cases hkn : k < n
  · rw [if_pos hkn] at hk ⊢
    rw [← bitWord_eq]
    exact elementsAre_of_eq_wordsFrom hwords k _ (by rw [bitWords, List.getElem?_map, hk]; rfl)
  · rw [if_neg hkn] at hk ⊢
    exact List.eq_of_mem_replicate (List.mem_of_getElem? hk)

/-- What the Pack of a layout reads is the payload that the words describe, and it is at most 252 bytes long
(40_codec.md R160, R170-R187): each count is checked against that limit. -/
theorem describes_of_readPayload {l : Layout} {fc : Byte} {p : Payload} (h0 : M 0 = fc.setWidth 32)
    (h : readPayload M l = .ok p) : Describes M ⟨fc, p⟩ ∧ (packPayload p).length ≤ 252 := by
  cases l <;> simp only [readPayload] at h
  case pair =>
    obtain ⟨a, ha, h⟩ := bind_ok h
    obtain ⟨b, hb, h⟩ := bind_ok h
    cases h
    exact ⟨⟨h0, (chk16_ok ha).2.symm, (chk16_ok hb).2.symm⟩, payloadFits_pair.1⟩
  case coils =>
    obtain ⟨n, hn, h⟩ := bind_ok h
    obtain ⟨_, hlimit, h⟩ := bind_ok h
    obtain ⟨bits, hbits, h⟩ := bind_ok h
    cases h
    have hle : 1 + (n.toNat + 7) / 8 ≤ 252 := le_of_limit hlimit
    refine ⟨⟨h0, chk16_toNat hn ▸ bitsAre_of_readBits hbits⟩, ?_⟩
    rw [packPayload_length]
    simp only [padBits_length, (readBits_ok hbits).1]
    omega
  case registers =>
    obtain ⟨n, hn, h⟩ := bind_ok h
    obtain ⟨_, hlimit, h⟩ := bind_ok h
    obtain ⟨values, hvalues, h⟩ := bind_ok h
    cases h
    obtain ⟨hlen, hwords⟩ := readHalves_ok hvalues
    rw [← hlen, ← Bool.decide_and] at hlimit
    refine ⟨⟨h0, eq_ofNat_of_chk16 hn hlen, elementsAre_of_eq_wordsFrom hwords⟩, ?_⟩
    rw [packPayload_length]
    exact (of_decide_eq_true (limit_ok hlimit)).2
  case writeCoils =>
    obtain ⟨a, ha, h⟩ := bind_ok h
    obtain ⟨q, hq, h⟩ := bind_ok h
    obtain ⟨_, hlimit, h⟩ := bind_ok h
    obtain ⟨bits, hbits, h⟩ := bind_ok h
    cases h
    have hle : 5 + (q.toNat + 7) / 8 ≤ 252 := le_of_limit hlimit
    refine ⟨⟨h0, (chk16_ok ha).2.symm, (chk16_ok hq).2.symm, bitsAre_of_readBits hbits⟩, ?_⟩
    rw [packPayload_length]
    simp only [padBits_length, (readBits_ok hbits).1]
    omega
  case writeRegs =>
    obtain ⟨a, ha, h⟩ := bind_ok h
    obtain ⟨q, hq, h⟩ := bind_ok h
    obtain ⟨_, hlimit, h⟩ := bind_ok h
    obtain ⟨values, hvalues, h⟩ := bind_ok h
    cases h
    obtain ⟨hlen, hwords⟩ := readHalves_ok hvalues
    refine ⟨⟨h0, (chk16_ok ha).2.symm, (chk16_ok hq).2.symm, hlen.symm,
      elementsAre_of_eq_wordsFrom hwords⟩, ?_⟩
    rw [← hlen] at hlimit
    rw [packPayload_length]
    exact le_of_limit hlimit
  case fileRefs =>
    obtain ⟨n, hn, h⟩ := bind_ok h
    obtain ⟨_, hlimit, h⟩ := bind_ok h
    obtain ⟨subs, hsubs, h⟩ := bind_ok h
    cases h
    obtain ⟨hlen, hwords⟩ := readFileRefs_ok hsubs
    refine ⟨⟨h0, eq_ofNat_of_chk16 hn hlen, elementsAre_of_eq_wordsFrom hwords⟩, ?_⟩
    rw [← hlen] at hlimit
    rw [packPayload_length]
    exact le_of_limit hlimit
  case fileData =>
    obtain ⟨n, hn, h⟩ := bind_ok h
    obtain ⟨subs, hsubs, h⟩ := bind_ok h
    obtain ⟨_, hlimit, h⟩ := bind_ok h
    cases h
    obtain ⟨hlen, hwords⟩ := readFileData_ok hsubs
    refine ⟨⟨h0, eq_ofNat_of_chk16 hn hlen, elementsAre_of_eq_wordsFrom hwords⟩, ?_⟩
    rw [packPayload_length]
    exact le_of_limit hlimit
  case fileWrites =>
    obtain ⟨n, hn, h⟩ := bind_ok h
    obtain ⟨subs, hsubs, h⟩ := bind_ok h
    obtain ⟨_, hlimit, h⟩ := bind_ok h
    cases h
    obtain ⟨hlen, hwords⟩ := readFileWrites_ok hsubs
    refine ⟨⟨h0, eq_ofNat_of_chk16 hn hlen, elementsAre_of_eq_wordsFrom hwords⟩, ?_⟩
    rw [packPayload_length]
    exact le_of_limit hlimit
  case maskWrite =>
    obtain ⟨a, ha, h⟩ := bind_ok h
    obtain ⟨n, hn, h⟩ := bind_ok h
    obtain ⟨o, ho, h⟩ := bind_ok h
    cases h
    exact ⟨⟨h0, (chk16_ok ha).2.symm, (chk16_ok hn).2.symm, (chk16_ok ho).2.symm⟩,
      payloadFits_maskWrite.1⟩
  case readWrite =>
    obtain ⟨r, hr, h⟩ := bind_ok h
    obtain ⟨k, hk, h⟩ := bind_ok h
    obtain ⟨w, hw, h⟩ := bind_ok h
    obtain ⟨q, hq, h⟩ := bind_ok h
    obtain ⟨_, hlimit, h⟩ := bind_ok h
    obtain ⟨values, hvalues, h⟩ := bind_ok h
    cases h
    obtain ⟨hlen, hwords⟩ := readHalves_ok hvalues
    refine ⟨⟨h0, (chk16_ok hr).2.symm, (chk16_ok hk).2.symm, (chk16_ok hw).2.symm,
      (chk16_ok hq).2.symm, hlen.symm, elementsAre_of_eq_wordsFrom hwords⟩, ?_⟩
    rw [← hlen] at hlimit
    rw [packPayload_length]
    exact le_of_limit hlimit
  case fifoPointer =>
    obtain ⟨a, ha, h⟩ := bind_ok h
    cases h
    exact ⟨⟨h0, (chk16_ok ha).2.symm⟩, payloadFits_fifoPointer.1⟩
  case fifoValues =>
    obtain ⟨n, hn, h⟩ := bind_ok h
    obtain ⟨_, hlimit, h⟩ := bind_ok h
    obtain ⟨values, hvalues, h⟩ := bind_ok h
    cases h
    obtain ⟨hlen, hwords⟩ := readHalves_ok hvalues
    refine ⟨⟨h0, eq_ofNat_of_chk16 hn hlen, elementsAre_of_eq_wordsFrom hwords⟩, ?_⟩
    rw [← hlen] at hlimit
    rw [packPayload_length]
    exact le_of_limit hlimit
  case exception =>
    obtain ⟨code, hcode, h⟩ := bind_ok h
    cases h
    exact ⟨⟨h0, (chk8_ok hcode).2.symm⟩, payloadFits_exception.1⟩

/-- A descriptor that packs describes the message it packs to (40_codec.md R160, R165). -/
theorem describes_of_readDescriptor {dir : Dir} {m : Message} (h : readDescriptor dir M = .ok m) :
    Describes M m := by
  obtain ⟨h0, hp, -, -⟩ := readDescriptor_ok h
  exact (describes_of_readPayload h0.symm hp).1

/-! ## The round trip -/

/-- What holds of the header, the fields and the elements of a descriptor holds of all its words. -/
theorem forall_descriptorWords {P : Nat × Word → Prop} {fc : Byte} {body : Payload}
    (h0 : P (0, fc.setWidth 32))
    (hfields : ∀ p ∈ (payloadFields body).zipIdx.map fun p => (1 + p.2, p.1), P p)
    (helements : ∀ k w, (payloadElements body)[k]? = some w → P (8 + k, w)) :
    ∀ p ∈ descriptorWords ⟨fc, body⟩, P p := by
  intro p hp
  simp only [descriptorWords, elementWords, List.mem_append, List.mem_cons, List.mem_map] at hp
  obtain (rfl | hp) | ⟨⟨w, k⟩, hk, rfl⟩ := hp
  · exact h0
  · exact hfields p (List.mem_map.mpr hp)
  · exact helements k w (List.mk_mem_zipIdx_iff_getElem?.mp hk)

/-- What a round trip leaves in MSG[k] of a descriptor `M` (40_codec.md R166): its own word, but for the
computed byte counts (R165), the coil count in whole bytes and the padding bits (R171, R176). -/
def roundTripWord (M : Nat → Word) : Payload → Nat → Word
  | .coils _, k =>
    if k = 1 then BitVec.ofNat 32 (8 * (((M 1).toNat + 7) / 8))
    else if 8 + (M 1).toNat ≤ k then 0 else M k
  | .writeCoils _ _ _, k =>
    if k = 3 then BitVec.ofNat 32 (((M 2).toNat + 7) / 8)
    else if 8 + (M 2).toNat ≤ k then 0 else M k
  | .writeRegs _ _ _, k => if k = 3 then BitVec.ofNat 32 (2 * (M 2).toNat) else M k
  | .readWrite _ _ _ _ _, k => if k = 5 then BitVec.ofNat 32 (2 * (M 4).toNat) else M k
  | _, k => M k

/-- The bits of a coil list as words: the elements within the count, zeros after it (30_encoding.md R133). -/
theorem bitWords_of_bitsAre {bits : List Bool} (h : BitsAre M n bits) {k : Nat} {w : Word}
    (hw : (bitWords bits)[k]? = some w) : w = if 8 + n ≤ 8 + k then 0 else M (8 + k) := by
  rw [bitWords, List.getElem?_map, Option.map_eq_some_iff] at hw
  obtain ⟨b, hb, rfl⟩ := hw
  have hbit := h.2 k b hb
  by_cases hk : k < n
  · rw [if_pos hk] at hbit
    rw [if_neg (by omega), hbit, bitWord_eq]
  · rw [if_neg hk] at hbit
    rw [if_pos (by omega), hbit, bitWord_eq]
    rfl

theorem roundTripWord_header (M : Nat → Word) (p : Payload) : roundTripWord M p 0 = M 0 := by
  cases p <;> simp [roundTripWord]

theorem payloadFields_of_describes {fc : Byte} {body : Payload} (hd : Describes M ⟨fc, body⟩) :
    ∀ p ∈ (payloadFields body).zipIdx.map fun p => (1 + p.2, p.1),
      p.2 = roundTripWord M body p.1 := by
  obtain ⟨-, hd⟩ := hd
  cases body <;> dsimp only at hd
  case pair | registers | fileRefs | fileData | fileWrites | maskWrite | fifoPointer | fifoValues
      | exception => simp [payloadFields, roundTripWord, hd]
  case coils bits => simp [payloadFields, roundTripWord, hd.1]
  case writeCoils a q bits =>
    obtain ⟨ha, hq, hbits⟩ := hd
    rw [← toNat_half, ← hq] at hbits
    have hcount : bits.length / 8 = ((M 2).toNat + 7) / 8 := by
      rw [hbits.1, Nat.mul_div_cancel_left _ (by omega)]
    have hstart : ¬ 8 + (M 2).toNat ≤ 1 := by omega
    have hquantity : ¬ 8 + (M 2).toNat ≤ 2 := by omega
    simp [payloadFields, roundTripWord, ← ha, ← hq, hcount, hstart, hquantity]
  case writeRegs a q values =>
    obtain ⟨ha, hq, hlen, -⟩ := hd
    rw [← toNat_half, ← hq] at hlen
    simp [payloadFields, roundTripWord, ← ha, ← hq, hlen]
  case readWrite r k w q values =>
    obtain ⟨hr, hk, hw, hq, hlen, -⟩ := hd
    rw [← toNat_half, ← hq] at hlen
    simp [payloadFields, roundTripWord, ← hr, ← hk, ← hw, ← hq, hlen]

theorem payloadElements_of_describes {fc : Byte} {body : Payload} (hd : Describes M ⟨fc, body⟩)
    {k : Nat} {w : Word} (hk : (payloadElements body)[k]? = some w) :
    w = roundTripWord M body (8 + k) := by
  obtain ⟨-, hd⟩ := hd
  cases body <;> dsimp only at hd
  case pair | maskWrite | fifoPointer | exception => simp [payloadElements] at hk
  case registers | fileRefs | fileData | fileWrites | fifoValues => exact (hd.2 k w hk).symm
  case coils bits => exact (bitWords_of_bitsAre hd hk).trans (if_neg (by omega)).symm
  case writeCoils a q bits =>
    obtain ⟨-, hq, hbits⟩ := hd
    rw [← toNat_half, ← hq] at hbits
    exact (bitWords_of_bitsAre hbits hk).trans (if_neg (by omega)).symm
  case writeRegs a q values =>
    obtain ⟨-, -, -, hvalues⟩ := hd
    exact (hvalues k w hk).symm.trans (if_neg (by omega)).symm
  case readWrite r k w q values =>
    obtain ⟨-, -, -, -, -, hvalues⟩ := hd
    exact (hvalues _ _ hk).symm.trans (if_neg (by omega)).symm

/-- The words of a message that a descriptor describes are the ones a round trip leaves (40_codec.md R166). -/
theorem descriptorWords_of_describes {m : Message} (hd : Describes M m) :
    ∀ p ∈ descriptorWords m, p.2 = roundTripWord M m.body p.1 :=
  forall_descriptorWords (by rw [roundTripWord_header, hd.1]) (payloadFields_of_describes hd)
    fun _ _ hk => payloadElements_of_describes hd hk

end

/-- Settles O36: what packs fits its layout, so it unpacks again; the descriptor it was read from describes it, and
the words of a described message are the descriptor's own but for the three exceptions of R166. -/
theorem descriptorRoundTrip : Obligations.DescriptorRoundTrip := by
  intro dir M m h
  obtain ⟨-, -, hl, hfits⟩ := readDescriptor_ok h
  refine ⟨unpackPdu_packMessage hl hfits, fun p hp => ?_⟩
  rw [descriptorWords_of_describes (describes_of_readDescriptor h) p hp]
  cases m.body <;> rfl

/-! ## ENCODE and DECODE of a message -/

section
variable {dir : Dir} {s : State} {m : Message}

theorem exec_encode_error {e : ErrCode} (h : readDescriptor dir s.msg = .error e) :
    exec (encodeInstr dir) s = .next { s with err := e } := by
  rw [exec_encodeInstr, runEncode, h]
  rfl

theorem exec_encode_ok (h : readDescriptor dir s.msg = .ok m) :
    exec (encodeInstr dir) s = .next (runMessage .pack m s) := by
  rw [exec_encodeInstr, runEncode, h]

theorem exec_decode_noFrame (h : s.rxValid = false) :
    exec (decodeInstr dir) s = .next { s with err := .noFrame } := by
  rw [exec_decodeInstr, runDecode, if_neg (by simp [h])]
  rfl

theorem exec_decode_ok (hv : s.rxValid = true) (h : unpackPdu dir s.rxPdu = .ok m) :
    exec (decodeInstr dir) s = .next (runMessage .unpack m s) := by
  rw [exec_decodeInstr, runDecode, if_pos hv, h]

/-- A PDU that is rejected leaves UNSUPPORTED_FC or MALFORMED in ERR (60_exceptions.md R371). -/
theorem exec_decode_error {e : DecodeError} (hv : s.rxValid = true)
    (h : unpackPdu dir s.rxPdu = .error e) :
    exec (decodeInstr dir) s = .next { s with
      err := if e = .unsupportedCode then .unsupportedFc else .malformed } := by
  rw [exec_decodeInstr, runDecode, if_pos hv, h]
  obtain rfl | ⟨hne, hcode⟩ := unpackPdu_error h
  · rfl
  · simp only [raiseCmdError, hcode, if_neg hne]

/-- A PDU whose payload does not unpack leaves MALFORMED in ERR (40_codec.md R161). -/
theorem exec_decode_malformed {fc : Byte} {p : List Byte} {l : Layout} {e : DecodeError}
    (hv : s.rxValid = true) (hpdu : s.rxPdu = fc :: p) (hl : layoutOf dir fc = some l)
    (h : unpackPayload l p = .error e) :
    exec (decodeInstr dir) s = .next { s with err := .malformed } := by
  have hunpack : unpackPdu dir s.rxPdu = .error e := by
    simp only [hpdu, unpackPdu, hl, h]
    rfl
  rw [exec_decode_error hv hunpack, if_neg (unpackPayload_error h).1]

/-- A PDU that is not an instruction's code does not unpack: every message that unpacks has its row. -/
theorem unpackPdu_of_decode_error {op : CodecOp} {pdu : List Byte} {e : DecodeError}
    (h : decode (.pdu op dir pdu) = .error e) : unpackPdu dir pdu = .error e := by
  simp only [decode, decodePdu] at h
  split at h
  · cases h
    assumption
  · rename_i m hm
    obtain ⟨i, hi⟩ := rowOf_spec op (packMessage_of_unpackPdu hm).2
    exact absurd (hi.row.symm.trans h) (by simp)

end

/-- Settles O8: DECODE unpacks the held PDU, and the row the PDU decodes to runs the message it unpacks to; a payload
that is not as long as its layout calls for does not unpack (O37). -/
theorem decodeRunsDecodedPdu : Obligations.DecodeRunsDecodedPdu := by
  refine fun dir s => ⟨exec_decode_noFrame, fun hv => ⟨fun i hi => ?_, fun e he => ?_, fun hnil => ?_,
    fun fc p l hpdu hl hlen => ?_⟩⟩
  · obtain ⟨m, hm, hrow⟩ := decode_pdu_ok hi
    rw [exec_decode_ok hv hm, hrow.run]
  · exact exec_decode_error hv (unpackPdu_of_decode_error he)
  · exact exec_decode_error hv (e := .emptyPdu) (by rw [hnil]; rfl)
  · cases h : unpackPayload l p with
    | error e => exact exec_decode_malformed hv hpdu hl h
    | ok body => exact absurd (length_of_unpackPayload h) hlen

/-- Settles O9: a message that is read from a descriptor unpacks again, so its bytes decode to its row (O36). -/
theorem encodeRunsPackedPdu : Obligations.EncodeRunsPackedPdu := by
  refine fun dir s => ⟨fun e he => exec_encode_error he, fun m hm => ?_⟩
  obtain ⟨-, -, hl, hfits⟩ := readDescriptor_ok hm
  obtain ⟨i, hi⟩ := rowOf_spec .pack hl
  refine ⟨i, ?_, hi.wellFormed hfits, by rw [exec_encode_ok hm, hi.run]⟩
  simp only [decode, decodePdu, unpackPdu_packMessage hl hfits, hi.row]

theorem packMessage_length_le {m : Message} (h : payloadFits m.body) : (packMessage m).length ≤ 253 :=
  Nat.succ_le_succ h.1

/-- Settles O30: a message that is read from a descriptor fits 253 bytes (00_scope.md R8). -/
theorem encodeStoresThePdu : Obligations.EncodeStoresThePdu := by
  intro dir s m hm
  obtain ⟨-, -, -, hfits⟩ := readDescriptor_ok hm
  have hlen := packMessage_length_le hfits
  rw [exec_encode_ok hm]
  exact ⟨runMessage_pack (by omega) s, Nat.succ_pos _, hlen⟩

/-- The payload of a PDU that unpacks is what its layout's Unpack makes of the bytes after the function code. -/
theorem unpackPayload_of_unpackPdu {dir : Dir} {pdu : List Byte} {m : Message}
    (h : unpackPdu dir pdu = .ok m) :
    unpackPayload (payloadLayout m.body) (packPayload m.body) = .ok m.body := by
  obtain ⟨rfl, hl⟩ := packMessage_of_unpackPdu h
  simp only [unpackPdu, packMessage, hl] at h
  cases hp : unpackPayload (payloadLayout m.body) (packPayload m.body) with
  | error e => rw [hp] at h; cases h
  | ok body => rw [hp] at h; exact congrArg Except.ok (congrArg Message.body (Except.ok.inj h))

/-- What unpacks from as many bytes as RXLEN can count has no more elements than MSG holds: a coil list is counted by
one byte, every other element takes a byte at least (30_encoding.md R134, R140). -/
theorem payloadElements_length_of_unpackPayload {l : Layout} {bs : List Byte} {p : Payload}
    (h : unpackPayload l bs = .ok p) (hlen : bs.length ≤ 511) : (payloadElements p).length ≤ 2040 := by
  obtain ⟨hpack, hl⟩ := packPayload_of_unpackPayload h
  have hcount := length_of_unpackPayload h
  rw [← hpack, packPayload_length] at hlen
  rw [← hl, ← hpack, packPayload_length] at hcount
  cases p <;> dsimp only [payloadLayout, payloadLength] at hlen hcount
  case fileRefs subs => rw [fileRefs_elements]; omega
  case fileData subs => rw [fileData_elements]; have := fileDataWords_le subs; omega
  case fileWrites subs => rw [fileWrites_elements]; have := fileWriteWords_le subs; omega
  all_goals
    simp only [payloadElements, bitWords, halfWords, List.length_map, List.length_nil]
    omega

/-- Settles O31: the elements of what RXBUF holds fit MSG, so each word is stored. -/
theorem decodeStoresTheDescriptor : Obligations.DecodeStoresTheDescriptor := by
  intro dir s m hv hm
  rw [exec_decode_ok hv hm]
  have hlen : s.rxPdu.length ≤ 511 := by
    rw [State.rxPdu, List.length_map, List.length_range]
    omega
  rw [← (packMessage_of_unpackPdu hm).1, packMessage, List.length_cons] at hlen
  exact runMessage_unpack
    (payloadElements_length_of_unpackPayload (unpackPayload_of_unpackPdu hm) (by omega)) s

/-- The code of a well-formed row has at most 253 bytes (00_scope.md R8). -/
theorem pdu_length_of_wellFormed {i : Instr} {op : CodecOp} {dir : Dir} {pdu : List Byte}
    (hwf : WellFormed i = true) (he : encode i = .pdu op dir pdu) : pdu.length ≤ 253 := by
  cases i
  case nop | crcInit | crcFeed | lrcInit | lrcFeed | encodeReq | encodeRsp | decodeReq | decodeRsp | txSend
      | rxEnable | rxDisable | rxRelease | resetSoft => cases he
  all_goals
    cases he
    refine packMessage_length_le ?_
  case pduReq01 | pduReq02 | pduReq03 | pduReq04 | pduReq05 | pduReq06 | pduRsp05 | pduRsp06
      | pduRsp0F | pduRsp10 => exact payloadFits_pair
  case pduRsp01 | pduRsp02 => exact payloadFits_coils hwf
  case pduRsp03 | pduRsp04 | pduRsp17 => exact payloadFits_registers hwf
  case pduReq0F => exact payloadFits_writeCoils hwf
  case pduReq10 => exact payloadFits_writeRegs hwf
  case pduReq14 => exact payloadFits_fileRefs hwf
  case pduRsp14 => exact payloadFits_fileData hwf
  case pduReq15 | pduRsp15 => exact payloadFits_fileWrites hwf
  case pduReq16 | pduRsp16 => exact payloadFits_maskWrite
  case pduReq17 => exact payloadFits_readWrite hwf
  case pduReq18 => exact payloadFits_fifoPointer
  case pduRsp18 => exact payloadFits_fifoValues hwf
  case pduRspExc => exact payloadFits_exception

/-- A descriptor of a supported function code is read as its layout's payload, within the payload limit
(40_codec.md R160). -/
theorem readDescriptor_eq {dir : Dir} {M : Nat → Word} {fc : Byte} {l : Layout}
    (h0 : M 0 = fc.setWidth 32) (hl : layoutOf dir fc = some l) :
    readDescriptor dir M = readPayload M l >>= fun p =>
      if (packPayload p).length > Config.payloadMax then .error .range else .ok ⟨fc, p⟩ := by
  have hfc := fc.isLt
  have hlt : ¬ (M 0).toNat ≥ 0x100 := by rw [h0, BitVec.toNat_setWidth]; omega
  have hback : (M 0).setWidth 8 = fc := by rw [h0]; simp
  rw [readDescriptor, if_neg hlt, hback]
  simp only [hl]
  cases readPayload M l <;> rfl

/-- A descriptor whose payload is read and fits is read (40_codec.md R160). -/
theorem readDescriptor_of_readPayload {dir : Dir} {M : Nat → Word} {fc : Byte} {l : Layout} {p : Payload}
    (h0 : M 0 = fc.setWidth 32) (hl : layoutOf dir fc = some l) (hp : readPayload M l = .ok p)
    (hlen : (packPayload p).length ≤ 252) : readDescriptor dir M = .ok ⟨fc, p⟩ := by
  rw [readDescriptor_eq h0 hl]
  exact ok_of_bind hp (if_neg (Nat.not_lt.mpr hlen))

/-- Settles O40: the row decodes from its bytes (O1), which unpack to one message only. -/
theorem fittingDescriptorPacks : Obligations.FittingDescriptorPacks := by
  intro dir s i pdu m hwf he hm hd
  have hdecode : decode (.pdu .pack dir pdu) = .ok i := he ▸ decodeEncodeRoundTrip i hwf
  obtain ⟨m', hm', hrow⟩ := decode_pdu_ok hdecode
  obtain rfl : m = m' := Except.ok.inj (hm.symm.trans hm')
  obtain ⟨hpdu, hl⟩ := packMessage_of_unpackPdu hm
  have hfits := payloadFits_of_unpackPdu hm (pdu_length_of_wellFormed hwf he)
  have hread := readDescriptor_of_readPayload hd.1 hl (readPayload_of_describes hd hfits) hfits.1
  refine ⟨hread, by rw [exec_encode_ok hread, hrow.run], ?_⟩
  rw [← hpdu]
  exact (encodeStoresThePdu dir s m hread).1

/-! ## When a layout's Pack passes -/

/-- A sequence of checks passes. -/
def Passes {α : Type} (x : Except ErrCode α) : Prop := ∃ a, x = .ok a

section
variable {α β : Type} {w : Word}

theorem passes_pure (a : α) : Passes (pure a : Except ErrCode α) ↔ True := iff_true_intro ⟨a, rfl⟩

theorem passes_chk16_bind {f : Half → Except ErrCode α} :
    Passes (chk16 w >>= f) ↔ ¬ Wide w ∧ Passes (f (w.setWidth 16)) := by
  constructor
  · rintro ⟨b, h⟩
    obtain ⟨v, hv, h⟩ := bind_ok h
    exact ⟨Nat.not_le.mpr (chk16_lt hv), b, (chk16_ok hv).1 ▸ h⟩
  · rintro ⟨hw, b, h⟩
    exact ⟨b, ok_of_bind (chk16_pass (Nat.not_le.mp hw)) h⟩

theorem passes_chk8_bind {f : Byte → Except ErrCode α} :
    Passes (chk8 w >>= f) ↔ ¬ 0xFF < w.toNat ∧ Passes (f (w.setWidth 8)) := by
  constructor
  · rintro ⟨b, h⟩
    obtain ⟨v, hv, h⟩ := bind_ok h
    exact ⟨Nat.not_lt.mpr (Nat.le_of_lt_succ (chk8_lt hv)), b, (chk8_ok hv).1 ▸ h⟩
  · rintro ⟨hw, b, h⟩
    exact ⟨b, ok_of_bind (chk8_pass (by omega)) h⟩

/-- A list behind its count passes when the count is within its limit and every element passes. -/
theorem passes_counted {P : Nat → Prop} [DecidablePred P] {read : Nat → Except ErrCode α} {g : Half → α → β}
    {max : Nat} (hmax : ∀ n, n < 0x10000 ∧ P n ↔ ¬ max < n) :
    Passes (do
      let n ← chk16 w
      limit (decide (P n.toNat))
      let xs ← read n.toNat
      return g n xs)
    ↔ ¬ max < w.toNat ∧ ∃ xs, read w.toNat = .ok xs := by
  rw [← hmax]
  constructor
  · rintro ⟨b, h⟩
    obtain ⟨n, hn, h⟩ := bind_ok h
    obtain ⟨_, hlimit, h⟩ := bind_ok h
    obtain ⟨xs, hxs, h⟩ := bind_ok h
    rw [chk16_toNat hn] at hlimit hxs
    exact ⟨⟨chk16_lt hn, of_decide_eq_true (limit_ok hlimit)⟩, xs, hxs⟩
  · rintro ⟨⟨hw, hlimit⟩, xs, hxs⟩
    have hn := chk16_pass hw
    rw [← chk16_toNat hn] at hlimit hxs
    exact ⟨_, ok_of_bind hn (ok_of_bind (limit_pass (decide_eq_true hlimit)) (ok_of_bind hxs rfl))⟩

/-- A list whose size is checked after it has been read passes when every element passes and the size fits. -/
theorem passes_sized {P : α → Prop} [DecidablePred P] {read : Nat → Except ErrCode α} {g : α → β} :
    Passes (do
      let n ← chk16 w
      let xs ← read n.toNat
      limit (decide (P xs))
      return g xs)
    ↔ ¬ Wide w ∧ ∃ xs, read w.toNat = .ok xs ∧ P xs := by
  constructor
  · rintro ⟨b, h⟩
    obtain ⟨n, hn, h⟩ := bind_ok h
    obtain ⟨xs, hxs, h⟩ := bind_ok h
    obtain ⟨_, hlimit, h⟩ := bind_ok h
    rw [chk16_toNat hn] at hxs
    exact ⟨Nat.not_le.mpr (chk16_lt hn), xs, hxs, of_decide_eq_true (limit_ok hlimit)⟩
  · rintro ⟨hw, xs, hxs, hlimit⟩
    have hn := chk16_pass (Nat.not_le.mp hw)
    rw [← chk16_toNat hn] at hxs
    exact ⟨_, ok_of_bind hn (ok_of_bind hxs (ok_of_bind (limit_pass (decide_eq_true hlimit)) rfl))⟩

end

section
variable {M : Nat → Word} {n : Nat}

theorem lt_0x100_iff (w : Word) : w.toNat < 0x100 ↔ ¬ 0xFF < w.toNat := by omega

theorem lt_0x10000_iff (w : Word) : w.toNat < 0x10000 ↔ ¬ Wide w := Nat.not_le.symm

theorem readHalves_zero_iff :
    (∃ vs, readHalves M 0 n = .ok vs) ↔ ¬ ∃ k, k < n ∧ Wide (M (8 + k)) := by
  rw [readHalves_iff]
  simp only [not_exists, not_and, lt_0x10000_iff, Nat.add_zero]

theorem readBits_zero_iff :
    (∃ bs, readBits M 0 n = .ok bs) ↔ ¬ ∃ k, k < n ∧ 1 < (M (8 + k)).toNat := by
  rw [readBits_iff]
  simp only [not_exists, not_and, Nat.not_lt, Nat.lt_succ_iff, Nat.add_zero]

theorem readFileRefs_zero_iff :
    (∃ rs, readFileRefs M 0 n = .ok rs) ↔ ¬ ∃ j, j < n
      ∧ (0xFF < (M (8 + 4 * j)).toNat ∨ Wide (M (8 + 4 * j + 1)) ∨ Wide (M (8 + 4 * j + 2))
        ∨ Wide (M (8 + 4 * j + 3))) := by
  rw [readFileRefs_iff]
  simp only [not_exists, not_and, not_or, lt_0x100_iff, lt_0x10000_iff, Nat.add_zero]

theorem fileDataPass_iff {c : Nat} :
    fileDataPass M c ↔ ¬ (2040 < c + 2 ∨ 0xFF < (M (8 + c + 1)).toNat ∨ 255 < 1 + 2 * (M (8 + c)).toNat
      ∨ 2040 < c + 2 + (M (8 + c)).toNat
      ∨ ∃ k, k < (M (8 + c)).toNat ∧ Wide (M (8 + c + 2 + k))) := by
  simp only [fileDataPass, not_or, not_exists, not_and, lt_0x100_iff, lt_0x10000_iff, Nat.not_lt]
  rfl

theorem fileWritePass_iff {c : Nat} :
    fileWritePass M c ↔ ¬ (2040 < c + 4 ∨ 0xFF < (M (8 + c)).toNat ∨ Wide (M (8 + c + 1))
      ∨ Wide (M (8 + c + 2)) ∨ 2040 < c + 4 + (M (8 + c + 3)).toNat
      ∨ ∃ k, k < (M (8 + c + 3)).toNat ∧ Wide (M (8 + c + 4 + k))) := by
  simp only [fileWritePass, not_or, not_exists, not_and, lt_0x100_iff, lt_0x10000_iff, Nat.not_lt]
  rfl

/-- What is read passes and fits when it passes and the number that its size is known to be fits. -/
theorem exists_ok_fits_iff {α : Type} {x : Except ErrCode α} {size : α → Nat} {N : Nat}
    (hsize : ∀ ds, x = .ok ds → size ds = N) :
    (∃ ds, x = .ok ds ∧ 1 + size ds ≤ Config.payloadMax) ↔ (∃ ds, x = .ok ds) ∧ 1 + N ≤ 252 := by
  constructor
  · rintro ⟨ds, hds, hle⟩
    exact ⟨⟨ds, hds⟩, hsize ds hds ▸ hle⟩
  · rintro ⟨⟨ds, hds⟩, hle⟩
    exact ⟨ds, hds, (hsize ds hds).symm ▸ hle⟩

/-- Sub-responses pass and fit when each one passes and their last cursor counts bytes that fit
(40_codec.md R181). -/
theorem readFileData_fits_iff :
    (∃ ds, readFileData M 0 n = .ok ds ∧ 1 + fileDataSize ds ≤ Config.payloadMax)
      ↔ (∀ j, j < n → fileDataPass M (subCursor 2 0 M j))
        ∧ 1 + (2 * subCursor 2 0 M n - 2 * n) ≤ 252 := by
  have hpass := readFileData_iff (m := M) (c := 0) (n := n)
  simp only [cursorFrom_zero] at hpass
  rw [exists_ok_fits_iff fun ds h => ?_, hpass]
  have hsum := readFileData_size h
  rw [cursorFrom_zero] at hsum
  omega

/-- Sub-requests pass and fit when each one passes and their last cursor counts bytes that fit
(40_codec.md R182). -/
theorem readFileWrites_fits_iff :
    (∃ ds, readFileWrites M 0 n = .ok ds ∧ 1 + fileWriteSize ds ≤ Config.payloadMax)
      ↔ (∀ j, j < n → fileWritePass M (subCursor 4 3 M j))
        ∧ 1 + (2 * subCursor 4 3 M n - n) ≤ 252 := by
  have hpass := readFileWrites_iff (m := M) (c := 0) (n := n)
  simp only [cursorFrom_zero] at hpass
  rw [exists_ok_fits_iff fun ds h => ?_, hpass]
  have hsum := readFileWrites_size h
  rw [cursorFrom_zero] at hsum
  omega

/-- The Pack of a layout passes exactly when nothing of it is beyond its limit (40_codec.md R164, R170-R187). -/
theorem readPayload_passes_iff (M : Nat → Word) (l : Layout) :
    Passes (readPayload M l) ↔ ¬ PackFails M l := by
  have hpayload : Config.payloadMax = 252 := rfl
  cases l <;> simp only [readPayload, PackFails, not_or]
  case pair | maskWrite | fifoPointer | exception =>
    simp only [passes_chk16_bind, passes_chk8_bind, passes_pure, and_true]
  case coils =>
    exact (passes_counted (read := readBits M 0) (P := fun n => 1 + bitBytes n ≤ Config.payloadMax)
      (fun n => by rw [bitBytes]; omega)).trans (and_congr_right' readBits_zero_iff)
  case registers =>
    simp only [← Bool.decide_and]
    exact (passes_counted (read := readHalves M 0)
      (P := fun n => 2 * n ≤ 255 ∧ 1 + 2 * n ≤ Config.payloadMax)
      (fun n => by omega)).trans (and_congr_right' readHalves_zero_iff)
  case writeCoils =>
    rw [passes_chk16_bind]
    exact and_congr_right' ((passes_counted (read := readBits M 0)
      (P := fun n => 5 + bitBytes n ≤ Config.payloadMax)
      (fun n => by rw [bitBytes]; omega)).trans (and_congr_right' readBits_zero_iff))
  case writeRegs =>
    rw [passes_chk16_bind]
    exact and_congr_right' ((passes_counted (read := readHalves M 0)
      (P := fun n => 5 + 2 * n ≤ Config.payloadMax)
      (fun n => by omega)).trans (and_congr_right' readHalves_zero_iff))
  case fileRefs =>
    exact (passes_counted (read := readFileRefs M 0) (P := fun n => 1 + 7 * n ≤ Config.payloadMax)
      (fun n => by omega)).trans (and_congr_right' readFileRefs_zero_iff)
  case fileData =>
    refine (passes_sized (read := readFileData M 0)
      (P := fun ds => 1 + fileDataSize ds ≤ Config.payloadMax)).trans (and_congr_right' ?_)
    simp only [readFileData_fits_iff, fileDataPass_iff, not_exists, not_and, Nat.not_lt]
  case fileWrites =>
    refine (passes_sized (read := readFileWrites M 0)
      (P := fun ds => 1 + fileWriteSize ds ≤ Config.payloadMax)).trans (and_congr_right' ?_)
    simp only [readFileWrites_fits_iff, fileWritePass_iff, not_exists, not_and, Nat.not_lt]
  case readWrite =>
    rw [passes_chk16_bind, passes_chk16_bind, passes_chk16_bind]
    exact and_congr_right' (and_congr_right' (and_congr_right' ((passes_counted (read := readHalves M 0)
      (P := fun n => 9 + 2 * n ≤ Config.payloadMax)
      (fun n => by omega)).trans (and_congr_right' readHalves_zero_iff))))
  case fifoValues =>
    exact (passes_counted (read := readHalves M 0) (P := fun n => 4 + 2 * n ≤ Config.payloadMax)
      (fun n => by omega)).trans (and_congr_right' readHalves_zero_iff)

end

/-- A header with bits above the function code does not pack, whatever the code (40_codec.md R160). -/
theorem readDescriptor_wide_header {dir : Dir} {M : Nat → Word} (h : 0x100 ≤ (M 0).toNat) :
    readDescriptor dir M = .error .range := if_pos h

/-- A descriptor of a supported function code whose payload does not pass ends with RANGE (40_codec.md R160). -/
theorem readDescriptor_range {dir : Dir} {M : Nat → Word} {fc : Byte} {l : Layout}
    (h0 : M 0 = fc.setWidth 32) (hl : layoutOf dir fc = some l) (hfails : PackFails M l) :
    readDescriptor dir M = .error .range := by
  rw [readDescriptor_eq h0 hl]
  cases hp : readPayload M l with
  | error e => rw [readPayload_error hp]; rfl
  | ok p => exact absurd hfails ((readPayload_passes_iff M l).mp ⟨p, hp⟩)

/-- Settles O39: the payload limit follows from the limits on the counts, so a descriptor of a supported function code
packs exactly when its layout's checks pass. -/
theorem encodeRejectsWideFields : Obligations.EncodeRejectsWideFields := by
  refine fun dir s => ⟨fun h => exec_encode_error (readDescriptor_wide_header h), fun fc l h0 hl =>
    ⟨fun hfails => exec_encode_error (readDescriptor_range h0 hl hfails), fun hpass => ?_⟩⟩
  obtain ⟨p, hp⟩ := (readPayload_passes_iff s.msg l).mpr hpass
  have hread := readDescriptor_of_readPayload h0 hl hp (describes_of_readPayload h0 hp).2
  exact ⟨⟨fc, p⟩, hread, rfl, (encodeStoresThePdu dir s ⟨fc, p⟩ hread).1⟩

/-! ## The bytes and words of a row -/

section
variable {s : State} {a b c q w k : Half} {values : List Half} {bits : List Bool}

theorem be16_eq (v : Half) : be16 v = [hi8 v, lo8 v] := by
  have hhi : hiByte v = hi8 v := BitVec.eq_of_toNat_eq (by simp [hiByte, hi8, Nat.shiftRight_eq_div_pow])
  have hlo : loByte v = lo8 v := BitVec.eq_of_toNat_eq (by simp [loByte, lo8])
  rw [be16, hhi, hlo]

theorem halfBytes_eq (vs : List Half) : halfBytes vs = wireBytes vs := by
  rw [halfBytes, wireBytes, funext be16_eq]

/-- A PDU row stores its message's bytes when packed and its message's words when unpacked (40_codec.md R162, R163). -/
theorem row_stores {row : CodecOp → Instr} {m : Message} {bytes : List Byte} {words : List (Nat × Word)}
    (hrun : ∀ op, exec (row op) s = .next (runMessage op m s)) (hfits : payloadFits m.body)
    (hbytes : packMessage m = bytes) (hwords : descriptorWords m = words) :
    PackedAs s bytes (exec (row .pack) s) ∧ UnpackedAs s words (exec (row .unpack) s) := by
  have hlen := packMessage_length_le hfits
  rw [hrun, hrun, ← hbytes, ← hwords]
  exact ⟨runMessage_pack (by omega) s, runMessage_unpack (payloadElements_length hfits.1) s⟩

/-! ## Fixed layouts -/

theorem pair_row_stores {row : CodecOp → Half → Half → Instr} {fc : Byte}
    (hrun : ∀ op, exec (row op a b) s = .next (runMessage op ⟨fc, .pair a b⟩ s)) :
    PackedAs s [fc, hi8 a, lo8 a, hi8 b, lo8 b] (exec (row .pack a b) s)
      ∧ UnpackedAs s [(0, fc.setWidth 32), (1, a.setWidth 32), (2, b.setWidth 32)]
          (exec (row .unpack a b) s) :=
  row_stores (row := fun op => row op a b) hrun payloadFits_pair
    (by rw [packMessage, packPayload, be16_eq, be16_eq]; rfl) rfl

theorem maskWrite_row_stores {row : CodecOp → Half → Half → Half → Instr}
    (hrun : ∀ op, exec (row op a b c) s = .next (runMessage op ⟨0x16, .maskWrite a b c⟩ s)) :
    PackedAs s [0x16, hi8 a, lo8 a, hi8 b, lo8 b, hi8 c, lo8 c] (exec (row .pack a b c) s)
      ∧ UnpackedAs s [(0, 0x16), (1, a.setWidth 32), (2, b.setWidth 32), (3, c.setWidth 32)]
          (exec (row .unpack a b c) s) :=
  row_stores (row := fun op => row op a b c) hrun payloadFits_maskWrite
    (by rw [packMessage, packPayload, be16_eq, be16_eq, be16_eq]; rfl) rfl

theorem fifoPointer_row_stores :
    PackedAs s [0x18, hi8 a, lo8 a] (exec (.pduReq18 .pack a) s)
      ∧ UnpackedAs s [(0, 0x18), (1, a.setWidth 32)] (exec (.pduReq18 .unpack a) s) :=
  row_stores (row := fun op => .pduReq18 op a) (fun _ => rfl) payloadFits_fifoPointer
    (by rw [packMessage, packPayload, be16_eq]) rfl

theorem exceptionCode_eq_ofNat (fc7 : BitVec 7) : exceptionCode fc7 = BitVec.ofNat 8 (128 + fc7.toNat) := by
  rw [← exceptionCode_toNat, BitVec.ofNat_toNat, BitVec.setWidth_eq]

theorem exceptionCode_word (fc7 : BitVec 7) :
    (exceptionCode fc7).setWidth 32 = BitVec.ofNat 32 (128 + fc7.toNat) := by
  rw [← exceptionCode_toNat, BitVec.ofNat_toNat]

theorem exception_row_stores {fc7 : BitVec 7} {code : Byte} :
    PackedAs s [BitVec.ofNat 8 (128 + fc7.toNat), code] (exec (.pduRspExc .pack fc7 code) s)
      ∧ UnpackedAs s [(0, BitVec.ofNat 32 (128 + fc7.toNat)), (1, code.setWidth 32)]
          (exec (.pduRspExc .unpack fc7 code) s) :=
  row_stores (row := fun op => .pduRspExc op fc7 code) (fun _ => rfl) payloadFits_exception
    (by rw [packMessage, packPayload, exceptionCode_eq_ofNat]) (by rw [← exceptionCode_word]; rfl)

/-! ## Register lists -/

theorem counted_halfBytes (vs : List Half) :
    counted (halfBytes vs) = BitVec.ofNat 8 (2 * vs.length) :: wireBytes vs := by
  rw [counted, halfBytes_length, halfBytes_eq, countByte]

theorem registers_row_stores {row : CodecOp → List Half → Instr} {fc : Byte}
    (hlen : values.length ≤ 125)
    (hrun : ∀ op, exec (row op values) s = .next (runMessage op ⟨fc, .registers values⟩ s)) :
    PackedAs s (fc :: BitVec.ofNat 8 (2 * values.length) :: wireBytes values) (exec (row .pack values) s)
      ∧ UnpackedAs s ((0, fc.setWidth 32) :: (1, BitVec.ofNat 32 values.length)
          :: elementWords (values.map fun v => v.setWidth 32)) (exec (row .unpack values) s) :=
  row_stores (row := fun op => row op values) hrun
    (payloadFits_registers (decide_eq_true (by rw [Config.payloadMax]; omega)))
    (by rw [packMessage, packPayload, counted_halfBytes]) rfl

/-! ## Coil lists -/

theorem bitWords_eq (bits : List Bool) : bitWords bits = bits.map fun b => if b then 1 else 0 :=
  List.map_congr_left fun b _ => bitWord_eq b

theorem counted_packBits (h : bits.length % 8 = 0) :
    counted (packBits bits) = BitVec.ofNat 8 (bits.length / 8) :: packBits bits := by
  rw [counted, packBits_length, show (bits.length + 7) / 8 = bits.length / 8 by omega, countByte]

theorem coils_row_stores {row : CodecOp → List Bool → Instr} {fc : Byte} (hwhole : bits.length % 8 = 0)
    (hlen : bits.length / 8 ≤ 251)
    (hrun : ∀ op, exec (row op bits) s = .next (runMessage op ⟨fc, .coils bits⟩ s)) :
    PackedAs s (fc :: BitVec.ofNat 8 (bits.length / 8) :: packBits bits) (exec (row .pack bits) s)
      ∧ UnpackedAs s ((0, fc.setWidth 32) :: (1, BitVec.ofNat 32 (8 * (bits.length / 8)))
          :: elementWords (bits.map fun b => if b then 1 else 0)) (exec (row .unpack bits) s) := by
  have hcount : bits.length = 8 * (bits.length / 8) := by omega
  have hlimit : 1 + bits.length / 8 ≤ Config.payloadMax := by rw [Config.payloadMax]; omega
  exact row_stores (row := fun op => row op bits) hrun
    (payloadFits_coils (by simp [coilsOk, wholeBytes, hwhole, hlimit]))
    (by rw [packMessage, packPayload, counted_packBits hwhole]) (by rw [← bitWords_eq, ← hcount]; rfl)

theorem writeCoils_row_stores (hwhole : bits.length % 8 = 0) (hlen : bits.length / 8 ≤ 247) :
    PackedAs s
        (0x0F :: hi8 a :: lo8 a :: hi8 q :: lo8 q :: BitVec.ofNat 8 (bits.length / 8) :: packBits bits)
        (exec (.pduReq0F .pack a q bits) s)
      ∧ UnpackedAs s
        ((0, 0x0F) :: (1, a.setWidth 32) :: (2, q.setWidth 32) :: (3, BitVec.ofNat 32 (bits.length / 8))
          :: elementWords (bits.map fun b => if b then 1 else 0))
        (exec (.pduReq0F .unpack a q bits) s) := by
  have hlimit : 5 + bits.length / 8 ≤ Config.payloadMax := by rw [Config.payloadMax]; omega
  exact row_stores (row := fun op => .pduReq0F op a q bits) (fun _ => rfl)
    (payloadFits_writeCoils (by simp [wholeBytes, hwhole, hlimit]))
    (by rw [packMessage, packPayload, counted_packBits hwhole, be16_eq, be16_eq]; rfl)
    (by rw [← bitWords_eq]; rfl)

/-! ## File records -/

theorem fileRefBytes_eq (r : FileRef) :
    fileRefBytes r = r.refType :: wireBytes [r.file, r.record, r.length] := by
  rw [← halfBytes_eq]
  rfl

theorem fileDataBytes_eq (d : FileData) :
    fileDataBytes d = BitVec.ofNat 8 (1 + 2 * d.values.length) :: d.refType :: wireBytes d.values := by
  rw [← halfBytes_eq]
  rfl

theorem fileWriteBytes_eq (d : FileWrite) :
    fileWriteBytes d = d.refType
      :: wireBytes (d.file :: d.record :: BitVec.ofNat 16 d.values.length :: d.values) := by
  rw [← halfBytes_eq]
  rfl

theorem fileWrites_row_stores {row : CodecOp → List FileWrite → Instr} {writes : List FileWrite}
    (hfits : fileWritesOk writes = true)
    (hrun : ∀ op, exec (row op writes) s = .next (runMessage op ⟨0x15, .fileWrites writes⟩ s)) :
    PackedAs s
        (0x15 :: BitVec.ofNat 8 (fileWriteSize writes)
          :: writes.flatMap fun d => d.refType
            :: wireBytes (d.file :: d.record :: BitVec.ofNat 16 d.values.length :: d.values))
        (exec (row .pack writes) s)
      ∧ UnpackedAs s
        ((0, 0x15) :: (1, BitVec.ofNat 32 writes.length)
          :: elementWords (writes.flatMap fun d =>
            d.refType.setWidth 32 :: d.file.setWidth 32 :: d.record.setWidth 32
              :: BitVec.ofNat 32 d.values.length :: d.values.map fun v => v.setWidth 32))
        (exec (row .unpack writes) s) :=
  row_stores (row := fun op => row op writes) hrun (payloadFits_fileWrites hfits)
    (by rw [packMessage, packPayload, counted, fileWrites_length, funext fileWriteBytes_eq, countByte]) rfl

end

/-- Settles O32: each row of fixed layout runs the message with its function code and its fields. -/
theorem fixedLayoutRows : Obligations.FixedLayoutRows := by
  intro s a b c fc7 code
  refine ⟨?_, ?_, fifoPointer_row_stores.1, fifoPointer_row_stores.2, exception_row_stores.1,
    exception_row_stores.2⟩
  · simp only [List.forall_mem_cons, List.not_mem_nil, false_imp_iff, implies_true, and_true]
    refine ⟨?_, ?_, ?_, ?_, ?_, ?_, ?_, ?_, ?_, ?_⟩ <;> exact pair_row_stores fun _ => rfl
  · simp only [List.forall_mem_cons, List.not_mem_nil, false_imp_iff, implies_true, and_true]
    exact ⟨maskWrite_row_stores fun _ => rfl, maskWrite_row_stores fun _ => rfl⟩

/-- Settles O33: each limit on the list's length is the payload limit under its row's layout. -/
theorem registerListRows : Obligations.RegisterListRows := by
  intro s a q w k vs
  have hmax : Config.payloadMax = 252 := rfl
  refine ⟨fun hlen => ?_, fun hlen => ?_, fun hlen => ?_, fun hlen => ?_⟩
  · simp only [List.forall_mem_cons, List.not_mem_nil, false_imp_iff, implies_true, and_true]
    exact ⟨registers_row_stores hlen fun _ => rfl, registers_row_stores hlen fun _ => rfl,
      registers_row_stores hlen fun _ => rfl⟩
  · exact row_stores (row := fun op => .pduReq10 op a q vs) (fun _ => rfl)
      (payloadFits_writeRegs (decide_eq_true (by omega)))
      (by rw [packMessage, packPayload, counted_halfBytes, be16_eq, be16_eq]; rfl) rfl
  · exact row_stores (row := fun op => .pduReq17 op a q w k vs) (fun _ => rfl)
      (payloadFits_readWrite (decide_eq_true (by omega)))
      (by rw [packMessage, packPayload, counted_halfBytes, be16_eq, be16_eq, be16_eq, be16_eq]; rfl) rfl
  · exact row_stores (row := fun op => .pduRsp18 op vs) (fun _ => rfl)
      (payloadFits_fifoValues (decide_eq_true (by omega)))
      (by rw [packMessage, packPayload, halfBytes_eq, be16_eq, be16_eq]; rfl) rfl

/-- Settles O34: bits in whole bytes need no padding, so the byte count is an eighth of theirs. -/
theorem coilRows : Obligations.CoilRows := by
  refine fun s a q bits hwhole => ⟨fun hlen => ?_, writeCoils_row_stores hwhole⟩
  simp only [List.forall_mem_cons, List.not_mem_nil, false_imp_iff, implies_true, and_true]
  exact ⟨coils_row_stores hwhole hlen fun _ => rfl, coils_row_stores hwhole hlen fun _ => rfl⟩

/-- Settles O35: the bytes and words of a file record message are those of its sub-structures, one after another. -/
theorem fileRows : Obligations.FileRows := by
  refine fun s refs data writes => ⟨fun hwf => ?_, fun hwf => ?_, fun hwf => ?_⟩
  · exact row_stores (row := fun op => .pduReq14 op refs) (fun _ => rfl) (payloadFits_fileRefs hwf)
      (by rw [packMessage, packPayload, counted, fileRefs_length, funext fileRefBytes_eq, countByte]) rfl
  · exact row_stores (row := fun op => .pduRsp14 op data) (fun _ => rfl) (payloadFits_fileData hwf)
      (by rw [packMessage, packPayload, counted, fileData_length, funext fileDataBytes_eq, countByte]) rfl
  · simp only [List.forall_mem_cons, List.not_mem_nil, false_imp_iff, implies_true, and_true]
    exact ⟨fileWrites_row_stores hwf fun _ => rfl, fileWrites_row_stores hwf fun _ => rfl⟩

end Sys2Proof.Machine
end

section
/-! PROOF. The statements of 41_checksum.md: the four accumulator commands, the residue property of the CRC,
the zero sum of the LRC, and what a run of FEED commands leaves in the accumulators. -/

namespace Sys2Proof.Machine

/-! ## The CRC register

A shift is linear over XOR and loses nothing, so the sixteen shifts of two bytes give 0 only for a register
that equals the two bytes. -/

section
variable {c : Half}

theorem crcShift_odd (h : c.getLsbD 0 = true) : crcShift c = (c >>> 1) ^^^ Config.crcPoly := if_pos h

theorem crcShift_even (h : c.getLsbD 0 = false) : crcShift c = c >>> 1 :=
  if_neg (Bool.not_eq_true _ ▸ h)

/-- A shift is linear. -/
theorem crcShift_xor (x y : Half) : crcShift (x ^^^ y) = crcShift x ^^^ crcShift y := by
  have hbit : (x ^^^ y).getLsbD 0 = (x.getLsbD 0 ^^ y.getLsbD 0) := BitVec.getLsbD_xor
  have hshift : (x ^^^ y) >>> 1 = (x >>> 1) ^^^ (y >>> 1) := BitVec.ushiftRight_xor_distrib x y 1
  cases hx : x.getLsbD 0 <;> cases hy : y.getLsbD 0 <;> rw [hx, hy] at hbit
  · rw [crcShift_even hbit, crcShift_even hx, crcShift_even hy, hshift]
  · rw [crcShift_odd hbit, crcShift_even hx, crcShift_odd hy, hshift, BitVec.xor_assoc]
  · rw [crcShift_odd hbit, crcShift_odd hx, crcShift_even hy, hshift]
    ac_rfl
  · rw [crcShift_even hbit, crcShift_odd hx, crcShift_odd hy, hshift]
    calc x >>> 1 ^^^ y >>> 1
        = (x >>> 1 ^^^ y >>> 1) ^^^ (Config.crcPoly ^^^ Config.crcPoly) := by
          rw [BitVec.xor_self, BitVec.xor_zero]
      _ = (x >>> 1 ^^^ Config.crcPoly) ^^^ (y >>> 1 ^^^ Config.crcPoly) := by ac_rfl

/-- A shift that subtracts the polynomial sets the top bit, so only 0 shifts to 0. -/
theorem crcShift_eq_zero : crcShift c = 0 ↔ c = 0 := by
  refine ⟨fun h => ?_, fun h => h.symm ▸ rfl⟩
  cases hbit : c.getLsbD 0
  · rw [crcShift_even hbit] at h
    have hdiv : c.toNat / 2 = 0 := by simpa [Nat.shiftRight_eq_div_pow] using congrArg BitVec.toNat h
    have hmod : c.toNat % 2 = 0 := by simpa [BitVec.getLsbD] using hbit
    exact BitVec.eq_of_toNat_eq (show c.toNat = 0 by omega)
  · have hpoly : c >>> 1 = Config.crcPoly := BitVec.xor_eq_zero_iff.mp (crcShift_odd hbit ▸ h)
    have htop : (c >>> 1).getLsbD 15 = Config.crcPoly.getLsbD 15 := by rw [hpoly]
    rw [BitVec.getLsbD_ushiftRight, BitVec.getLsbD_of_ge c (1 + 15) (by decide)] at htop
    cases htop

theorem crcShifts_succ (n : Nat) (c : Half) : crcShifts (n + 1) c = crcShifts n (crcShift c) := rfl

/-- The model's shifts are an iteration. -/
theorem crcShifts_eq_iterate (n : Nat) (c : Half) : crcShifts n c = crcShift^[n] c := by
  induction n generalizing c with
  | zero => rfl
  | succ n ih => exact ih (crcShift c)

theorem crcShifts_crcShifts (m n : Nat) (c : Half) : crcShifts m (crcShifts n c) = crcShifts (m + n) c := by
  simp only [crcShifts_eq_iterate, Function.iterate_add_apply]

theorem crcShifts_xor (n : Nat) (x y : Half) : crcShifts n (x ^^^ y) = crcShifts n x ^^^ crcShifts n y := by
  induction n generalizing x y with
  | zero => rfl
  | succ n ih => simp only [crcShifts_succ, crcShift_xor, ih]

theorem crcShifts_eq_zero {n : Nat} : crcShifts n c = 0 ↔ c = 0 := by
  induction n generalizing c with
  | zero => rfl
  | succ n ih => rw [crcShifts_succ, ih, crcShift_eq_zero]

/-- A register whose low n bits are 0 loses only these in n shifts. -/
theorem crcShifts_of_low_zero {n : Nat} (h : ∀ i < n, c.getLsbD i = false) : crcShifts n c = c >>> n := by
  induction n generalizing c with
  | zero => rfl
  | succ n ih =>
    have hlow : ∀ i < n, (c >>> 1).getLsbD i = false := fun i hi => by
      rw [BitVec.getLsbD_ushiftRight, h (1 + i) (by omega)]
    rw [crcShifts_succ, crcShift_even (h 0 (by omega)), ih hlow, ← BitVec.shiftRight_add, Nat.add_comm]

/-- Eight shifts bring the high byte down. -/
theorem crcShifts_high (b : Byte) : crcShifts 8 (half b 0#8) = b.setWidth 16 := by
  have hlow : ∀ i < 8, (half b 0#8).getLsbD i = false := fun i hi => by
    rw [half, BitVec.getLsbD_append, if_pos hi, BitVec.getLsbD_zero]
  rw [crcShifts_of_low_zero hlow]
  apply BitVec.eq_of_toNat_eq
  rw [BitVec.toNat_ushiftRight, half, toNat_append_eq, Nat.shiftRight_eq_div_pow, BitVec.toNat_zero,
    BitVec.toNat_setWidth_of_le (by decide), Nat.add_zero, Nat.mul_div_cancel_left _ (by decide)]

theorem half_eq_xor (hi lo : Byte) : half hi lo = lo.setWidth 16 ^^^ half hi 0#8 := by
  ext i hi'
  rw [BitVec.getElem_xor, half, half, BitVec.getElem_append, BitVec.getElem_append, BitVec.getElem_setWidth]
  split
  · rename_i hlow
    rw [BitVec.getElem_zero, Bool.xor_false, BitVec.getLsbD_eq_getElem hlow]
  · rw [BitVec.getLsbD_of_ge lo i (by omega), Bool.false_xor]

/-- Feeding two bytes, low byte first, is sixteen shifts of the register XORed with their value. -/
theorem crcStep_pair (c : Half) (lo hi : Byte) :
    crcStep (crcStep c lo) hi = crcShifts 16 (c ^^^ half hi lo) :=
  calc crcStep (crcStep c lo) hi
      = crcShifts 8 (crcShifts 8 (c ^^^ lo.setWidth 16) ^^^ crcShifts 8 (half hi 0#8)) := by
        rw [crcShifts_high]; rfl
    _ = crcShifts 16 (c ^^^ half hi lo) := by
        rw [← crcShifts_xor, crcShifts_crcShifts, BitVec.xor_assoc, ← half_eq_xor]

end

theorem crc16_append_pair (xs : List Byte) (lo hi : Byte) :
    crc16 (xs ++ [lo, hi]) = crcShifts 16 (crc16 xs ^^^ half hi lo) := by
  rw [crc16, List.foldl_append]
  exact crcStep_pair _ lo hi

/-- Two trailing bytes, low byte first, make the CRC 0 exactly when they are the CRC of the others. -/
theorem crc16_append_pair_eq_zero {xs : List Byte} {lo hi : Byte} :
    crc16 (xs ++ [lo, hi]) = 0 ↔ crc16 xs = half hi lo := by
  rw [crc16_append_pair, crcShifts_eq_zero]
  exact BitVec.xor_eq_zero_iff

theorem crcOk_append_pair {xs : List Byte} {lo hi : Byte} :
    crcOk (xs ++ [lo, hi]) = true ↔ crc16 xs = half hi lo := by
  simp [crcOk]

theorem exists_append_pair {fr : List Byte} (h : 2 ≤ fr.length) : ∃ xs lo hi, fr = xs ++ [lo, hi] := by
  have hlen : (fr.drop (fr.length - 2)).length = 2 := by
    rw [List.length_drop]
    omega
  obtain ⟨lo, hi, hlast⟩ := List.length_eq_two.mp hlen
  exact ⟨fr.take (fr.length - 2), lo, hi, by rw [← hlast, List.take_append_drop]⟩

/-- Settles O26: a frame is a list and two bytes, and both the check and a CRC of 0 say that these bytes are
the list's CRC. -/
theorem crcResidueIsZero : Obligations.CrcResidueIsZero := by
  refine ⟨fun xs => crc16_append_pair_eq_zero.mpr (half_hiByte_loByte _).symm, fun fr hlen => ?_⟩
  obtain ⟨xs, lo, hi, rfl⟩ := exists_append_pair hlen
  rw [crcOk_append_pair, crc16_append_pair_eq_zero]

/-! ## The byte sum -/

theorem byteSum_append_singleton (xs : List Byte) (b : Byte) : byteSum (xs ++ [b]) = byteSum xs + b := by
  rw [byteSum, List.foldl_append]
  rfl

theorem byteSum_toNat (xs : List Byte) : (byteSum xs).toNat = (xs.map BitVec.toNat).sum % 256 := by
  induction xs using List.reverseRecOn with
  | nil => rfl
  | append_singleton xs b ih =>
    rw [byteSum_append_singleton, BitVec.toNat_add, ih]
    simp

theorem lrc_toNat (xs : List Byte) :
    (lrc xs).toNat = (256 - (xs.map BitVec.toNat).sum % 256) % 256 := by
  rw [lrc, lrcOfSum_toNat, byteSum_toNat]

theorem lrcOk_append_singleton {xs : List Byte} {b : Byte} :
    lrcOk (xs ++ [b]) = true ↔ (lrc xs).toNat = b.toNat := by
  simp [lrcOk, BitVec.toNat_inj]

/-- Settles O27: a decoded frame is a list and a byte, and the check says that the byte is the list's LRC. -/
theorem lrcMakesTheSumZero : Obligations.LrcMakesTheSumZero := by
  refine ⟨fun xs => ?_, fun fr hlen => ?_⟩
  · rw [lrc_toNat]
    omega
  · obtain ⟨xs, b, rfl⟩ := (List.eq_nil_or_concat' fr).resolve_left (List.length_pos_iff.mp hlen)
    have hb := b.isLt
    rw [lrcOk_append_singleton, lrc_toNat, List.map_append, List.sum_append, List.map_singleton,
      List.sum_singleton]
    omega

/-! ## The accumulator commands -/

/-- Settles O24: each command is its rule of R250-R253, with the CRC step as an iteration and the sum in
numbers. -/
theorem checksumCommandEffects : Obligations.ChecksumCommandEffects := by
  intro s b
  have hstep : crcStep s.crcAcc b = crcShift^[8] (s.crcAcc ^^^ b.setWidth 16) := crcShifts_eq_iterate 8 _
  have hsum : s.lrcSum + b = BitVec.ofNat 8 ((s.lrcSum.toNat + b.toNat) % 256) :=
    BitVec.eq_of_toNat_eq (by simp)
  exact ⟨rfl, congrArg (fun c : Half => (.next { s with err := .ok, crcAcc := c } : Result)) hstep,
    rfl, congrArg (fun c : Byte => (.next { s with err := .ok, lrcSum := c } : Result)) hsum⟩

/-! ## Feeding a list -/

/-- A run that consumes one event for each byte of a list folds what each step does: `stateAt c es`
is the state it passes through with accumulator c and the events es to come. -/
theorem run_fold {γ : Type} {stateAt : γ → List Event → State} {event : Byte → Event} {feed : γ → Byte → γ}
    (hstep : ∀ c b es, step (stateAt c (event b :: es)) = .next (stateAt (feed c b) es))
    (xs : List Byte) (c : γ) (rest : List Event) :
    core.run xs.length (stateAt c (xs.map event ++ rest)) = .next (stateAt (xs.foldl feed c) rest) := by
  induction xs generalizing c with
  | nil => rfl
  | cons b xs ih =>
    exact (run_succ (hstep c b (xs.map event ++ rest))).trans (ih (feed c b))

/-- The state after an acknowledged command of the CRC accumulator, with the events to come. -/
def crcFed (s : State) (c : Half) (es : List Event) : State :=
  { s with crcAcc := c, err := .ok, hostResp := .done, inputs := es }

/-- The state after an acknowledged command of the byte sum, with the events to come. -/
def lrcFed (s : State) (b : Byte) (es : List Event) : State :=
  { s with lrcSum := b, err := .ok, hostResp := .done, inputs := es }

theorem decode_crcFeed (b : Byte) :
    decode (.command (BitVec.ofNat 32 (2 + 256 * b.toNat))) = .ok (.crcFeed b) := by
  have hword : (0x00000002 : Word) ||| (b.setWidth 32 <<< 8) = BitVec.ofNat 32 (2 + 256 * b.toNat) :=
    word_eq_ofNat (dataWord_toNat (by decide) b)
  exact hword ▸ decodeEncodeRoundTrip (.crcFeed b) rfl

theorem decode_lrcFeed (b : Byte) :
    decode (.command (BitVec.ofNat 32 (4 + 256 * b.toNat))) = .ok (.lrcFeed b) := by
  have hword : (0x00000004 : Word) ||| (b.setWidth 32 <<< 8) = BitVec.ofNat 32 (4 + 256 * b.toNat) :=
    word_eq_ofNat (dataWord_toNat (by decide) b)
  exact hword ▸ decodeEncodeRoundTrip (.lrcFeed b) rfl

theorem step_crcFed (s : State) (c : Half) (b : Byte) (es : List Event) :
    step (crcFed s c (.busWrite .word 0x010 (BitVec.ofNat 32 (2 + 256 * b.toNat)) :: es))
      = .next (crcFed s (crcStep c b) es) :=
  stepRunsDecodedCommand (crcFed s c _) _ es _ rfl (decode_crcFeed b)

theorem step_lrcFed (s : State) (c b : Byte) (es : List Event) :
    step (lrcFed s c (.busWrite .word 0x010 (BitVec.ofNat 32 (4 + 256 * b.toNat)) :: es))
      = .next (lrcFed s (c + b) es) :=
  stepRunsDecodedCommand (lrcFed s c _) _ es _ rfl (decode_lrcFeed b)

/-- The low byte of the LRC register (R36). -/
theorem readLrc_low (s : State) : (readRegister .lrc s).extractLsb' 0 8 = lrcOfSum s.lrcSum := by
  apply BitVec.eq_of_toNat_eq
  rw [BitVec.extractLsb'_toNat, readLrc_toNat, lrcOfSum_toNat]
  omega

/-- Settles O25: the INIT command is the first step, and each FEED command folds in its byte. -/
theorem fedBytesGiveChecksums : Obligations.FedBytesGiveChecksums := by
  refine fun s xs rest => ⟨fun h => ?_, fun h => ?_⟩
  · rw [run_succ (stepRunsDecodedCommand s _ _ .crcInit h rfl)]
    exact run_fold (step_crcFed s) xs Config.crcSeed rest
  · refine ⟨lrcFed s (byteSum xs) rest, ?_, rfl, byteSum_toNat xs, readLrc_low _⟩
    rw [run_succ (stepRunsDecodedCommand s _ _ .lrcInit h rfl)]
    exact run_fold (step_lrcFed s) xs 0 rest

end Sys2Proof.Machine
end

section
/-! PROOF. The statements of 42_framing.md: what delivery stores, the three receivers character by character,
the RTU time check, what the three receivers make of a whole frame, the bytes of the three frames, and the
transmitter's start, run and end. -/

namespace Sys2Proof.Machine

/-! ## Delivery (R290) -/

/-- `t` has `pdu` in RXBUF from entry 0 on, and every other RAM byte as `s` has it. -/
def RxbufTakes (pdu : List Byte) (s t : State) : Prop :=
  (∀ k b, pdu[k]? = some b → t.rxbuf k = b)
    ∧ ∀ a, (∀ k, k < pdu.length → a ≠ rxbufAddr k) → t.readByte a = s.readByte a

/-- A fill of RXBUF is seen through the memory and the draw of RAM_INIT alone. -/
theorem rxbufTakes_of_fill {pdu : List Byte} {s t : State} (hlen : pdu.length ≤ 256)
    (hm : t.mem = (s.fillRxbuf 0 pdu).mem) (hd : t.ramDraw = s.ramDraw) : RxbufTakes pdu s t := by
  have hread : ∀ a, t.readByte a = (s.fillRxbuf 0 pdu).readByte a := fun a =>
    State.readByte_eq_of_lookup hd (by rw [hm])
  refine ⟨fun k b hk => ?_, fun a ha => (hread a).trans (State.readByte_fillRxbuf_other ha)⟩
  obtain ⟨hl, rfl⟩ := List.getElem?_eq_some_iff.mp hk
  exact (hread _).trans (State.rxbuf_fillRxbuf hl (Nat.lt_of_lt_of_le hl hlen))

section
variable {s : State} {unit : Byte} {pdu : List Byte} {tid pid : Half}

theorem deliver_overrun (h : s.rxValid = true) :
    deliver unit pdu tid pid s =
      { s with overrun := true, cntOverrun := s.cntOverrun + 1, rxAsm := [], rxNib := none } :=
  if_pos h

theorem deliver_stored (h : s.rxValid = false) :
    deliver unit pdu tid pid s =
      { s with
        mem := (s.fillRxbuf 0 pdu).mem, rxUnit := unit, rxLen := BitVec.ofNat 9 pdu.length
        rxTid := tid, rxPid := pid, rxValid := true, cntRxOk := s.cntRxOk + 1, rxAsm := []
        rxNib := none } :=
  if_neg (Bool.eq_false_iff.mp h)

/-- Delivery does not read the assembly buffer: it takes the PDU that it is handed. -/
theorem deliver_assembly (a : List Byte) :
    deliver unit pdu tid pid { s with rxAsm := a } = deliver unit pdu tid pid s := by
  rcases Bool.eq_false_or_eq_true s.rxValid with hv | hv
  · exact (deliver_overrun (s := { s with rxAsm := a }) hv).trans (deliver_overrun hv).symm
  · exact (deliver_stored (s := { s with rxAsm := a }) hv).trans (deliver_stored hv).symm

end

/-- Settles O51: the two branches of `deliver`. -/
theorem deliveryOrOverrun : Obligations.DeliveryOrOverrun := by
  intro s unit pdu tid pid _ hlen
  refine ⟨deliver_overrun, fun hv => ⟨_, deliver_stored hv, rfl, ?_⟩⟩
  exact rxbufTakes_of_fill (by omega) rfl rfl

/-! ## The gap classes (R281) -/

theorem gapOk_iff (s : State) (d : Nat) :
    s.gapOk d = true ↔ 2 * d * s.baud.toNat ≤ 5 * (1000000 * s.charBits.toNat) := by
  rw [State.gapOk, State.charK, decide_eq_true_eq]

theorem gapErr_iff (s : State) (d : Nat) :
    s.gapErr d = true ↔ 5 * (1000000 * s.charBits.toNat) < 2 * d * s.baud.toNat
      ∧ 2 * d * s.baud.toNat < 9 * (1000000 * s.charBits.toNat) := by
  rw [State.gapErr, State.charK, Bool.and_eq_true, decide_eq_true_eq, decide_eq_true_eq]

/-- Settles O45: the inequalities divide the line, since 5K < 9K. -/
theorem gapClassesAreExclusive : Obligations.GapClassesAreExclusive := by
  intro s d hbits
  simp only [← Bool.not_eq_true, gapOk_iff, gapErr_iff, gapEof_iff]
  omega

/-! ## The RTU receiver (R280-R283) -/

section
variable {s : State} {b : Byte}

/-- A discard for its checksum counts as one, and leaves no partial frame (R277). -/
theorem discardFrame_crcErr (s : State) :
    discardFrame .checksum s =
      { s with rxAsm := [], rxNib := none, rxErr := true, cntCrcErr := s.cntCrcErr + 1 } := rfl

theorem completeRtu_short (h : s.rxAsm.length < 4) : completeRtu s = discardFrame .short s := if_pos h

theorem completeRtu_badCrc (h : 4 ≤ s.rxAsm.length) (hc : crcOk s.rxAsm = false) :
    completeRtu s = discardFrame .checksum s := by
  rw [completeRtu, if_neg (by omega), if_neg (Bool.eq_false_iff.mp hc)]

/-- The PDU of an RTU frame: what stands between the unit id and the two bytes of the CRC (R283). -/
def rtuPdu (fr : List Byte) : List Byte := (fr.drop 1).take (fr.length - 3)

theorem rtuPdu_length (fr : List Byte) : (rtuPdu fr).length = fr.length - 3 := by
  rw [rtuPdu, List.length_take, List.length_drop]
  omega

theorem getElem?_rtuPdu {fr : List Byte} {i : Nat} (h : i < fr.length - 3) :
    (rtuPdu fr)[i]? = fr[i + 1]? := by
  rw [rtuPdu, List.getElem?_take_of_lt h, List.getElem?_drop, Nat.add_comm]

theorem completeRtu_good (h : 4 ≤ s.rxAsm.length) (hc : crcOk s.rxAsm = true) :
    completeRtu s = deliver (s.rxAsm.getD 0 0) (rtuPdu s.rxAsm) 0 0 s := by
  rw [completeRtu, if_neg (by omega), if_pos hc, rtuPdu]

/-- A character in RTU mode (R291). -/
theorem step_rtuChar {rest : List Event} (hm : s.mode = .rtu) (h : s.inputs = .rxChar b :: rest) :
    step s = .next (rtuChar b { s with inputs := rest, tLine := s.t }) := by
  rw [step_rxChar h, rxCharEvent]
  simp only [hm]

theorem rtuChar_disabled (h : s.rxs = .disabled) : rtuChar b s = s := by simp only [rtuChar, h]

theorem rtuChar_idle (h : s.rxs = .idle) :
    rtuChar b s = { s with rxAsm := [b], rxs := .receiving, tRxLast := s.t } := by
  simp only [rtuChar, h]

/-- Within 1.5 character times the frame grows, up to 256 bytes. -/
theorem rtuChar_grows (h : s.rxs = .receiving)
    (hd : 2 * (s.t - s.tRxLast) * s.baud.toNat ≤ 5 * (1000000 * s.charBits.toNat))
    (hl : s.rxAsm.length ≠ 256) :
    rtuChar b s = { s with rxAsm := s.rxAsm ++ [b], tRxLast := s.t } := by
  simp only [rtuChar, h, (gapOk_iff s _).2 hd, if_true]
  exact if_neg hl

theorem rtuChar_overflows (h : s.rxs = .receiving)
    (hd : 2 * (s.t - s.tRxLast) * s.baud.toNat ≤ 5 * (1000000 * s.charBits.toNat))
    (hl : s.rxAsm.length = 256) :
    rtuChar b s = { discardFrame .overflow s with rxs := .error, tRxLast := s.t } := by
  simp only [rtuChar, h, (gapOk_iff s _).2 hd, if_true]
  exact if_pos hl

theorem gapOk_eq_false {d : Nat} (h : 5 * (1000000 * s.charBits.toNat) < 2 * d * s.baud.toNat) :
    s.gapOk d = false := by
  rw [← Bool.not_eq_true, gapOk_iff]
  omega

/-- A silence between 1.5 and 4.5 character times breaks the frame. -/
theorem rtuChar_gap (h : s.rxs = .receiving)
    (h5 : 5 * (1000000 * s.charBits.toNat) < 2 * (s.t - s.tRxLast) * s.baud.toNat)
    (h9 : 2 * (s.t - s.tRxLast) * s.baud.toNat < 9 * (1000000 * s.charBits.toNat)) :
    rtuChar b s = { discardFrame .gap s with rxs := .error, tRxLast := s.t } := by
  simp only [rtuChar, h, gapOk_eq_false h5, (gapErr_iff s _).2 ⟨h5, h9⟩, if_true, Bool.false_eq_true,
    if_false]

/-- After 4.5 character times the frame is complete and the character starts the next one. -/
theorem rtuChar_completes (h : s.rxs = .receiving) (hk : 0 < s.charBits.toNat)
    (h9 : 9 * (1000000 * s.charBits.toNat) ≤ 2 * (s.t - s.tRxLast) * s.baud.toNat) :
    rtuChar b s = { completeRtu s with rxAsm := [b], rxs := .receiving, tRxLast := s.t } := by
  have hok : s.gapOk (s.t - s.tRxLast) = false := gapOk_eq_false (by omega)
  have herr : s.gapErr (s.t - s.tRxLast) = false := by
    rw [← Bool.not_eq_true, gapErr_iff]
    omega
  simp only [rtuChar, h, hok, herr, Bool.false_eq_true, if_false]

theorem rtuChar_error_waits (h : s.rxs = .error)
    (hd : 2 * (s.t - s.tRxLast) * s.baud.toNat < 9 * (1000000 * s.charBits.toNat)) :
    rtuChar b s = { s with tRxLast := s.t } := by
  simp only [rtuChar, h]
  exact if_neg fun hc => by have := (gapEof_iff s _).1 hc; omega

theorem rtuChar_error_ends (h : s.rxs = .error)
    (hd : 9 * (1000000 * s.charBits.toNat) ≤ 2 * (s.t - s.tRxLast) * s.baud.toNat) :
    rtuChar b s = { s with rxAsm := [b], rxs := .receiving, tRxLast := s.t } := by
  simp only [rtuChar, h]
  exact if_pos ((gapEof_iff s _).2 hd)

end

/-- Settles O46: the branches of the RTU receiver, with the gap classes in numbers. -/
theorem rtuReceiveCases : Obligations.RtuReceiveCases := by
  intro s b rest ⟨⟨hbits, _⟩, _⟩ hm h s0 silence k lost
  have hk : 0 < s.charBits.toNat := by omega
  rw [step_rtuChar hm h]
  refine ⟨fun hx => ?_, fun hx => ?_, fun hx hd hl => ?_, fun hx hd hl => ?_, fun hx h5 h9 => ?_,
    fun hx h9 => ?_, fun hx hd => ?_, fun hx hd => ?_⟩ <;> refine congrArg Host.Outcome.next ?_
  · exact rtuChar_disabled (s := s0) hx
  · exact rtuChar_idle (s := s0) hx
  · exact rtuChar_grows (s := s0) hx hd hl
  · exact rtuChar_overflows (s := s0) hx hd hl
  · exact rtuChar_gap (s := s0) hx h5 h9
  · exact rtuChar_completes (s := s0) hx hk h9
  · exact rtuChar_error_waits (s := s0) hx hd
  · exact rtuChar_error_ends (s := s0) hx hd

/-! ## The RTU time check (R282, R283) -/

section
variable {s r t : State} {rest : List Event}

/-- A Tick is the time check and then the transmitter's step (60_exceptions.md R381). -/
theorem step_tick_eq (h : s.inputs = .tick :: rest) :
    step s = .next (txStep (rtuTimeCheck { s with inputs := rest, t := s.t + 1 })) := step_tick h

/-- After the time check the Tick changes the transmitter's items only. -/
theorem txStep_upTo_of_eq (h : rtuTimeCheck s = r) : UpToTransmitter (txStep (rtuTimeCheck s)) r :=
  h ▸ txStep_upTo _

theorem UpToTransmitter.mem (h : UpToTransmitter t r) : t.mem = r.mem := by rw [h]

theorem UpToTransmitter.ramDraw (h : UpToTransmitter t r) : t.ramDraw = r.ramDraw := by rw [h]

end

/-- Settles O48: what the time check does not change, the transmitter's step does not either. -/
theorem tickOutsideAnRtuFrame : Obligations.TickOutsideAnRtuFrame := by
  intro s rest h silence k s0
  refine ⟨_, step_tick_eq h, fun hm hx h9 => ?_, fun hm hx h9 => ?_, fun hx => ?_⟩
  · exact txStep_upTo_of_eq (rtuTimeCheck_error (s := s0) hm hx h9)
  · exact txStep_upTo_of_eq (rtuTimeCheck_before (s := s0) h9)
  · rcases hx with hm | ⟨herror, hreceiving⟩
    · exact txStep_upTo_of_eq (rtuTimeCheck_mode (s := s0) hm)
    · exact txStep_upTo_of_eq (rtuTimeCheck_idle (s := s0) hreceiving herror)

/-- Settles O47: the time check runs `complete_rtu`, whose branches are the four ends of a frame. -/
theorem rtuFrameCompletesAfterSilence : Obligations.RtuFrameCompletesAfterSilence := by
  intro s rest hm hx hlen h silence k n s0 ended
  refine ⟨_, step_tick_eq h, fun h9 => txStep_upTo_of_eq (rtuTimeCheck_before (s := s0) h9), fun h9 => ?_⟩
  have hcheck : rtuTimeCheck s0 = { completeRtu s0 with rxs := .idle } := rtuTimeCheck_receiving hm hx h9
  refine ⟨fun hn => txStep_upTo_of_eq ?_, fun hn hc => txStep_upTo_of_eq ?_,
    fun hn hc hv => txStep_upTo_of_eq ?_, fun hn hc hv => ?_⟩
  · exact hcheck.trans (by rw [completeRtu_short (s := s0) hn]; rfl)
  · exact hcheck.trans (by rw [completeRtu_badCrc (s := s0) hn hc]; rfl)
  · exact hcheck.trans (by rw [completeRtu_good (s := s0) hn hc, deliver_overrun (s := s0) hv])
  · rw [completeRtu_good (s := s0) hn hc, deliver_stored (s := s0) hv] at hcheck
    have htx := txStep_upTo_of_eq hcheck
    have hpdu : (rtuPdu s.rxAsm).length = n - 3 := rtuPdu_length s.rxAsm
    obtain ⟨hstored, hframe⟩ :=
      rxbufTakes_of_fill (s := s0) (rtuPdu_length s.rxAsm ▸ by omega) htx.mem htx.ramDraw
    refine ⟨?_, fun i hi => ?_, fun a ha => hframe a (hpdu ▸ ha)⟩
    · rw [← hpdu, htx.mem]
      exact htx
    · have hget := getElem?_rtuPdu hi
      obtain ⟨b, hb⟩ : ∃ b, s.rxAsm[i + 1]? = some b := ⟨_, List.getElem?_eq_getElem (by omega)⟩
      rw [hb, hstored i b (hget.trans hb)]

/-! ## The ASCII receiver (R285-R287) -/

/-- A character that is an upper-case hex digit (R272). -/
def IsHexChar (c : Byte) : Prop :=
  (0x30 ≤ c.toNat ∧ c.toNat ≤ 0x39) ∨ (0x41 ≤ c.toNat ∧ c.toNat ≤ 0x46)

/-- The value of a hex digit (R272). -/
def hexCharValue (c : Byte) : BitVec 4 :=
  BitVec.ofNat 4 (if c.toNat ≤ 0x39 then c.toNat - 0x30 else c.toNat - 0x37)

section
variable {s : State} {c : Byte} {v : BitVec 4}

theorem setWidth_sub {k : Byte} (h : k.toNat ≤ c.toNat) :
    (c - k).setWidth 4 = BitVec.ofNat 4 (c.toNat - k.toNat) := by
  apply BitVec.eq_of_toNat_eq
  rw [BitVec.toNat_setWidth, BitVec.toNat_ofNat, BitVec.toNat_sub_of_le (BitVec.le_def.mpr h)]

theorem hexVal_of_isHexChar (h : IsHexChar c) : hexVal c = some (hexCharValue c) := by
  unfold hexVal hexCharValue
  rcases h with h | h
  · rw [if_pos h, if_pos h.2, setWidth_sub (k := 0x30) h.1]
    rfl
  · rw [if_neg (by omega), if_pos h, if_neg (by omega),
      setWidth_sub (k := 0x37) (show 0x37 ≤ c.toNat by omega)]
    rfl

theorem hexVal_of_not_isHexChar (h : ¬ IsHexChar c) : hexVal c = none := by
  unfold IsHexChar at h
  rw [hexVal, if_neg (by tauto), if_neg (by tauto)]

theorem ne_colon_of_hexVal (h : hexVal c = some v) : c ≠ colonChar := by
  rintro rfl
  cases h

theorem completeAscii_bad (h : s.rxNib ≠ none ∨ s.rxAsm.length < 3) :
    completeAscii s = discardFrame .badAscii s := if_pos h

theorem completeAscii_badLrc (hn : s.rxNib = none) (h : 3 ≤ s.rxAsm.length) (hc : lrcOk s.rxAsm = false) :
    completeAscii s = discardFrame .checksum s := by
  rw [completeAscii, if_neg (by rw [hn]; simp; omega), if_neg (Bool.eq_false_iff.mp hc)]

theorem completeAscii_good (hn : s.rxNib = none) (h : 3 ≤ s.rxAsm.length) (hc : lrcOk s.rxAsm = true) :
    completeAscii s = deliver (s.rxAsm.getD 0 0) s.rxAsm.tail.dropLast 0 0 s := by
  have hpdu : (s.rxAsm.drop 1).take (s.rxAsm.length - 2) = s.rxAsm.tail.dropLast := by
    rw [List.drop_one, List.dropLast_eq_take, List.length_tail]
    rfl
  rw [completeAscii, if_neg (by rw [hn]; simp; omega), if_pos hc, hpdu]

/-- A character in ASCII mode (R291). -/
theorem step_asciiChar {rest : List Event} (hm : s.mode = .ascii) (h : s.inputs = .rxChar c :: rest) :
    step s = .next (asciiChar c { s with inputs := rest, tLine := s.t }) := by
  rw [step_rxChar h, rxCharEvent]
  simp only [hm]

theorem asciiChar_disabled (h : s.rxs = .disabled) : asciiChar c s = s := by simp only [asciiChar, h]

theorem asciiChar_idle_skips (h : s.rxs = .idle) (hc : c ≠ colonChar) : asciiChar c s = s := by
  simp only [asciiChar, h, if_neg hc]

/-- ':' starts a frame. -/
theorem asciiChar_idle_starts (h : s.rxs = .idle) :
    asciiChar colonChar s = { s with rxAsm := [], rxNib := none, rxs := .receiving } := by
  simp only [asciiChar, h, if_true, asciiStart]
  rfl

/-- ':' inside a frame discards it and starts the next. -/
theorem asciiChar_restarts (h : s.rxs = .receiving ∨ s.rxs = .gotCr) :
    asciiChar colonChar s = { discardFrame .restart s with rxs := .receiving } := by
  have hstart : asciiStart s = { discardFrame .restart s with rxs := .receiving } := by
    rw [asciiStart, if_pos h]
    rfl
  rcases h with h | h <;> simp only [asciiChar, h, if_true, hstart]

theorem asciiChar_digit (h : s.rxs = .receiving) (hv : hexVal c = some v) :
    asciiChar c s = asciiDigit v s := by
  simp only [asciiChar, h, if_neg (ne_colon_of_hexVal hv), hv]

theorem asciiDigit_high (h : s.rxNib = none) : asciiDigit v s = { s with rxNib := some v } := by
  simp only [asciiDigit, h]

theorem asciiDigit_low {n : BitVec 4} (h : s.rxNib = some n) (hl : s.rxAsm.length ≠ 255) :
    asciiDigit v s = { s with rxAsm := s.rxAsm ++ [n ++ v], rxNib := none } := by
  simp only [asciiDigit, h]
  exact if_neg hl

theorem asciiDigit_full {n : BitVec 4} (h : s.rxNib = some n) (hl : s.rxAsm.length = 255) :
    asciiDigit v s = { discardFrame .badAscii s with rxs := .idle } := by
  simp only [asciiDigit, h]
  exact if_pos hl

theorem asciiChar_cr (h : s.rxs = .receiving) : asciiChar crChar s = { s with rxs := .gotCr } := by
  have hcolon : crChar ≠ colonChar := by decide
  have hhex : hexVal crChar = none := by decide
  simp only [asciiChar, h, if_neg hcolon, hhex, if_true]

theorem asciiChar_nonHex (h : s.rxs = .receiving) (hv : hexVal c = none) (hcr : c ≠ crChar)
    (hc : c ≠ colonChar) : asciiChar c s = { discardFrame .nonHex s with rxs := .idle } := by
  simp only [asciiChar, h, if_neg hc, hv, if_neg hcr]

theorem asciiChar_gotCr_breaks (h : s.rxs = .gotCr) (hlf : c ≠ lfChar) (hc : c ≠ colonChar) :
    asciiChar c s = { discardFrame .badAscii s with rxs := .idle } := by
  simp only [asciiChar, h, if_neg hc, if_neg hlf]

/-- LF after CR completes the frame. -/
theorem asciiChar_gotCr_lf (h : s.rxs = .gotCr) :
    asciiChar lfChar s = { completeAscii s with rxs := .idle } := by
  have hcolon : lfChar ≠ colonChar := by decide
  simp only [asciiChar, h, if_neg hcolon, if_true]

/-- A byte from its two digits (R285). -/
theorem nibbles_eq_ofNat (h v : BitVec 4) : (h ++ v : Byte) = BitVec.ofNat 8 (16 * h.toNat + v.toNat) := by
  have hh := h.isLt
  have hv := v.isLt
  apply BitVec.eq_of_toNat_eq
  rw [toNat_append_eq, BitVec.toNat_ofNat, Nat.mod_eq_of_lt (by omega)]
  rfl

end

/-- Settles O49: the branches of the ASCII receiver, with the hex digits in numbers. -/
theorem asciiReceiveCases : Obligations.AsciiReceiveCases := by
  intro s c rest hm h s0 lost hex digit
  have hdigit : s.rxs = .receiving → hex → asciiChar c s0 = asciiDigit digit s0 := fun hx hc =>
    asciiChar_digit hx (hexVal_of_isHexChar hc)
  rw [step_asciiChar hm h]
  refine ⟨fun hx => ?_, fun hx hc => ?_, fun hx hc => ?_, fun hx hc => ?_, fun hx hc hn => ?_,
    fun n hx hc hn hl => ?_, fun n hx hc hn hl => ?_, fun hx hc => ?_, fun hx hc hcr hcolon => ?_,
    fun hx hlf hcolon => ?_, fun hx hc hbad => ?_, fun hx hc hn hl hlrc => ?_,
    fun hx hc hn hl hlrc => ?_⟩ <;> refine congrArg Host.Outcome.next ?_
  · exact asciiChar_disabled (s := s0) hx
  · exact asciiChar_idle_skips (s := s0) hx hc
  · subst hc
    exact asciiChar_idle_starts (s := s0) hx
  · subst hc
    exact asciiChar_restarts (s := s0) hx
  · exact (hdigit hx hc).trans (asciiDigit_high (s := s0) hn)
  · rw [← nibbles_eq_ofNat]
    exact (hdigit hx hc).trans (asciiDigit_low (s := s0) hn hl)
  · exact (hdigit hx hc).trans (asciiDigit_full (s := s0) hn hl)
  · subst hc
    exact asciiChar_cr (s := s0) hx
  · exact asciiChar_nonHex (s := s0) hx (hexVal_of_not_isHexChar hc) hcr hcolon
  · exact asciiChar_gotCr_breaks (s := s0) hx hlf hcolon
  · subst hc
    exact (asciiChar_gotCr_lf (s := s0) hx).trans (by rw [completeAscii_bad (s := s0) hbad]; rfl)
  · subst hc
    exact (asciiChar_gotCr_lf (s := s0) hx).trans (by
      rw [completeAscii_badLrc (s := s0) hn hl hlrc, discardFrame_crcErr, hn])
  · subst hc
    exact (asciiChar_gotCr_lf (s := s0) hx).trans (by rw [completeAscii_good (s := s0) hn hl hlrc])

/-! ## The STREAM receiver (R288, R289, R296) -/

theorem rd16_toNat (xs : List Byte) (p : Nat) :
    (rd16 xs p).toNat = 256 * (xs.getD p 0).toNat + (xs.getD (p + 1) 0).toNat := toNat_append_eq _ _

section
variable {s : State} {b : Byte}

/-- A byte in STREAM mode (R291). -/
theorem step_streamChar {rest : List Event} (hm : s.mode = .stream) (h : s.inputs = .rxChar b :: rest) :
    step s = .next (streamChar b { s with inputs := rest }) := by
  rw [step_rxChar h, rxCharEvent]
  simp only [hm]

theorem streamChar_ignores (h : s.rxs = .disabled ∨ s.rxs = .error) : streamChar b s = s := by
  rcases h with h | h <;> simp only [streamChar, h]

theorem streamChar_idle (h : s.rxs = .idle) :
    streamChar b s = { s with rxAsm := [b], rxs := .receiving } := by
  simp only [streamChar, h]

/-- At its sixth byte a frame is discarded for a length field outside 2 to 254. -/
theorem streamChar_badLength (h : s.rxs = .receiving) (h6 : (s.rxAsm ++ [b]).length = 6)
    (hl : (rd16 (s.rxAsm ++ [b]) 4).toNat < 2 ∨ 254 < (rd16 (s.rxAsm ++ [b]) 4).toNat) :
    streamChar b s = { discardFrame .badLength { s with rxAsm := s.rxAsm ++ [b] } with rxs := .error } := by
  simp only [streamChar, h]
  exact if_pos ⟨h6, hl⟩

/-- A frame grows through its header and, with a legal length field, up to its last byte. -/
theorem streamChar_grows (h : s.rxs = .receiving)
    (hl : 6 ≤ (s.rxAsm ++ [b]).length →
      2 ≤ (rd16 (s.rxAsm ++ [b]) 4).toNat ∧ (rd16 (s.rxAsm ++ [b]) 4).toNat ≤ 254
        ∧ (s.rxAsm ++ [b]).length < 6 + (rd16 (s.rxAsm ++ [b]) 4).toNat) :
    streamChar b s = { s with rxAsm := s.rxAsm ++ [b] } := by
  have hmax : Config.lenMax = 254 := rfl
  simp only [streamChar, h]
  rw [if_neg (by omega), if_neg (by omega)]

/-- The last byte that the length field counts completes the frame. -/
theorem streamChar_completes (h : s.rxs = .receiving) (h2 : 2 ≤ (rd16 (s.rxAsm ++ [b]) 4).toNat)
    (h254 : (rd16 (s.rxAsm ++ [b]) 4).toNat ≤ 254)
    (hl : (s.rxAsm ++ [b]).length = 6 + (rd16 (s.rxAsm ++ [b]) 4).toNat) :
    streamChar b s = { completeStream { s with rxAsm := s.rxAsm ++ [b] } with rxs := .idle } := by
  have hmax : Config.lenMax = 254 := rfl
  simp only [streamChar, h]
  rw [if_neg (by omega), if_pos (by omega)]

theorem completeStream_eq (hl : s.rxAsm.length = 6 + (rd16 s.rxAsm 4).toNat) :
    completeStream s =
      deliver (s.rxAsm.getD 6 0) (s.rxAsm.drop 7) (rd16 s.rxAsm 0) (rd16 s.rxAsm 2) s := by
  have hpdu : (s.rxAsm.drop 7).take ((rd16 s.rxAsm 4).toNat - 1) = s.rxAsm.drop 7 :=
    List.take_of_length_le (by rw [List.length_drop]; omega)
  rw [completeStream, hpdu]

end

/-- Settles O50: the branches of the STREAM receiver, with the length field in numbers, and of the end of
the stream. -/
theorem streamReceiveCases : Obligations.StreamReceiveCases := by
  intro s b rest s0 fr len
  have hlen : (rd16 fr 4).toNat = len := rd16_toNat fr 4
  refine ⟨fun hm h => ?_, fun h => ?_⟩
  · rw [step_streamChar hm h]
    refine ⟨fun hx => ?_, fun hx => ?_, fun hx hl => ?_, fun hx hl hbad => ?_,
      fun hx hl h2 h254 hmore => ?_, fun hx h2 h254 hl => ?_⟩ <;> refine congrArg Host.Outcome.next ?_
    · exact streamChar_ignores (s := s0) hx
    · exact streamChar_idle (s := s0) hx
    · exact streamChar_grows (s := s0) hx fun h6 => absurd h6 (Nat.not_le_of_lt hl)
    · exact streamChar_badLength (s := s0) hx hl (hlen ▸ hbad)
    · exact streamChar_grows (s := s0) hx fun _ => hlen ▸ ⟨h2, h254, hmore⟩
    · refine (streamChar_completes (s := s0) hx (hlen ▸ h2) (hlen ▸ h254) (hlen ▸ hl)).trans ?_
      rw [completeStream_eq (s := { s0 with rxAsm := fr }) (hlen ▸ hl), deliver_assembly]
  · rw [step_rxEos h]
    exact ⟨fun hm hx => congrArg _ (if_pos ⟨hm, hx⟩),
      fun hx => congrArg _ (if_neg fun ⟨hm, hrx⟩ => hx.elim (absurd hm) (absurd hrx))⟩

/-! ## Frames on the line

A frame's characters grow the assembly buffer one by one; what grows it is the receiver's own lemma for a
character in the middle of a frame. -/

/-- A run that consumes the characters of `xs`, each of which only grows the buffer: `stateAt a es` is the
state with the bytes `a` assembled and the events `es` to come. -/
theorem run_assembly {stateAt : List Byte → List Event → State} (xs : List Byte) (a : List Byte)
    (rest : List Event)
    (hstep : ∀ p b q es, xs = p ++ b :: q →
      step (stateAt (a ++ p) (.rxChar b :: es)) = .next (stateAt (a ++ p ++ [b]) es)) :
    core.run xs.length (stateAt a (xs.map .rxChar ++ rest)) = .next (stateAt (a ++ xs) rest) := by
  induction xs generalizing a with
  | nil => rw [List.append_nil]; rfl
  | cons x xs ih =>
    have hfirst := hstep [] x xs (xs.map .rxChar ++ rest) rfl
    rw [List.append_nil] at hfirst
    refine (run_succ hfirst).trans ?_
    rw [ih (a ++ [x]) fun p b q es hx => ?_, List.append_assoc, List.singleton_append]
    have := hstep (x :: p) b q es (by rw [hx, List.cons_append])
    rwa [List.append_cons] at this

/-! ### RTU -/

/-- The RTU receiver in a frame whose last character has just come. -/
def rtuReceiving (s : State) (a : List Byte) (es : List Event) : State :=
  { s with rxAsm := a, rxs := .receiving, tRxLast := s.t, tLine := s.t, inputs := es }

section
variable {s : State}

theorem step_rtuReceiving (hm : s.mode = .rtu) (a : List Byte) (b : Byte) (es : List Event)
    (hl : a.length < 256) :
    step (rtuReceiving s a (.rxChar b :: es)) = .next (rtuReceiving s (a ++ [b]) es) := by
  have hd : 2 * (s.t - s.t) * s.baud.toNat ≤ 5 * (1000000 * s.charBits.toNat) := by
    rw [Nat.sub_self, Nat.mul_zero, Nat.zero_mul]
    exact Nat.zero_le _
  rw [step_rtuChar (s := rtuReceiving s a _) hm rfl, rtuChar_grows rfl hd (Nat.ne_of_lt hl)]
  rfl

/-- The characters of a frame of at most 256 bytes are assembled. -/
theorem run_rtuFrame {b : Byte} {xs : List Byte} {rest : List Event} (hm : s.mode = .rtu)
    (hx : s.rxs = .idle) (hl : xs.length < 256)
    (h : s.inputs = ((b :: xs).map .rxChar ++ rest : List Event)) :
    core.run (xs.length + 1) s = .next (rtuReceiving s (b :: xs) rest) := by
  rw [run_succ ((step_rtuChar hm h).trans (congrArg _ (rtuChar_idle hx)))]
  refine run_assembly (stateAt := rtuReceiving s) xs [b] rest fun p c q es hxs => ?_
  refine step_rtuReceiving hm _ c es ?_
  rw [hxs] at hl
  simp only [List.length_append, List.length_cons, List.length_nil] at hl ⊢
  omega

theorem txStep_idle (h : s.txs = .idle) : txStep s = s := by
  simp only [txStep, txStart, h, txSendStep]

/-- With an idle transmitter a Tick is the time check alone. -/
theorem step_tick_idle {rest : List Event} (hidle : s.txs = .idle) (h : s.inputs = .tick :: rest) :
    step s = .next (rtuTimeCheck { s with inputs := rest, t := s.t + 1 }) :=
  (step_tick_eq h).trans (congrArg _ (txStep_idle ((rtuTimeCheck_txs _).trans hidle)))

/-- The state `n` microseconds later with nothing else changed but the events to come. -/
def afterTicks (s : State) (n : Nat) (es : List Event) : State := { s with inputs := es, t := s.t + n }

theorem afterTicks_afterTicks (s : State) (m n : Nat) (es fs : List Event) :
    afterTicks (afterTicks s m es) n fs = afterTicks s (m + n) fs := by
  simp only [afterTicks, Nat.add_assoc]

/-- Ticks before the end-of-frame silence only advance time while the transmitter is idle. -/
theorem run_ticks_before {n : Nat} {rest : List Event} (hidle : s.txs = .idle)
    (hd : 2 * (s.t + n - s.tRxLast) * s.baud.toNat < 9 * (1000000 * s.charBits.toNat))
    (h : s.inputs = List.replicate n .tick ++ rest) : core.run n s = .next (afterTicks s n rest) := by
  induction n generalizing s with
  | zero =>
    obtain rfl : s.inputs = rest := h
    rfl
  | succ n ih =>
    have hearly : 2 * (s.t + 1 - s.tRxLast) * s.baud.toNat < 9 * (1000000 * s.charBits.toNat) :=
      Nat.lt_of_le_of_lt (Nat.mul_le_mul_right _ (by omega)) hd
    have hstep : step s = .next (afterTicks s 1 (List.replicate n .tick ++ rest)) :=
      (step_tick_idle hidle h).trans (congrArg _ (rtuTimeCheck_before hearly))
    have hrest : core.run n (afterTicks s 1 (List.replicate n .tick ++ rest))
        = .next (afterTicks (afterTicks s 1 (List.replicate n .tick ++ rest)) n rest) := by
      refine ih hidle ?_ rfl
      simpa only [afterTicks, Nat.add_assoc, Nat.add_comm 1 n] using hd
    rw [run_succ hstep, hrest, afterTicks_afterTicks, Nat.add_comm]

/-- An RTU frame meets its own check (R271, 41_checksum.md R242). -/
theorem crcOk_rtuFrame (body : List Byte) : crcOk (rtuFrame body) = true :=
  crcOk_append_pair.mpr (half_hiByte_loByte _).symm

/-- What the RTU transmitter builds is complete as the PDU it was built from. -/
theorem completeRtu_rtuFrame {unit : Byte} {pdu : List Byte} (h1 : 1 ≤ pdu.length)
    (h : s.rxAsm = rtuFrame (unit :: pdu)) : completeRtu s = deliver unit pdu 0 0 s := by
  have hlen : 4 ≤ s.rxAsm.length := by
    rw [h, rtuFrame_length, List.length_cons]
    omega
  have hpdu : rtuPdu (rtuFrame (unit :: pdu)) = pdu := by simp [rtuPdu, rtuFrame, le16]
  rw [completeRtu_good hlen (h ▸ crcOk_rtuFrame _), h, hpdu]
  rfl

/-- The Tick at which the silence reaches 4.5 character times delivers the frame. -/
theorem step_tick_delivers {unit : Byte} {pdu : List Byte} {rest : List Event} (hm : s.mode = .rtu)
    (hx : s.rxs = .receiving) (hidle : s.txs = .idle) (h1 : 1 ≤ pdu.length)
    (hfr : s.rxAsm = rtuFrame (unit :: pdu))
    (hd : 9 * (1000000 * s.charBits.toNat) ≤ 2 * (s.t + 1 - s.tRxLast) * s.baud.toNat)
    (h : s.inputs = .tick :: rest) :
    step s = .next { deliver unit pdu 0 0 (afterTicks s 1 rest) with rxs := .idle } := by
  have hcheck :
      rtuTimeCheck (afterTicks s 1 rest) = { completeRtu (afterTicks s 1 rest) with rxs := .idle } :=
    rtuTimeCheck_receiving hm hx hd
  rw [completeRtu_rtuFrame (s := afterTicks s 1 rest) h1 hfr] at hcheck
  exact (step_tick_idle hidle h).trans (congrArg _ hcheck)

end

/-- Settles O52: the characters are assembled, all Ticks but the last are too early, and the last one finds the
frame complete and its CRC right. -/
theorem rtuLoopback : Obligations.RtuLoopback := by
  intro s unit pdu n rest hm hx hv hidle hbits h1 h253 hsilent hearly h
  obtain ⟨m, rfl⟩ : ∃ m, n = m + 1 := Nat.exists_eq_succ_of_ne_zero (by rintro rfl; omega)
  let received := rtuReceiving s (rtuFrame (unit :: pdu)) (List.replicate m .tick ++ .tick :: rest)
  have hchars : core.run (pdu.length + 3) s = .next received := by
    rw [List.replicate_succ', List.append_assoc, List.append_assoc] at h
    rw [show pdu.length + 3 = (pdu ++ le16 (crc16 (unit :: pdu))).length + 1 from
      (rtuFrame_length (unit :: pdu)).symm]
    refine run_rtuFrame hm hx ?_ h
    rw [List.length_append]
    exact Nat.lt_of_le_of_lt (Nat.add_le_add_right h253 2) (by decide)
  have hticks : core.run m received = .next (afterTicks received m (.tick :: rest)) := by
    refine run_ticks_before (s := received) hidle ?_ rfl
    rwa [show received.t + m - received.tRxLast = m from Nat.add_sub_cancel_left s.t m]
  have hlast : step (afterTicks received m (.tick :: rest))
      = .next { deliver unit pdu 0 0 (afterTicks received (m + 1) rest) with rxs := .idle } := by
    rw [← afterTicks_afterTicks received m 1 (.tick :: rest)]
    refine step_tick_delivers hm rfl hidle h1 rfl ?_ rfl
    have ht : s.t + m + 1 - s.t = m + 1 := by omega
    exact ht.symm ▸ hsilent
  have hrun := (run_add hchars).trans ((run_add hticks).trans (run_succ (k := 0) hlast))
  rw [deliver_stored (s := afterTicks received (m + 1) rest) hv] at hrun
  refine ⟨_, hrun, ?_, rxbufTakes_of_fill (by omega) rfl rfl⟩
  rw [← hx]
  rfl

/-! ### ASCII -/

/-- The ASCII receiver in a frame. -/
def asciiReceiving (s : State) (a : List Byte) (n : Option (BitVec 4)) (es : List Event) : State :=
  { s with rxAsm := a, rxNib := n, rxs := .receiving, tLine := s.t, inputs := es }

theorem hexVal_hexChar (v : BitVec 4) : hexVal (hexChar v) = some v := by
  revert v
  decide

theorem highNibble_toNat (b : Byte) : (b.extractLsb' 4 4).toNat = b.toNat / 16 := by
  rw [BitVec.extractLsb'_toNat, Nat.shiftRight_eq_div_pow]
  exact Nat.mod_eq_of_lt (Nat.div_lt_of_lt_mul b.isLt)

theorem lowNibble_toNat (b : Byte) : (b.extractLsb' 0 4).toNat = b.toNat % 16 := by
  rw [BitVec.extractLsb'_toNat, Nat.shiftRight_zero]

/-- A byte from the two halves that `hex2` sends (R272). -/
theorem nibbles_append (b : Byte) : (b.extractLsb' 4 4 ++ b.extractLsb' 0 4 : Byte) = b := by
  apply BitVec.eq_of_toNat_eq
  rw [toNat_append_eq, highNibble_toNat, lowNibble_toNat]
  exact Nat.div_add_mod b.toNat 16

/-- The LRC is sent as one more byte of the body (R273). -/
theorem asciiFrame_eq (body : List Byte) :
    asciiFrame body = colonChar :: ((body ++ [lrc body]).flatMap hex2 ++ [crChar, lfChar]) := by
  simp [asciiFrame]

/-- An ASCII frame meets its own check (R273, 41_checksum.md R248). -/
theorem lrcOk_append_lrc (body : List Byte) : lrcOk (body ++ [lrc body]) = true :=
  lrcOk_append_singleton.mpr rfl

section
variable {s : State}

theorem step_asciiReceiving (hm : s.mode = .ascii) (a : List Byte) (n : Option (BitVec 4)) (c : Byte)
    (es : List Event) :
    step (asciiReceiving s a n (.rxChar c :: es)) = .next (asciiChar c (asciiReceiving s a n es)) :=
  step_asciiChar (s := asciiReceiving s a n (.rxChar c :: es)) hm rfl

theorem step_highDigit (hm : s.mode = .ascii) (a : List Byte) (v : BitVec 4) (es : List Event) :
    step (asciiReceiving s a none (.rxChar (hexChar v) :: es)) = .next (asciiReceiving s a (some v) es) := by
  rw [step_asciiReceiving hm, asciiChar_digit rfl (hexVal_hexChar v), asciiDigit_high rfl]
  rfl

theorem step_lowDigit (hm : s.mode = .ascii) (a : List Byte) (n v : BitVec 4) (es : List Event)
    (hl : a.length < 255) :
    step (asciiReceiving s a (some n) (.rxChar (hexChar v) :: es))
      = .next (asciiReceiving s (a ++ [n ++ v]) none es) := by
  rw [step_asciiReceiving hm, asciiChar_digit rfl (hexVal_hexChar v), asciiDigit_low rfl (Nat.ne_of_lt hl)]
  rfl

/-- The two digits of a byte add it to the frame (R285). -/
theorem run_hex2 (hm : s.mode = .ascii) (a : List Byte) (b : Byte) (es : List Event)
    (hl : a.length < 255) :
    core.run 2 (asciiReceiving s a none ((hex2 b).map .rxChar ++ es))
      = .next (asciiReceiving s (a ++ [b]) none es) := by
  have hlow := step_lowDigit hm a (b.extractLsb' 4 4) (b.extractLsb' 0 4) es hl
  rw [nibbles_append] at hlow
  exact (run_succ (step_highDigit hm a _ _)).trans (run_succ hlow)

/-- The digits of a list of bytes add it to the frame, up to 255 bytes. -/
theorem run_hexBytes (hm : s.mode = .ascii) (xs a : List Byte) (es : List Event)
    (hl : a.length + xs.length ≤ 255) :
    core.run (2 * xs.length) (asciiReceiving s a none ((xs.flatMap hex2).map .rxChar ++ es))
      = .next (asciiReceiving s (a ++ xs) none es) := by
  induction xs generalizing a with
  | nil => rw [List.append_nil]; rfl
  | cons x xs ih =>
    rw [List.length_cons] at hl
    have hrest := ih (a ++ [x]) (by rw [List.length_append, List.length_singleton]; omega)
    rw [List.flatMap_cons, List.map_append, List.append_assoc, List.length_cons, Nat.mul_succ, Nat.add_comm,
      run_add (run_hex2 hm a x _ (by omega)), hrest, List.append_assoc, List.singleton_append]

/-- The ASCII receiver after CR. -/
def asciiGotCr (s : State) (a : List Byte) (es : List Event) : State :=
  { asciiReceiving s a none es with rxs := .gotCr }

/-- What the ASCII transmitter builds is complete as the PDU it was built from. -/
theorem completeAscii_frame {unit : Byte} {pdu : List Byte} (h1 : 1 ≤ pdu.length) (hn : s.rxNib = none)
    (h : s.rxAsm = unit :: pdu ++ [lrc (unit :: pdu)]) : completeAscii s = deliver unit pdu 0 0 s := by
  have hlen : 3 ≤ s.rxAsm.length := by
    rw [h, List.length_append, List.length_cons, List.length_singleton]
    omega
  rw [completeAscii_good hn hlen (h ▸ lrcOk_append_lrc _), h, List.cons_append, List.tail_cons,
    List.dropLast_concat]
  rfl

/-- CR and LF deliver the frame (R286, R287). -/
theorem run_crLf {unit : Byte} {pdu : List Byte} {a : List Byte} (hm : s.mode = .ascii)
    (h1 : 1 ≤ pdu.length) (ha : a = unit :: pdu ++ [lrc (unit :: pdu)]) (es : List Event) :
    core.run 2 (asciiReceiving s a none (.rxChar crChar :: .rxChar lfChar :: es))
      = .next { deliver unit pdu 0 0 (asciiGotCr s a es) with rxs := .idle } := by
  have hcr : step (asciiReceiving s a none (.rxChar crChar :: .rxChar lfChar :: es))
      = .next (asciiGotCr s a (.rxChar lfChar :: es)) :=
    (step_asciiReceiving hm a none crChar _).trans (congrArg _ (asciiChar_cr rfl))
  have hlf : step (asciiGotCr s a (.rxChar lfChar :: es))
      = .next { completeAscii (asciiGotCr s a es) with rxs := .idle } :=
    (step_asciiChar (s := asciiGotCr s a _) hm rfl).trans (congrArg _ (asciiChar_gotCr_lf rfl))
  rw [completeAscii_frame (s := asciiGotCr s a es) h1 rfl ha] at hlf
  exact (run_succ hcr).trans (run_succ hlf)

end

/-- Settles O53: ':' starts a frame, the digits assemble the body and its LRC, and CR LF find the LRC right. -/
theorem asciiLoopback : Obligations.AsciiLoopback := by
  intro s unit pdu rest hm hx hv h1 h253 h
  let bytes := unit :: pdu ++ [lrc (unit :: pdu)]
  have hlen : bytes.length = pdu.length + 2 := by simp [bytes]
  let crLf := .rxChar crChar :: .rxChar lfChar :: rest
  have hcolon : step s = .next (asciiReceiving s [] none ((bytes.flatMap hex2).map .rxChar ++ crLf)) := by
    rw [asciiFrame_eq, List.map_cons, List.map_append, List.cons_append, List.append_assoc] at h
    exact (step_asciiChar hm h).trans (congrArg _ (asciiChar_idle_starts hx))
  have hbytes := run_hexBytes (s := s) hm bytes [] crLf (by rw [hlen, List.length_nil]; omega)
  have hrun := (run_succ hcolon).trans ((run_add hbytes).trans (run_crLf hm h1 rfl rest))
  rw [deliver_stored (s := asciiGotCr s bytes rest) hv, hlen,
    show 2 * (pdu.length + 2) + 2 + 1 = 2 * pdu.length + 7 by omega] at hrun
  refine ⟨_, hrun, ?_, rxbufTakes_of_fill (by omega) rfl rfl⟩
  rw [← hx]
  rfl

/-! ### STREAM -/

/-- The STREAM receiver in a frame. -/
def streamReceiving (s : State) (a : List Byte) (es : List Event) : State :=
  { s with rxAsm := a, rxs := .receiving, inputs := es }

section
variable {s : State} {tid : Half} {unit : Byte} {pdu : List Byte}

theorem step_streamReceiving (hm : s.mode = .stream) (a : List Byte) (b : Byte) (es : List Event) :
    step (streamReceiving s a (.rxChar b :: es)) = .next (streamChar b (streamReceiving s a es)) :=
  step_streamChar (s := streamReceiving s a (.rxChar b :: es)) hm rfl

theorem streamFrame_eq (tid : Half) (unit : Byte) (pdu : List Byte) :
    streamFrame tid (unit :: pdu) = hiByte tid :: loByte tid :: 0 :: 0
      :: hiByte (countHalf (pdu.length + 1)) :: loByte (countHalf (pdu.length + 1)) :: unit :: pdu := by
  simp [streamFrame, be16, hiByte, loByte]

theorem streamFrame_length (tid : Half) (unit : Byte) (pdu : List Byte) :
    (streamFrame tid (unit :: pdu)).length = pdu.length + 7 := by
  simp [streamFrame_eq]

/-- The length field of a frame counts the unit id and the PDU (R274). -/
theorem rd16_streamFrame_length (h : pdu.length ≤ 253) :
    (rd16 (streamFrame tid (unit :: pdu)) 4).toNat = pdu.length + 1 := by
  have hfield : rd16 (streamFrame tid (unit :: pdu)) 4 = countHalf (pdu.length + 1) := by
    rw [streamFrame_eq]
    exact half_hiByte_loByte _
  rw [hfield, countHalf_toNat (by omega)]

/-- A proper beginning of a frame, of at least two bytes, is still being assembled. -/
theorem step_streamFrame_begins {a q : List Byte} {b : Byte} (hm : s.mode = .stream)
    (h253 : pdu.length ≤ 253) (h1 : 1 ≤ pdu.length)
    (hfr : streamFrame tid (unit :: pdu) = a ++ b :: q) (hq : q ≠ []) (es : List Event) :
    step (streamReceiving s a (.rxChar b :: es)) = .next (streamReceiving s (a ++ [b]) es) := by
  have hq' : 0 < q.length := List.length_pos_iff.mpr hq
  rw [List.append_cons] at hfr
  have hlen : (a ++ [b]).length + q.length = pdu.length + 7 := by
    rw [← List.length_append, ← hfr, streamFrame_length]
  refine (step_streamReceiving hm a b es).trans
    (congrArg _ (streamChar_grows rfl fun (h6 : 6 ≤ (a ++ [b]).length) => ?_))
  have hfield : (rd16 (a ++ [b]) 4).toNat = pdu.length + 1 := by
    rw [← rd16_append q h6, ← hfr, rd16_streamFrame_length h253]
  show 2 ≤ (rd16 (a ++ [b]) 4).toNat ∧ (rd16 (a ++ [b]) 4).toNat ≤ 254
    ∧ (a ++ [b]).length < 6 + (rd16 (a ++ [b]) 4).toNat
  omega

/-- What the STREAM transmitter builds is complete as the PDU it was built from. -/
theorem completeStream_streamFrame (h253 : pdu.length ≤ 253)
    (h : s.rxAsm = streamFrame tid (unit :: pdu)) : completeStream s = deliver unit pdu tid 0 s := by
  have hlen : s.rxAsm.length = 6 + (rd16 s.rxAsm 4).toNat := by
    rw [h, streamFrame_length, rd16_streamFrame_length h253]
    omega
  have htid : rd16 s.rxAsm 0 = tid := by
    rw [h, streamFrame_eq]
    exact half_hiByte_loByte tid
  have hpid : rd16 s.rxAsm 2 = 0 := by
    rw [h, streamFrame_eq]
    exact half_hiByte_loByte 0
  rw [completeStream_eq hlen, htid, hpid, h, streamFrame_eq]
  rfl

/-- The last byte of a frame is the last that its length field counts. -/
theorem step_streamFrame_ends {a : List Byte} {b : Byte} (hm : s.mode = .stream) (h253 : pdu.length ≤ 253)
    (h1 : 1 ≤ pdu.length) (hfr : streamFrame tid (unit :: pdu) = a ++ [b]) (es : List Event) :
    step (streamReceiving s a (.rxChar b :: es))
      = .next { deliver unit pdu tid 0 (streamReceiving s a es) with rxs := .idle } := by
  have hlen : (a ++ [b]).length = pdu.length + 7 := by rw [← hfr, streamFrame_length]
  have hfield : (rd16 (a ++ [b]) 4).toNat = pdu.length + 1 := by rw [← hfr, rd16_streamFrame_length h253]
  have hchar : streamChar b (streamReceiving s a es)
      = { completeStream (streamReceiving s (a ++ [b]) es) with rxs := .idle } :=
    streamChar_completes rfl (hfield.symm ▸ by omega) (hfield.symm ▸ by omega)
      (hlen.trans (hfield.symm ▸ by omega))
  rw [completeStream_streamFrame (s := streamReceiving s (a ++ [b]) es) h253 hfr.symm] at hchar
  have hbuffer : deliver unit pdu tid 0 (streamReceiving s (a ++ [b]) es)
      = deliver unit pdu tid 0 (streamReceiving s a es) :=
    deliver_assembly (s := streamReceiving s a es) (a ++ [b])
  rw [hbuffer] at hchar
  exact (step_streamReceiving hm a b es).trans (congrArg _ hchar)

end

theorem exists_first_last {α : Type} {xs : List α} (h : 2 ≤ xs.length) :
    ∃ x m z, xs = x :: (m ++ [z]) := by
  obtain ⟨x, ys, rfl⟩ := List.exists_cons_of_length_pos (Nat.lt_of_succ_lt h)
  rcases List.eq_nil_or_concat' ys with rfl | ⟨m, z, rfl⟩
  · exact absurd h (Nat.not_succ_le_self 1)
  · exact ⟨x, m, z, rfl⟩

/-- Settles O54: the bytes are assembled, and the last one is the last that the length field counts. -/
theorem streamLoopback : Obligations.StreamLoopback := by
  intro s tid unit pdu rest hm hx hv h1 h253 h
  have hlen := streamFrame_length tid unit pdu
  obtain ⟨x, m, z, hfr⟩ := exists_first_last (xs := streamFrame tid (unit :: pdu)) (by omega)
  rw [hfr, List.map_cons, List.map_append, List.cons_append, List.append_assoc] at h
  have hfirst : step s = .next (streamReceiving s [x] (m.map .rxChar ++ .rxChar z :: rest)) :=
    (step_streamChar hm h).trans (congrArg _ (streamChar_idle hx))
  have hmiddle := run_assembly (stateAt := streamReceiving s) m [x] (.rxChar z :: rest) fun p b q es hpq =>
    step_streamFrame_begins hm h253 h1 (q := q ++ [z]) (by rw [hfr, hpq]; simp) (by simp) es
  have hlast := step_streamFrame_ends (s := s) (a := [x] ++ m) hm h253 h1 hfr rest
  have hrun := (run_succ hfirst).trans ((run_add hmiddle).trans (run_succ (k := 0) hlast))
  rw [deliver_stored (s := streamReceiving s ([x] ++ m) rest) hv] at hrun
  have hsteps : m.length + (0 + 1) + 1 = pdu.length + 7 := by
    rw [hfr, List.length_cons, List.length_append, List.length_singleton] at hlen
    omega
  rw [hsteps] at hrun
  refine ⟨_, hrun, ?_, rxbufTakes_of_fill (by omega) rfl rfl⟩
  rw [← hx]
  rfl

/-! ## The bytes of the frames (R271-R274) -/

section
variable {s : State}

theorem getElem?_txBody {k : Nat} (h : k < s.txLen.toNat) : s.txBody[k + 1]? = some (s.txbuf k) := by
  simp [State.txBody, h]

/-- The CRC follows the body low byte first (R271). -/
theorem rtuFrame_eq (body : List Byte) :
    rtuFrame body = body ++ [lo8 (crc16 body), hi8 (crc16 body)] := by
  have hbytes := be16_eq (crc16 body)
  simp only [be16, List.cons.injEq, and_true] at hbytes
  rw [rtuFrame, le16, hbytes.1, hbytes.2]

/-- The header of a STREAM frame (R274). -/
theorem streamFrame_header (tid : Half) (body : List Byte) :
    streamFrame tid body = [hi8 tid, lo8 tid, 0, 0, hi8 (BitVec.ofNat 16 body.length),
      lo8 (BitVec.ofNat 16 body.length)] ++ body := by
  rw [streamFrame, be16_eq, be16_eq, be16_eq]
  rfl

/-- `HEX(v)` in numbers (R272). -/
theorem hexChar_eq_ofNat (v : BitVec 4) :
    hexChar v = BitVec.ofNat 8 (if v.toNat ≤ 9 then 0x30 + v.toNat else 0x37 + v.toNat) := by
  revert v
  decide

/-- Byte k of a list is sent as the hex characters 2k and 2k + 1. -/
theorem getElem?_flatMap_hex2 {xs : List Byte} {k : Nat} {b : Byte} (h : xs[k]? = some b) :
    (xs.flatMap hex2)[2 * k]? = some (hexChar (b.extractLsb' 4 4))
      ∧ (xs.flatMap hex2)[2 * k + 1]? = some (hexChar (b.extractLsb' 0 4)) := by
  induction xs generalizing k with
  | nil => cases h
  | cons x xs ih =>
    cases k with
    | zero =>
      cases h
      exact ⟨rfl, rfl⟩
    | succ k => exact ih h

/-- The digits of the body and its LRC are two for each byte. -/
theorem flatMap_hex2_length (body : List Byte) :
    ((body ++ [lrc body]).flatMap hex2).length = 2 * body.length + 2 := by
  have h := asciiFrame_length body
  rw [asciiFrame_eq, List.length_cons, List.length_append] at h
  exact Nat.add_right_cancel (m := 3) h

end

theorem getElem?_append_add {α : Type} (xs ys : List α) (i : Nat) :
    (xs ++ ys)[xs.length + i]? = ys[i]? := by
  rw [List.getElem?_append_right (Nat.le_add_right _ i), Nat.add_sub_cancel_left]

/-- Settles O42: the body, and what each mode puts around it. -/
theorem frameLayouts : Obligations.FrameLayouts := by
  intro s h1 h253 n body rtu ascii stream digit
  have hbody : body.length = n + 1 := txBody_length s
  have hdigits : ((body ++ [lrc body]).flatMap hex2).length = 2 * n + 4 := by
    rw [flatMap_hex2_length, hbody]
    omega
  have hascii : ascii = colonChar :: ((body ++ [lrc body]).flatMap hex2 ++ [crChar, lfChar]) :=
    asciiFrame_eq body
  have hrtu : rtu = body ++ [lo8 (crc16 body), hi8 (crc16 body)] := rtuFrame_eq body
  have hstream : stream = [hi8 s.txTid, lo8 s.txTid, 0, 0, hi8 (BitVec.ofNat 16 (n + 1)),
      lo8 (BitVec.ofNat 16 (n + 1))] ++ body := hbody ▸ streamFrame_header s.txTid body
  refine ⟨⟨hbody, rfl, fun k hk => getElem?_txBody hk⟩, ⟨?_, ?_, ?_, ?_⟩,
    ⟨?_, rfl, ?_, ?_, fun k b hk => ?_⟩, ?_, ?_, ?_⟩
  · exact (rtuFrame_length body).trans (by rw [hbody])
  · rw [hrtu, ← hbody, List.take_left]
  · rw [hrtu, ← hbody]
    exact getElem?_append_add body _ 0
  · rw [hrtu, show n + 2 = body.length + 1 by rw [hbody]]
    exact getElem?_append_add body _ 1
  · exact (asciiFrame_length body).trans (by rw [hbody]; omega)
  · rw [hascii, List.getElem?_cons_succ, ← hdigits]
    exact getElem?_append_add _ _ 0
  · rw [hascii, List.getElem?_cons_succ, show 2 * n + 5 = _ + 1 from congrArg (· + 1) hdigits.symm]
    exact getElem?_append_add _ _ 1
  · obtain ⟨hhigh, hlow⟩ := getElem?_flatMap_hex2 hk
    obtain ⟨hlt, -⟩ := List.getElem?_eq_some_iff.mp hk
    rw [List.length_append, List.length_singleton, hbody] at hlt
    rw [hascii, List.getElem?_cons_succ, List.getElem?_cons_succ, List.getElem?_append_left (by omega),
      List.getElem?_append_left (by omega), hhigh, hlow, hexChar_eq_ofNat, hexChar_eq_ofNat, highNibble_toNat,
      lowNibble_toNat]
    exact ⟨rfl, rfl⟩
  · rw [hstream, List.length_append, hbody]
    exact Nat.add_comm 6 (n + 1)
  · rw [hstream]
    rfl
  · rw [hstream]
    rfl

/-! ## The transmitter (R299, R300) -/

section
variable {s t r : State} {f : List Byte} {ts tCmd : Nat}

/-- The start condition, in numbers. -/
theorem mayStart_iff (s : State) :
    s.mayStart = true ↔ s.txDly.toNat ≤ s.t - s.tLine
      ∧ (s.mode = .rtu →
          7 * (1000000 * s.charBits.toNat) ≤ 2 * (s.t - s.tLine) * s.baud.toNat) := by
  rw [State.mayStart, Bool.and_eq_true, Bool.or_eq_true, decide_eq_true_eq, decide_eq_true_eq, bne_iff_ne,
    ne_eq, ← imp_iff_not_or, State.charK]

/-! ### When characters start -/

theorem charStart_eq (s : State) (k : Nat) :
    s.charStart k = (k * (1000000 * s.charBits.toNat) + s.baud.toNat - 1) / s.baud.toNat := rfl

theorem baud_pos (h : s.baud ≠ 0) : 0 < s.baud.toNat :=
  Nat.pos_of_ne_zero fun h0 => h (BitVec.eq_of_toNat_eq h0)

/-- The first character starts at once. -/
theorem charStart_zero (h : s.baud ≠ 0) : s.charStart 0 = 0 := by
  have := baud_pos h
  rw [charStart_eq, Nat.zero_mul, Nat.zero_add]
  exact Nat.div_eq_of_lt (by omega)

/-- No character starts before the one ahead of it. -/
theorem charStart_mono {j k : Nat} (h : j ≤ k) : s.charStart j ≤ s.charStart k := by
  have := Nat.mul_le_mul_right (1000000 * s.charBits.toNat) h
  rw [charStart_eq, charStart_eq]
  exact Nat.div_le_div_right (by omega)

/-- The characters due are those of the frame whose start is the current instant. -/
theorem dueFrom_eq_filter (s : State) (ts k : Nat) (f : List Byte) :
    s.dueFrom ts k f = ((f.zipIdx k).filter fun p => ts + s.charStart p.2 = s.t).map Prod.fst := by
  induction f generalizing k with
  | nil => rfl
  | cons c cs ih =>
    rw [State.dueFrom, List.zipIdx_cons, List.filter_cons, ih]
    by_cases h : ts + s.charStart k = s.t <;> simp [h]

/-- At its start a transmission has its first character due, and no other. -/
theorem dueFrom_start (hbits : 7 ≤ s.charBits.toNat) (hbaud : s.baud ≠ 0) (f : List Byte) :
    s.dueFrom s.t 0 f = f.take 1 := by
  cases f with
  | nil => rfl
  | cons c cs =>
    have hlater : s.dueFrom s.t 1 cs = [] := by
      rw [dueFrom_eq_filter, List.map_eq_nil_iff, List.filter_eq_nil_iff]
      intro p hp
      have := charStart_pos (s := s) (List.le_snd_of_mem_zipIdx hp) hbits hbaud
      simp
      omega
    rw [State.dueFrom, charStart_zero hbaud, if_pos (Nat.add_zero _), hlater]
    rfl

/-! ### The transmitter's step, case by case -/

theorem txStep_waits (h : s.txs = .wait f tCmd) (hm : s.mayStart = false) : txStep s = s := by
  simp [txStep, txStart, txSendStep, h, hm]

/-- A transmission goes on: the characters due are emitted. -/
theorem txSendStep_goesOn (h : s.txs = .send f ts) (ht : s.t ≠ ts + s.charStart f.length) :
    txSendStep s = emitAll (s.dueFrom ts 0 f) s := by
  simp only [txSendStep, h]
  exact if_neg ht

/-- A transmission ends: the characters due are emitted, and TXDONE and `t_line` are set. -/
theorem txSendStep_ends (h : s.txs = .send f ts) (ht : s.t = ts + s.charStart f.length) :
    txSendStep s =
      { emitAll (s.dueFrom ts 0 f) s with txs := .idle, txDone := true, tLine := s.t } := by
  simp only [txSendStep, h]
  exact if_pos ht

theorem txStart_send (h : s.txs = .send f ts) : txStart s = s := by simp only [txStart, h]

/-- A waiting transmission starts with its first character. -/
theorem txStep_starts (h : s.txs = .wait f tCmd) (hm : s.mayStart = true) (hf : f ≠ [])
    (hbits : 7 ≤ s.charBits.toNat) (hbaud : s.baud ≠ 0) :
    txStep s = { s with
      txs := .send f s.t, lineOut := s.lineOut ++ (f.take 1).map fun c => (s.t, c) } := by
  have hpos : 0 < s.charStart f.length := charStart_pos (List.length_pos_iff.mpr hf) hbits hbaud
  have hsend := txSendStep_goesOn (s := { s with txs := .send f s.t }) rfl
    (Nat.ne_of_lt (Nat.lt_add_of_pos_right hpos))
  rw [dueFrom_start (s := { s with txs := .send f s.t }) hbits hbaud] at hsend
  rw [txStep, txStart, h]
  simp only [if_pos hm]
  exact hsend

/-! ### TX.SEND -/

theorem exec_txSend (s : State) : exec .txSend s = .next (runSend s) := rfl

theorem runSend_range (hidle : s.txs = .idle) (h : s.txLen.toNat < 1 ∨ 253 < s.txLen.toNat) :
    runSend s = { s with err := .range } := by
  rw [runSend, txBusy_eq, if_neg (by simp [hidle]), if_pos (c := _ ∨ Config.pduMax < _) h]
  rfl

section
variable (hidle : s.txs = .idle) (h1 : 1 ≤ s.txLen.toNat) (h253 : s.txLen.toNat ≤ 253)
include hidle h1 h253

/-- In STREAM mode the whole frame is emitted at once (R299). -/
theorem runSend_stream (hm : s.mode = .stream) :
    runSend s = { emitAll s.frame (commandDone s) with txDone := true } := by
  have hmax : Config.pduMax = 253 := rfl
  rw [runSend, txBusy_eq, if_neg (by simp [hidle]), if_neg (by omega)]
  simp only [hm]

/-- In RTU and ASCII modes the frame is latched, and the transmitter's step runs at once (R299). -/
theorem runSend_latches (hm : s.mode ≠ .stream) :
    runSend s = txStep { s with err := .ok, txs := .wait s.frame s.t } := by
  have hmax : Config.pduMax = 253 := rfl
  rw [runSend, txBusy_eq, if_neg (by simp [hidle]), if_neg (by omega)]
  split
  · exact absurd ‹_› hm
  · rfl
  · rfl

end

/-- The frame that a mode latches (R275). -/
theorem frame_of_not_stream (hm : s.mode ≠ .stream) :
    s.frame = if s.mode = .rtu then rtuFrame s.txBody else asciiFrame s.txBody := by
  unfold State.frame
  cases hmode : s.mode
  case stream => exact absurd hmode hm
  all_goals rfl

end

/-- Settles O41: the checks of TX.SEND in their order; what is latched starts at once or waits, as the start
condition says. -/
theorem txSendLatchesTheFrame : Obligations.TxSendLatchesTheFrame := by
  intro s
  rw [exec_txSend]
  refine ⟨fun hbusy => ?_, fun hidle h => ?_, fun hidle h1 h253 hm => ?_, fun hidle h1 h253 hm hreg => ?_⟩
  · exact congrArg _ (runSend_busy hbusy)
  · exact congrArg _ (runSend_range hidle h)
  · have hframe : s.frame = streamFrame s.txTid s.txBody := by simp only [State.frame, hm]
    rw [runSend_stream hidle h1 h253 hm, hframe]
    rfl
  · intro f silence
    obtain ⟨⟨hbits, -⟩, hbaud, -⟩ := hreg
    have hlatched : s.frame = f := frame_of_not_stream hm
    have hf : f ≠ [] := hlatched ▸ List.ne_nil_of_length_pos (by have := frame_length hm h1 h253; omega)
    have hiff := mayStart_iff { s with err := .ok, txs := .wait f s.t }
    rw [runSend_latches hidle h1 h253 hm, hlatched]
    refine congrArg _ ?_
    split
    · exact txStep_starts rfl (hiff.2 ‹_›) hf hbits hbaud
    · exact txStep_waits rfl (Bool.eq_false_of_not_eq_true (mt hiff.1 ‹_›))

/-! ### A Tick and the transmitter

The time check comes before the transmitter's step, and touches none of what that step reads. -/

/-- `t` is `r` but for what the RTU time check can change: the receiver's items, RXBUF and the receive
registers, flags and counters (R282, R283). -/
def UpToReceiver (t r : State) : Prop :=
  t = { r with
    mem := t.mem, rxUnit := t.rxUnit, rxLen := t.rxLen, rxTid := t.rxTid, rxPid := t.rxPid
    rxValid := t.rxValid, overrun := t.overrun, rxErr := t.rxErr, cntRxOk := t.cntRxOk
    cntFrameErr := t.cntFrameErr, cntCrcErr := t.cntCrcErr, cntOverrun := t.cntOverrun
    rxs := t.rxs, rxAsm := t.rxAsm, rxNib := t.rxNib }

section
variable {u r : State}

theorem discardFrame_upTo (cause : DiscardCause) (s : State) : UpToReceiver (discardFrame cause s) s := by
  cases cause <;> rfl

theorem deliver_upTo (unit : Byte) (pdu : List Byte) (tid pid : Half) (s : State) :
    UpToReceiver (deliver unit pdu tid pid s) s := by
  unfold deliver
  split <;> rfl

theorem completeRtu_upTo (s : State) : UpToReceiver (completeRtu s) s := by
  unfold completeRtu
  dsimp only
  split
  · exact discardFrame_upTo _ s
  · split
    · exact deliver_upTo _ _ _ _ s
    · exact discardFrame_upTo _ s

theorem UpToReceiver.withRxs (h : UpToReceiver u r) (x : RxState) : UpToReceiver { u with rxs := x } r := by
  unfold UpToReceiver at *
  rw [h]

theorem rtuTimeCheck_upTo (s : State) : UpToReceiver (rtuTimeCheck s) s := by
  unfold rtuTimeCheck
  split
  · split
    · exact (completeRtu_upTo s).withRxs .idle
    all_goals rfl
  · rfl

theorem UpToReceiver.txs (h : UpToReceiver u r) : u.txs = r.txs := by rw [h]
theorem UpToReceiver.txDone (h : UpToReceiver u r) : u.txDone = r.txDone := by rw [h]
theorem UpToReceiver.time (h : UpToReceiver u r) : u.t = r.t := by rw [h]
theorem UpToReceiver.tLine (h : UpToReceiver u r) : u.tLine = r.tLine := by rw [h]
theorem UpToReceiver.lineOut (h : UpToReceiver u r) : u.lineOut = r.lineOut := by rw [h]
theorem UpToReceiver.inputs (h : UpToReceiver u r) : u.inputs = r.inputs := by rw [h]
theorem UpToReceiver.charBits (h : UpToReceiver u r) : u.charBits = r.charBits := by rw [h]
theorem UpToReceiver.baud (h : UpToReceiver u r) : u.baud = r.baud := by rw [h]

theorem UpToReceiver.mayStart (h : UpToReceiver u r) : u.mayStart = r.mayStart := by
  rw [h]
  rfl

end

/-- Settles O43: the time check leaves the start condition as it is, so it is that of one microsecond later. -/
theorem tickStartsWaitingTransmission : Obligations.TickStartsWaitingTransmission := by
  intro s c cs tCmd rest hreg hwait h
  obtain ⟨⟨hbits, -⟩, hbaud, -⟩ := hreg
  let s1 := { s with inputs := rest, t := s.t + 1 }
  have hcheck := rtuTimeCheck_upTo s1
  have hwait1 : (rtuTimeCheck s1).txs = .wait (c :: cs) tCmd := hcheck.txs.trans hwait
  have hiff := mayStart_iff s1
  rw [← hcheck.mayStart] at hiff
  refine ⟨_, step_tick_eq h, ?_⟩
  split
  · rw [txStep_starts hwait1 (hiff.2 ‹_›) (List.cons_ne_nil c cs) (hcheck.charBits ▸ hbits)
      (hcheck.baud ▸ hbaud)]
    exact ⟨hcheck.time, hcheck.tLine, hcheck.txDone, congrArg (TxState.send (c :: cs)) hcheck.time,
      congrArg₂ (fun out t => out ++ [(t, c)]) hcheck.lineOut hcheck.time⟩
  · rw [txStep_waits hwait1 (Bool.eq_false_of_not_eq_true (mt hiff.1 ‹_›))]
    exact ⟨hcheck.time, hcheck.tLine, hcheck.txDone, hwait1, hcheck.lineOut⟩

/-! ### A transmission from its start to its end -/

/-- Of the characters of a list numbered from k on, those that start at most `n` microseconds after the first,
each with its start (R300). -/
def startedBy (s : State) (n k : Nat) (f : List Byte) : List (Nat × Byte) :=
  ((f.zipIdx k).filter fun p => s.charStart p.2 ≤ n).map fun p => (s.t + s.charStart p.2, p.1)

section
variable {s u : State} {c : Byte} {cs : List Byte} {n m : Nat} {es : List Event}

/-- Nothing but the first character starts with it. -/
theorem startedBy_zero (hbits : 7 ≤ s.charBits.toNat) (hbaud : s.baud ≠ 0) (f : List Byte) :
    startedBy s 0 1 f = [] := by
  rw [startedBy, List.map_eq_nil_iff, List.filter_eq_nil_iff]
  intro p hp
  have := charStart_pos (s := s) (List.le_snd_of_mem_zipIdx hp) hbits hbaud
  simp
  omega

/-- By the end of a list of m characters all of them have started. -/
theorem startedBy_end (k : Nat) (f : List Byte) :
    startedBy s (s.charStart (k + f.length)) k f = (f.zipIdx k).map fun p => (s.t + s.charStart p.2, p.1) := by
  rw [startedBy, List.filter_eq_self.mpr]
  intro p hp
  exact decide_eq_true (charStart_mono (Nat.le_of_lt (List.snd_lt_add_of_mem_zipIdx hp)))

/-- Those that start within one microsecond more are those that start at its end: characters start in order. -/
theorem startedBy_succ (n k : Nat) (f : List Byte) :
    startedBy s (n + 1) k f = startedBy s n k f
      ++ ((f.zipIdx k).filter fun p => s.charStart p.2 = n + 1).map fun p => (s.t + s.charStart p.2, p.1) := by
  rw [startedBy, startedBy, ← List.map_append]
  congr 1
  induction f generalizing k with
  | nil => rfl
  | cons c cs ih =>
    by_cases h : s.charStart k ≤ n
    · simp only [List.zipIdx_cons, List.filter_cons, ih, h, Nat.le_succ_of_le h,
        show s.charStart k ≠ n + 1 by omega, decide_true, decide_false, if_true, List.cons_append]
      rfl
    · have hlater : ∀ p ∈ (c :: cs).zipIdx k, n < s.charStart p.2 := fun p hp =>
        Nat.lt_of_lt_of_le (Nat.lt_of_not_le h) (charStart_mono (List.le_snd_of_mem_zipIdx hp))
      have hnone : ((c :: cs).zipIdx k).filter (fun p => s.charStart p.2 ≤ n) = [] :=
        List.filter_eq_nil_iff.mpr fun p hp => by simpa using hlater p hp
      rw [hnone, List.nil_append]
      exact List.filter_congr fun p hp => by have := hlater p hp; exact decide_eq_decide.mpr (by omega)

/-- The state `u` is `n` microseconds into the transmission of `c :: cs` that started at `s`; of `cs` the
characters of the first `m` microseconds have been emitted. -/
structure Transmitting (s : State) (c : Byte) (cs : List Byte) (n m : Nat) (es : List Event) (u : State) :
    Prop where
  txs : u.txs = .send (c :: cs) s.t
  time : u.t = s.t + n
  inputs : u.inputs = es
  charBits : u.charBits = s.charBits
  baud : u.baud = s.baud
  lineOut : u.lineOut = s.lineOut ++ startedBy s m 1 cs

theorem Transmitting.charStart (h : Transmitting s c cs n m es u) : u.charStart = s.charStart := by
  funext k
  rw [charStart_eq, charStart_eq, h.charBits, h.baud]

/-- A Tick lets a microsecond pass and then runs the transmitter's step. -/
theorem Transmitting.step_tick (h : Transmitting s c cs n m (.tick :: es) u) :
    ∃ w, step u = .next (txStep w) ∧ Transmitting s c cs (n + 1) m es w := by
  have hcheck := rtuTimeCheck_upTo { u with inputs := es, t := u.t + 1 }
  exact ⟨_, step_tick_eq h.inputs, hcheck.txs.trans h.txs, hcheck.time.trans (congrArg (· + 1) h.time),
    hcheck.inputs, hcheck.charBits.trans h.charBits, hcheck.baud.trans h.baud, hcheck.lineOut.trans h.lineOut⟩

/-- The step emits the characters that start now. -/
theorem Transmitting.emitted (h : Transmitting s c cs (n + 1) n es u) (hbaud : s.baud ≠ 0) :
    (emitAll (u.dueFrom s.t 0 (c :: cs)) u).lineOut = s.lineOut ++ startedBy s (n + 1) 1 cs := by
  have hfirst : s.t + s.charStart 0 ≠ s.t + (n + 1) := by
    rw [charStart_zero hbaud]
    omega
  rw [emitAll_lineOut, h.lineOut, startedBy_succ, List.append_assoc, State.dueFrom, h.charStart, h.time,
    if_neg hfirst, dueFrom_eq_filter, h.charStart, h.time, List.map_map]
  simp only [Nat.add_left_cancel_iff]
  congr 2
  refine List.map_congr_left fun p hp => ?_
  have hp' : s.charStart p.2 = n + 1 := of_decide_eq_true (List.mem_filter.mp hp).2
  rw [hp']
  rfl

theorem Transmitting.txStep_eq (h : Transmitting s c cs n m es u) : txStep u = txSendStep u := by
  rw [txStep, txStart_send h.txs]

/-- Before its end the transmission goes on. -/
theorem Transmitting.goesOn (h : Transmitting s c cs (n + 1) n es u) (hbaud : s.baud ≠ 0)
    (hn : n + 1 ≠ s.charStart (c :: cs).length) : Transmitting s c cs (n + 1) (n + 1) es (txStep u) := by
  have ht : u.t ≠ s.t + u.charStart (c :: cs).length := by
    rw [h.time, h.charStart]
    omega
  rw [h.txStep_eq, txSendStep_goesOn h.txs ht]
  exact ⟨h.txs, h.time, h.inputs, h.charBits, h.baud, h.emitted hbaud⟩

/-- Ticks before its end carry the transmission on. -/
theorem Transmitting.run {k : Nat} (h : Transmitting s c cs n n (List.replicate k .tick ++ es) u)
    (hbaud : s.baud ≠ 0) (hn : n + k < s.charStart (c :: cs).length) :
    ∃ v, core.run k u = .next v ∧ Transmitting s c cs (n + k) (n + k) es v := by
  induction k generalizing n u with
  | zero => exact ⟨u, rfl, h⟩
  | succ k ih =>
    obtain ⟨w, hstep, hw⟩ := h.step_tick
    obtain ⟨v, hrun, hv⟩ := ih (hw.goesOn hbaud (by omega)) (by omega)
    rw [Nat.add_right_comm, Nat.add_assoc] at hv
    exact ⟨v, (run_succ hstep).trans hrun, hv⟩

end

/-- Settles O44: each Tick emits the characters that start at it, and the last one finds the end. -/
theorem transmissionRunsToItsEnd : Obligations.TransmissionRunsToItsEnd := by
  intro s f rest hreg hf hsend start h
  obtain ⟨⟨hbits, -⟩, hbaud, -⟩ := hreg
  obtain ⟨c, cs, rfl⟩ := List.exists_cons_of_ne_nil hf
  have hpos : 0 < start (c :: cs).length := charStart_pos (List.length_pos_iff.mpr hf) hbits hbaud
  obtain ⟨e, he⟩ := Nat.exists_eq_succ_of_ne_zero (Nat.ne_of_gt hpos)
  rw [he] at h ⊢
  have hend : e + 1 = s.charStart (c :: cs).length := he.symm
  have hstart : Transmitting s c cs 0 0 (List.replicate e .tick ++ .tick :: rest) s := by
    refine ⟨hsend, rfl, ?_, rfl, rfl, ?_⟩
    · rw [h, List.replicate_succ', List.append_assoc]
      rfl
    · rw [startedBy_zero hbits hbaud, List.append_nil]
  obtain ⟨u, hrun, hu⟩ := hstart.run hbaud (by omega)
  rw [Nat.zero_add] at hu
  obtain ⟨w, hstep, hw⟩ := hu.step_tick
  have ht : w.t = s.t + w.charStart (c :: cs).length := by rw [hw.time, hw.charStart, hend]
  rw [hw.txStep_eq, txSendStep_ends hw.txs ht] at hstep
  refine ⟨_, (run_add hrun).trans (run_succ (k := 0) hstep), hw.inputs, rfl, rfl, hw.time, hw.time, ?_⟩
  refine (hw.emitted hbaud).trans ?_
  rw [hend, List.length_cons, Nat.add_comm, startedBy_end]
  rfl

end Sys2Proof.Machine
end

section
/-! PROOF. The statements of 43_control.md: the control commands and RESET.SOFT. -/

namespace Sys2Proof.Machine

/-! ## RX.ENABLE (R341) -/

section
variable {s : State}

theorem execRxEnable_enabled (h : s.rxs ≠ .disabled) : execRxEnable s = .next (commandDone s) := by
  rw [execRxEnable, if_neg h]

theorem execRxEnable_rtu (h : s.rxs = .disabled) (hm : s.mode = .rtu) :
    execRxEnable s =
      .next (commandDone { s with rxAsm := [], rxNib := none, rxs := .error, tRxLast := s.t }) := by
  rw [execRxEnable, if_pos h, hm]

/-- ASCII and STREAM receivers need no silence before the first character. -/
theorem execRxEnable_not_rtu (h : s.rxs = .disabled) (hm : s.mode ≠ .rtu) :
    execRxEnable s = .next (commandDone { s with rxAsm := [], rxNib := none, rxs := .idle }) := by
  rw [execRxEnable, if_pos h]
  cases hmode : s.mode with
  | rtu => exact absurd hmode hm
  | ascii | stream => rfl

end

/-! ## The statements -/

/-- Settles O29: NOP, RX.RELEASE and RX.DISABLE are single updates, and RX.ENABLE has a branch for an enabled
receiver, one for RTU mode and one for the other modes. -/
theorem controlCommandEffects : Obligations.ControlCommandEffects :=
  fun _ => ⟨rfl, rfl, rfl, execRxEnable_enabled, execRxEnable_rtu, execRxEnable_not_rtu⟩

/-- Settles O12: RESET.SOFT is one update, in which `Config` names the reset values of CHARBITS, BAUD, TXDLY and
the CRC accumulator (R344, R410). -/
theorem softResetEffect : Obligations.SoftResetEffect :=
  fun _ => rfl

end Sys2Proof.Machine
end

section
/-! PROOF. The statements of 60_exceptions.md: IRQ, and how a host access ends. IRQ is read off bit by bit. An
access that is not accepted is answered with a bus error. An accepted one is answered before it runs, and
nothing that it runs changes the answer or the events to come. -/

namespace Sys2Proof.Machine

/-! ## IRQ (R385) -/

/-- STATUS[5:0], bit by bit (R37). -/
theorem statusLow_getLsbD (s : State) (i : Nat) :
    s.statusLow.getLsbD i = match i with
      | 0 => s.rxValid | 1 => s.txBusy | 2 => s.txDone | 3 => s.rxErr | 4 => s.overrun | 5 => s.rxtErr
      | _ => false := by
  rw [State.statusLow]
  simp only [BitVec.getLsbD_append, BitVec.getLsbD_ofBool]
  rcases i with _ | _ | _ | _ | _ | _ | i <;> simp

/-- IE has every bit but that of TXBUSY (R38). -/
theorem ieMask_getLsbD {i : Nat} (h : i < 6) : ieMask.getLsbD i = decide (i ≠ 1) := by
  decide +revert

/-- IRQ is 1 exactly when some bit other than TXBUSY's is 1 in STATUS and in IE. -/
theorem irq_iff_exists_bit (s : State) :
    s.irq = true ↔ ∃ i < 6, s.statusLow.getLsbD i = true ∧ s.ie.getLsbD i = true ∧ i ≠ 1 := by
  have hbit {i : Nat} (h : i < 6) : (s.statusLow &&& s.ie &&& ieMask).getLsbD i = true ↔
      s.statusLow.getLsbD i = true ∧ s.ie.getLsbD i = true ∧ i ≠ 1 := by
    rw [BitVec.getLsbD_and, BitVec.getLsbD_and, ieMask_getLsbD h, Bool.and_eq_true, Bool.and_eq_true,
      decide_eq_true_iff, and_assoc]
  calc s.irq = true
    _ ↔ ∃ i < 6, (s.statusLow &&& s.ie &&& ieMask).getLsbD i = true := by
      simp only [State.irq, bne_iff_ne, ne_eq, BitVec.eq_of_getLsbD_eq_iff, not_forall,
        BitVec.ofNat_eq_ofNat, BitVec.getLsbD_zero, Bool.not_eq_false, exists_prop]
    _ ↔ _ := exists_congr fun _ => and_congr_right hbit

/-- Settles O23: the five bits other than TXBUSY's are the five sources. -/
theorem irqIsAnEnabledSource : Obligations.IrqIsAnEnabledSource := by
  intro s
  simp only [irq_iff_exists_bit, statusLow_getLsbD, Nat.exists_lt_succ_left]
  simp

/-! ## How an access ends (R372) -/

/-- From `s` to `t` neither the events to come nor the host's last response changed. -/
def SameHost (s t : State) : Prop := t.inputs = s.inputs ∧ t.hostResp = s.hostResp

section
variable {s t : State}

/-- What the transmitter changes is not the host's. -/
theorem UpToTransmitter.sameHost (h : UpToTransmitter t s) : SameHost s t := by
  rw [h]
  exact ⟨rfl, rfl⟩

theorem runSend_sameHost (s : State) : SameHost s (runSend s) := by
  unfold runSend
  split
  · exact ⟨rfl, rfl⟩
  · split
    · exact ⟨rfl, rfl⟩
    · split
      · exact ⟨rfl, rfl⟩
      all_goals exact (txStep_upTo _).sameHost

/-- No command answers the host. -/
theorem CommandResult.sameHost {i : Instr} (hc : CommandResult i s t) : SameHost s t := by
  cases hc
  case message op m =>
    obtain ⟨w, n, hw⟩ := runMessage_fields op m s
    rw [hw]
    exact ⟨rfl, rfl⟩
  case sent => exact runSend_sameHost s
  case softReset hi ht =>
    obtain rfl := Host.Outcome.next.inj ht
    exact ⟨rfl, rfl⟩
  all_goals exact ⟨rfl, rfl⟩

/-- No write rule answers the host. -/
theorem WriteResult.sameHost {off : Nat} {v : Word} (hw : WriteResult off v s t) : SameHost s t := by
  cases hw
  case plain ht hie =>
    rw [ht]
    exact ⟨rfl, rfl⟩
  case configured u hoff hl hu =>
    rw [hu.1]
    exact ⟨rfl, rfl⟩
  case command i hoff hd hc => exact hc.sameHost
  all_goals exact ⟨rfl, rfl⟩

end

section
variable {s : State} {size : AccessSize} {off : Nat} {v : Word} {rest : List Event}

theorem busRead_refused (hl : off < 0x8000) (h : size ≠ .word ∨ off % 4 ≠ 0) (s : State) :
    busRead size off s = .next (raiseBusError s) := by
  rw [busRead, Config.aperture, if_neg (by omega), accepted_false h, if_neg Bool.false_ne_true]

theorem busWrite_refused (hl : off < 0x8000) (h : size ≠ .word ∨ off % 4 ≠ 0) (v : Word) (s : State) :
    busWrite size off v s = .next (raiseBusError s) := by
  rw [busWrite, Config.aperture, if_neg (by omega), accepted_false h, if_neg Bool.false_ne_true]

/-- An accepted write completes, and what it runs leaves it acknowledged (20_memory.md R91). -/
theorem step_write_done (h : writesNext s off v rest) (ha : off % 4 = 0) (hl : off < 0x8000) :
    ∃ t, step s = .next t ∧ t.inputs = rest ∧ t.hostResp = .done := by
  obtain ⟨t, ht⟩ := writeTarget_completes (targetAt off) v (acknowledged s rest)
  exact ⟨t, (step_writeTarget h ha hl).trans ht, (writeTarget_result ht).sameHost⟩

end

/-- Settles O15: an access that is not accepted is a bus error, an accepted read is answered with data, and an
accepted write stays acknowledged. -/
theorem busErrorChangesNothing : Obligations.BusErrorChangesNothing := by
  intro s size off v rest hl hacc
  refine ⟨fun hbad => ?_, fun hsize ha => ?_⟩
  · rcases hacc with h | h
    · rw [step_busRead h, busRead_refused hl hbad]
      rfl
    · rw [step_busWrite h, busWrite_refused hl hbad]
      rfl
  · subst hsize
    rcases hacc with h | h
    · exact ⟨_, step_read h ha hl, rfl, .inr ⟨_, rfl⟩⟩
    · obtain ⟨t, ht, hin, hresp⟩ := step_write_done h ha hl
      exact ⟨t, ht, hin, .inl hresp⟩

end Sys2Proof.Machine
end

section
/-! PROOF. The statements of 70_reset_and_hazards.md. Each kind of reset leaves `State.reset` but for items that
neither the reset table's constants nor the block's invariant read, so both statements are shown of `State.reset`
and carried over. -/

namespace Sys2Proof.Machine

/-! ## The reset table (R410) -/

/-- The constants of the table, which `Config` names in the model. -/
theorem reset_afterReset : AfterReset State.reset := by decide

/-- The items that the hardware reset gives another value than `State.reset` has are the model's own. -/
theorem hardwareReset_afterReset (s : State) : AfterReset (hardwareReset s) := reset_afterReset

/-- RESET.SOFT's next state, which has the table's constants, as the items it keeps or sets to `t` are not among
them (43_control.md R344). -/
theorem exec_resetSoft_afterReset (s : State) :
    ∃ t, exec .resetSoft s = .next t ∧ AfterReset t ∧ t.t = s.t ∧ t.tRxLast = s.t ∧ t.tLine = s.t
      ∧ t.mem = s.mem ∧ t.ramDraw = s.ramDraw ∧ t.inputs = s.inputs ∧ t.lineOut = s.lineOut
      ∧ t.hostResp = s.hostResp :=
  ⟨_, softResetEffect s, reset_afterReset, rfl, rfl, rfl, rfl, rfl, rfl, rfl, rfl⟩

/-- While nothing is written, each RAM byte is RAM_INIT (10_state.md R50-R52). -/
theorem State.readByte_of_mem_nil {s : State} (h : s.mem = []) (a : Nat) :
    s.readByte a = Config.ramInit s.ramDraw a := by
  rw [State.readByte, h]
  rfl

/-- Settles O11: the constants are those of `State.reset` after either reset; the hardware reset empties the
memory, and RESET.SOFT keeps it with its draw of RAM_INIT. -/
theorem resetTableValues : Obligations.ResetTableValues := by
  refine ⟨⟨reset_afterReset, rfl, rfl, rfl, State.readByte_of_mem_nil rfl⟩, fun s rest h => ?_, fun s => ?_⟩
  · exact ⟨_, step_reset h, hardwareReset_afterReset _, rfl, rfl, rfl, State.readByte_of_mem_nil rfl,
      rfl, rfl, rfl⟩
  · obtain ⟨t, hstep, hreset, ht, hlast, hline, hmem, hdraw, hhost⟩ := exec_resetSoft_afterReset s
    refine ⟨t, hstep, hreset, ht, hlast, hline, fun a => ?_, hhost⟩
    exact State.readByte_eq_of_lookup hdraw (by rw [hmem])

/-! ## The invariant -/

/-- Settles O55: `State.reset` differs from its own hardware reset in the draw of RAM_INIT only, which `BlockInv`
does not read. -/
theorem resetMeetsTheInvariant : Obligations.ResetMeetsTheInvariant :=
  (invWithin_zero State.reset).1 (hardwareReset_inv State.reset)

end Sys2Proof.Machine
end
